-- ==== Sys2Proof/Word.lean ====
section
/-! DEFINITION. The word types of the engine's ports and fields (00_scope.md R9, R11; 30_encoding.md R81, R84, R86). -/

namespace Sys2Proof

/-- One byte: every length, index, count, code and data byte of the engine (R9). -/
abbrev Byte := BitVec 8

/-- The 32-bit command word of R81. -/
abbrev CommandWord := BitVec 32

/-- The 16-bit event word of R84. -/
abbrev EventWord := BitVec 16

/-- The 24-bit action word of R86. -/
abbrev ActionWord := BitVec 24

end Sys2Proof
end

