-- ==== Sys2Proof/Config.lean ====
section
/-! DEFINITION. The configuration registers (00_scope.md R4, R8, R10; 10_state.md R35): fixed before reset, written by no step. -/

namespace Sys2Proof

/-- The engine's role (R4). -/
inductive Role where
  | master
  | slave
deriving DecidableEq, Repr

/-- The parameters of R8, read-only configuration registers by R35. -/
structure Config where
  role         : Role
  /-- RX_CAP: capacity of receive_buffer in bytes. -/
  rxCap        : Nat
  /-- TX_CAP: capacity of transmit_buffer in bytes. -/
  txCap        : Nat
  /-- ERR_THRESHOLD: error count at which the slave emits a diagnostic. -/
  errThreshold : Nat
  /-- OWN_ADDR: the slave's own address byte. -/
  ownAddr      : Byte
  /-- TAG_MOVE: the first byte of the movement command. -/
  tagMove      : Byte
  /-- ACK_REPLY: the fixed acknowledgment reply, three bytes. -/
  ackReply     : List Byte
deriving DecidableEq, Repr

/-- First byte of a "gather request" (tag A, 42_dispatcher.md R202, fixed by D40). -/
def tagGather : Byte := 0xAA#8

/-- First byte of a "gather check" (tag B, 42_dispatcher.md R203, fixed by D40). -/
def tagCheck : Byte := 0xAB#8

/-- The legal values of R8's table, which include the constraints of R10. -/
def Config.legal (c : Config) : Bool :=
  decide (2 ≤ c.rxCap) && decide (c.rxCap ≤ 255) &&
  decide (5 ≤ c.txCap) && decide (c.txCap ≤ 255) &&
  decide (1 ≤ c.errThreshold) && decide (c.errThreshold ≤ 255) &&
  !c.ownAddr.getLsbD 0 &&
  decide (c.tagMove ≠ tagGather) && decide (c.tagMove ≠ tagCheck) &&
  decide (c.ackReply.length = 3)

/-- The values of R8's last column, in the role given.
DESIGN CHOICE (log entry 1): R8 leaves them open; the spec's own test vectors use these. -/
def Config.vectors (role : Role) : Config where
  role := role
  rxCap := 8
  txCap := 8
  errThreshold := 5
  ownAddr := 0x90#8
  tagMove := 0xAC#8
  ackReply := [0x00#8, 0x01#8, 0x01#8]

/-- The configuration of `State.reset`. DESIGN CHOICE (log entry 1): unsafe as a fact about the hardware. -/
def Config.reference : Config := Config.vectors .master

end Sys2Proof
end

