-- ==== Sys2Proof/Syntax.lean ====
section
/-! DEFINITION. The five operations of spec/opcode_table.json as syntax (30_encoding.md R80, R89), and the event snapshot (10_state.md R36). -/

namespace Sys2Proof

/-- The event snapshot `ev` of R36, one field per field of the event word of R84. -/
structure Event where
  /-- BF: a byte was received into the data register this event. -/
  bf       : Bool
  /-- S: a start or repeated start occurred since the previous event. -/
  s        : Bool
  /-- P: a stop occurred since the previous event. -/
  p        : Bool
  /-- D_A: with BF, the byte is data (true) or an address byte (false). -/
  dA       : Bool
  /-- R_W: with BF and an address byte, the address asks for a read. -/
  rW       : Bool
  /-- OV: a byte arrived before the previous one was consumed. -/
  ov       : Bool
  /-- ACKSTAT: the peer's acknowledge of the last byte the master sent, true for NACK. -/
  ackstat  : Bool
  /-- Bit 7, ignored by every rule (R84). -/
  reserved : Bool
  /-- DATA: the data register's contents. -/
  data     : Byte
deriving DecidableEq, Repr

/-- One constructor per row of spec/opcode_table.json. A payload's length is the field N of the command word (R81). -/
inductive Instr where
  /-- M.BEGIN_WRITE: address byte A, payload P (40_master.md R111). -/
  | mBeginWrite (address : Byte) (payload : List Byte)
  /-- M.BEGIN_READ: the number of bytes N (40_master.md R112). -/
  | mBeginRead (length : Byte)
  /-- S.BEGIN_REPLY: payload P (41_slave.md R185). -/
  | sBeginReply (payload : List Byte)
  /-- M.ON_EVENT: one peripheral event in the master role (40_master.md R114). -/
  | mOnEvent (ev : Event)
  /-- S.ON_EVENT: one peripheral event in the slave role (41_slave.md R157). -/
  | sOnEvent (ev : Event)
deriving DecidableEq, Repr

/-- The role under which the opcode map of R89 has the operation. -/
def Instr.role : Instr → Role
  | .mBeginWrite _ _ => .master
  | .mBeginRead _    => .master
  | .sBeginReply _   => .slave
  | .mOnEvent _      => .master
  | .sOnEvent _      => .slave

/-- The operations that arrive on the command port (R80, R89). -/
def Instr.isCommand : Instr → Bool
  | .mBeginWrite _ _ => true
  | .mBeginRead _    => true
  | .sBeginReply _   => true
  | .mOnEvent _      => false
  | .sOnEvent _      => false

end Sys2Proof
end

