-- ==== Sys2Proof/WellFormed.lean ====
section
/-! DEFINITION. Which terms of `Instr` have an encoding: a payload's length is the 8-bit field N (30_encoding.md R81, R88). -/

namespace Sys2Proof

/-- A data phase that the field N can announce. -/
def payloadFits (payload : List Byte) : Bool := decide (payload.length ≤ 255)

/-- The instruction has an encoding. A payload too long for the BUFFER is well formed: the engine answers it INVALID. -/
def Instr.wf : Instr → Bool
  | .mBeginWrite _ payload => payloadFits payload
  | .mBeginRead _          => true
  | .sBeginReply payload   => payloadFits payload
  | .mOnEvent _            => true
  | .sOnEvent _            => true

end Sys2Proof
end

