-- ==== Sys2Proof/Decode.lean ====
section
/-! DEFINITION. Decoding what the command and event ports carry, the encoder, and the codes of state and ports (30_encoding.md R80, R81, R82, R84, R88 to R93). -/

namespace Sys2Proof

/-! ## The command word (R81) -/

/-- OP, bits 3:0. -/
def opField (w : CommandWord) : BitVec 4 := w.extractLsb' 0 4

/-- The reserved bits 7:4. -/
def reservedLow (w : CommandWord) : BitVec 4 := w.extractLsb' 4 4

/-- A, bits 15:8. -/
def aField (w : CommandWord) : Byte := w.extractLsb' 8 8

/-- N, bits 23:16. -/
def nField (w : CommandWord) : Byte := w.extractLsb' 16 8

/-- The reserved bits 31:24. -/
def reservedHigh (w : CommandWord) : Byte := w.extractLsb' 24 8

def opBeginWrite : BitVec 4 := 0x1#4
def opBeginRead  : BitVec 4 := 0x2#4
def opBeginReply : BitVec 4 := 0x3#4

/-- The word from the four bytes of the command stream, the first byte its bits 7:0.
DESIGN CHOICE (log entry 5): R81 gives the word whole, not its byte order on the port. -/
def commandWordOfBytes (b0 b1 b2 b3 : Byte) : CommandWord := b3 ++ b2 ++ b1 ++ b0

/-- The four bytes of a command word in the order of `commandWordOfBytes`. -/
def bytesOfCommandWord (w : CommandWord) : List Byte :=
  [w.extractLsb' 0 8, w.extractLsb' 8 8, w.extractLsb' 16 8, w.extractLsb' 24 8]

/-- A command word with its reserved bits zero (R81). -/
def commandWord (op : BitVec 4) (a n : Byte) : CommandWord :=
  0#8 ++ n ++ a ++ 0#4 ++ op

/-- The number of data bytes that follow a command word: N for OP 0x1 and 0x3, none after any other OP (R88). -/
def dataPhaseLength (w : CommandWord) : Nat :=
  if opField w = opBeginWrite ∨ opField w = opBeginReply then (nField w).toNat else 0

/-! ## The event word (R84) -/

def Event.ofWord (w : EventWord) : Event where
  bf       := w.getLsbD 0
  s        := w.getLsbD 1
  p        := w.getLsbD 2
  dA       := w.getLsbD 3
  rW       := w.getLsbD 4
  ov       := w.getLsbD 5
  ackstat  := w.getLsbD 6
  reserved := w.getLsbD 7
  data     := w.extractLsb' 8 8

def Event.toWord (e : Event) : EventWord :=
  e.data ++ BitVec.ofBool e.reserved ++ BitVec.ofBool e.ackstat ++ BitVec.ofBool e.ov ++
    BitVec.ofBool e.rW ++ BitVec.ofBool e.dA ++ BitVec.ofBool e.p ++ BitVec.ofBool e.s ++ BitVec.ofBool e.bf

/-! ## Decoding -/

/-- Why a command word is illegal: the five grounds of R90. -/
inductive Illegal where
  /-- OP 0x0 or 0x4..0xF. -/
  | reservedOp
  /-- OP 0x1 or 0x2 with ROLE = SLAVE, or OP 0x3 with ROLE = MASTER. -/
  | opOfOtherRole
  /-- A nonzero bit in word[7:4] or word[31:24]. -/
  | reservedBits
  /-- A nonzero A field with OP ≠ 0x1. -/
  | addressField
deriving DecidableEq, Repr

/-- What the decoder reads at the head of a port. -/
inductive Decoded where
  /-- An instruction, and the bytes after it. -/
  | instr (i : Instr) (rest : List Byte)
  /-- An illegal command, named, and the bytes after it and its data phase (R88, R90). -/
  | illegal (why : Illegal) (rest : List Byte)
  /-- The port does not yet hold a whole command. -/
  | incomplete
deriving DecidableEq, Repr

/-- `Illegal(word)` of the command rules (R90), with the ground that holds. -/
def illegalWord (role : Role) (w : CommandWord) : Option Illegal :=
  if opField w ≠ opBeginWrite ∧ opField w ≠ opBeginRead ∧ opField w ≠ opBeginReply then
    some .reservedOp
  else if (opField w = opBeginReply ∧ role = .master) ∨ (opField w ≠ opBeginReply ∧ role = .slave) then
    some .opOfOtherRole
  else if reservedLow w ≠ 0#4 ∨ reservedHigh w ≠ 0#8 then
    some .reservedBits
  else if opField w ≠ opBeginWrite ∧ aField w ≠ 0#8 then
    some .addressField
  else
    none

/-- The command of a legal word with its data phase (R81, R89). -/
def commandOf (w : CommandWord) (payload : List Byte) : Instr :=
  if opField w = opBeginWrite then .mBeginWrite (aField w) payload
  else if opField w = opBeginRead then .mBeginRead (nField w)
  else .sBeginReply payload

/-- The command at the head of the command port's stream: four bytes of word, then the data phase (R80, R88).
The length depends on the word alone (R98), so an illegal command takes its data phase with it. -/
def decodeCommand (role : Role) : List Byte → Decoded
  | b0 :: b1 :: b2 :: b3 :: rest =>
    let w := commandWordOfBytes b0 b1 b2 b3
    let n := dataPhaseLength w
    if rest.length < n then .incomplete
    else match illegalWord role w with
      | some why => .illegal why (rest.drop n)
      | none     => .instr (commandOf w (rest.take n)) (rest.drop n)
  | _ => .incomplete

/-- The operation of an event word: the role's event rule (R89). Every word is legal (R84, R85). -/
def decodeEvent (role : Role) (w : EventWord) : Instr :=
  match role with
  | .master => .mOnEvent (Event.ofWord w)
  | .slave  => .sOnEvent (Event.ofWord w)

/-- What one operation looks like on its port. -/
inductive Encoded where
  | command (bytes : List Byte)
  | event (w : EventWord)
deriving DecidableEq, Repr

/-- The decoder of both ports: total, every illegal form rejected by name. -/
def decode (role : Role) : Encoded → Decoded
  | .command bytes => decodeCommand role bytes
  | .event w       => .instr (decodeEvent role w) []

/-! ## Encoding -/

/-- The bytes or the word of an instruction (R81, R84, R88). -/
def encode : Instr → Encoded
  | .mBeginWrite a payload =>
    .command (bytesOfCommandWord (commandWord opBeginWrite a (BitVec.ofNat 8 payload.length)) ++ payload)
  | .mBeginRead n =>
    .command (bytesOfCommandWord (commandWord opBeginRead 0#8 n))
  | .sBeginReply payload =>
    .command (bytesOfCommandWord (commandWord opBeginReply 0#8 (BitVec.ofNat 8 payload.length)) ++ payload)
  | .mOnEvent e => .event e.toWord
  | .sOnEvent e => .event e.toWord

/-! ## Codes held in state and sent on ports (10_state.md R21, 30_encoding.md R82, R91, R92, R93) -/

/-- The named protocol states of R21. -/
inductive Status where
  | idle
  | mWriteAddr
  | mWriteData
  | mRcvData
  | mAck
  | mRepStart
  | mEndWrite
  | sStarted
  | sRcvData
  | sSlaveSend
deriving DecidableEq, Repr

/-- The numbers of R21 (D6). -/
def Status.code : Status → BitVec 4
  | .idle       => 0x0#4
  | .mWriteAddr => 0x1#4
  | .mWriteData => 0x2#4
  | .mRcvData   => 0x3#4
  | .mAck       => 0x4#4
  | .mRepStart  => 0x5#4
  | .mEndWrite  => 0x6#4
  | .sStarted   => 0x9#4
  | .sRcvData   => 0xA#4
  | .sSlaveSend => 0xB#4

/-- The state a status value names; none for the reserved values 0x7, 0x8, 0xC..0xF. -/
def Status.ofCode (v : BitVec 4) : Option Status :=
  if v = Status.idle.code then some .idle
  else if v = Status.mWriteAddr.code then some .mWriteAddr
  else if v = Status.mWriteData.code then some .mWriteData
  else if v = Status.mRcvData.code then some .mRcvData
  else if v = Status.mAck.code then some .mAck
  else if v = Status.mRepStart.code then some .mRepStart
  else if v = Status.mEndWrite.code then some .mEndWrite
  else if v = Status.sStarted.code then some .sStarted
  else if v = Status.sRcvData.code then some .sRcvData
  else if v = Status.sSlaveSend.code then some .sSlaveSend
  else none

/-- The error kinds of R92. -/
inductive ErrorCode where
  | none
  | addrWithoutData
  | noData
  | overrun
  | msgTooLong
  | busNack
deriving DecidableEq, Repr

def ErrorCode.code : ErrorCode → Byte
  | .none            => 0x00#8
  | .addrWithoutData => 0x01#8
  | .noData          => 0x02#8
  | .overrun         => 0x03#8
  | .msgTooLong      => 0x04#8
  | .busNack         => 0x05#8

/-- The result codes of R82. -/
inductive ResultCode where
  | accepted
  | busy
  | invalid
deriving DecidableEq, Repr

/-- The code that stands on the command port. DESIGN CHOICE (log entry 13): R82 gives the value, not a width. -/
def ResultCode.code : ResultCode → BitVec 4
  | .accepted => 0x0#4
  | .busy     => 0x1#4
  | .invalid  => 0x2#4

/-- The message tags of R93. -/
inductive Tag where
  | writeOk
  | writeFail
  | readOk
  | readFail
  | dataRcvd
  | diag
  | notifyGather
  | notifyMove
  | sample
deriving DecidableEq, Repr

def Tag.code : Tag → Byte
  | .writeOk      => 0x01#8
  | .writeFail    => 0x02#8
  | .readOk       => 0x03#8
  | .readFail     => 0x04#8
  | .dataRcvd     => 0x05#8
  | .diag         => 0x06#8
  | .notifyGather => 0x07#8
  | .notifyMove   => 0x08#8
  | .sample       => 0x09#8

/-! ## The opcode table's words -/

/-- The role in which a command word's OP is legal (R89). -/
def roleOfCommandWord (w : CommandWord) : Role :=
  if opField w = opBeginReply then .slave else .master

/-- The stream of a command word whose data phase is all zero bytes. -/
def zeroFilledCommand (w : CommandWord) : List Byte :=
  bytesOfCommandWord w ++ List.replicate (dataPhaseLength w) 0#8

/-- The instruction of a table word. A 32-bit word is a command, read in the role its OP belongs to. A 16-bit word is an
event; its row is M.ON_EVENT or S.ON_EVENT by ROLE alone (R89), so it is read in the role of the reset configuration
(log entry 2). -/
def decodeTableWord (nbits w : Nat) : Option Instr :=
  if nbits = 32 then
    match decodeCommand (roleOfCommandWord (BitVec.ofNat 32 w)) (zeroFilledCommand (BitVec.ofNat 32 w)) with
    | .instr i _   => some i
    | .illegal _ _ => none
    | .incomplete  => none
  else if nbits = 16 then
    some (decodeEvent Config.reference.role (BitVec.ofNat 16 w))
  else
    none

end Sys2Proof
end

