-- ==== Sys2Proof/Machine/State.lean ====
section
/-! DEFINITION. The machine's state: the Communication Record, the configuration registers and the ports (10_state.md); faults, refusals and reset. -/

namespace Sys2Proof.Machine

/-! ## Memory (20_memory.md R60 to R62) -/

/-- One storage space: (index, byte) pairs with strictly rising indices. An unlisted index is a byte no step has written:
absent, not zero (R62). -/
abbrev Memory := List Host.Cell

/-- The two storage spaces of R60. -/
inductive Space where
  | rx
  | tx
deriving DecidableEq, Repr

/-- A tagged byte message (R93). The tag is a byte, since the sample-in port may carry any. -/
structure Message where
  tag     : Byte
  payload : List Byte
deriving DecidableEq, Repr

/-! ## The Communication Record (10_state.md R20 to R33) -/

structure Record where
  status         : BitVec 4
  slaveAddress   : Byte
  rxb            : Memory
  receiveLength  : Byte
  receiveIndex   : Byte
  txb            : Memory
  transmitLength : Byte
  transmitIndex  : Byte
  eventCount     : Byte
  errorCount     : Byte
  lastErrorCode  : Byte
  awaitingReply  : Bool
deriving DecidableEq, Repr

/-- The input ports between which the environment chooses the order of steps (60_exceptions.md R235). -/
inductive Port where
  | command
  | event
deriving DecidableEq, Repr

/-- The machine: configuration registers, the Record, what stands at the five ports of R3, and the peripheral's clock hold. -/
structure State where
  /-- The configuration registers (R35). -/
  cfg        : Config
  /-- The Communication Record (R20). -/
  record     : Record
  /-- The serial order of the steps still to come, as far as the environment has chosen it (R65, R235; log entry 3). -/
  schedule   : List Port
  /-- Bytes delivered on the command port and not yet consumed (R80, R88). -/
  commandIn  : List Byte
  /-- Event words delivered on the event port and not yet consumed (R80, R84). -/
  eventIn    : List EventWord
  /-- The Channel's pending messages, the head first (R205). -/
  sampleIn   : List Message
  /-- The action words driven, one a step, oldest first (R39, R71, R86). -/
  actionOut  : List ActionWord
  /-- The result codes returned, one a command step, oldest first (R39, R82). -/
  resultOut  : List ResultCode
  /-- The message-out trace (R39). -/
  messageOut : List Message
  /-- The peripheral's clock-stretch hold (R38, R231). The engine never reads it (log entry 7). -/
  clockHeld  : Bool
deriving DecidableEq, Repr

/-! ## How a step can stop -/

/-- The model faults of 60_exceptions.md R239. None is reachable from reset; each is SAFE. -/
inductive Fault where
  /-- R239 (a), R128, R186: status names no state of the role. Raised by the launch check and the event rules. Safe. -/
  | statusOutsideRole
  /-- R239 (b), R61: a MemRead or MemWrite index outside the space. Raised by `memRead` and `memWrite`. Safe. -/
  | indexOutOfRange (space : Space) (index : Nat)
  /-- R239 (c), R62: a MemRead of a byte no step has written. Raised by `memRead`. Safe. -/
  | readUnwritten (space : Space) (index : Nat)
  /-- R239 (d), R34: the state breaks an invariant of R34. Raised by the launch check, and by an event that finds
  transmit_index above transmit_length. Safe. -/
  | invariantBroken
deriving DecidableEq, Repr

/-- What the model gives no meaning to. -/
inductive Refusal where
  /-- An instruction with no meaning yet. Raised by `exec` only; no arm does. Safe. -/
  | notModelled (mnemonic : String)
  /-- R10: "A configuration that violates these is refused. The model has no meaning for it." Raised by `step`. Safe. -/
  | illegalConfiguration
  /-- An event operation of the role the engine does not have (R89, R110, R150): the decoder never gives one.
  Raised by the two event meanings. Safe. -/
  | otherRolesEvent
deriving DecidableEq, Repr

/-! ## Reset (10_state.md R41, 70_reset_and_hazards.md R250, R251) -/

/-- The Record right after reset (R41). -/
def Record.reset (c : Config) : Record where
  status         := Status.idle.code
  slaveAddress   := match c.role with
    | .master => 0x00#8
    | .slave  => c.ownAddr
  rxb            := []
  receiveLength  := 0#8
  receiveIndex   := 0#8
  txb            := []
  transmitLength := 0#8
  transmitIndex  := 0#8
  eventCount     := 0#8
  errorCount     := 0#8
  lastErrorCode  := ErrorCode.none.code
  awaitingReply  := false

/-- The machine right after reset in the configuration given: no input pending, no output driven (R251), no clock held (R253). -/
def State.resetOf (c : Config) : State where
  cfg        := c
  record     := Record.reset c
  schedule   := []
  commandIn  := []
  eventIn    := []
  sampleIn   := []
  actionOut  := []
  resultOut  := []
  messageOut := []
  clockHeld  := false

/-- The machine right after reset, in the configuration of R8's last column (log entry 1). -/
def State.reset : State := State.resetOf Config.reference

end Sys2Proof.Machine
end

