-- ==== Sys2Proof/Machine/Ops.lean ====
section
/-! DEFINITION. The named operations every rule is written with: the buffers' MemRead and MemWrite, the action port, `send`, `try_receive`,
RecordError, the end of a step, and what a step does before and around an operation (00_scope.md R12; 20_memory.md; 60_exceptions.md). -/

namespace Sys2Proof.Machine

/-! ## Memory lists -/

/-- The byte at an index, none where no step has written one (R62). -/
def Memory.read : Memory → Nat → Option Byte
  | [], _ => none
  | (a, b) :: rest, i => if a = i then some b else Memory.read rest i

/-- The memory with byte i set, its indices still rising (R61: no other byte changes). -/
def Memory.write : Memory → Nat → Byte → Memory
  | [], i, v => [(i, v)]
  | (a, b) :: rest, i, v =>
    if i < a then (i, v) :: (a, b) :: rest
    else if i = a then (i, v) :: rest
    else (a, b) :: Memory.write rest i v

/-- The canonical form: strictly rising indices. -/
def Memory.wf : Memory → Bool
  | [] => true
  | [_] => true
  | (a, _) :: (b, y) :: rest => decide (a < b) && Memory.wf ((b, y) :: rest)

/-- Every listed index lies below the capacity. -/
def Memory.within (cap : Nat) (m : Memory) : Bool := m.all fun cell => decide (cell.1 < cap)

/-- Capacity of a space (R60). -/
def capacity (c : Config) : Space → Nat
  | .rx => c.rxCap
  | .tx => c.txCap

/-- The storage of a space (R60). -/
def Record.space (r : Record) : Space → Memory
  | .rx => r.rxb
  | .tx => r.txb

/-- The Record with the storage of a space replaced. -/
def Record.setSpace (r : Record) (m : Memory) : Space → Record
  | .rx => { r with rxb := m }
  | .tx => { r with txb := m }

/-! ## The working state of one step -/

/-- The action outputs of one step as they are asserted (10_state.md R37). -/
structure Actions where
  sen    : Bool := false
  rsen   : Bool := false
  pen    : Bool := false
  rcen   : Bool := false
  acken  : Bool := false
  ackdt  : Bool := false
  ckpRel : Bool := false
  ovClr  : Bool := false
  /-- The byte of `act(WR, v)`, if the step writes the data register. -/
  wr     : Option Byte := none
deriving DecidableEq, Repr

/-- What one step works on: the Record, the Channel's pending messages, and what lives for the step only. -/
structure Work where
  record        : Record
  samples       : List Message
  actions       : Actions
  sent          : List Message
  /-- RecordError was called in this step (R154, R222). -/
  recordedError : Bool
deriving DecidableEq, Repr

/-- The start of a step: nothing asserted, sent or recorded. -/
def Work.start (s : State) : Work where
  record        := s.record
  samples       := s.sampleIn
  actions       := {}
  sent          := []
  recordedError := false

/-! ## MemRead and MemWrite (20_memory.md R61, R62) -/

/-- MemRead(S, i, 1). -/
def memRead (c : Config) (sp : Space) (i : Nat) (w : Work) : Except Fault Byte :=
  if i < capacity c sp then
    match Memory.read (w.record.space sp) i with
    | some b => .ok b
    | none   => .error (.readUnwritten sp i)
  else
    .error (.indexOutOfRange sp i)

/-- MemWrite(S, i, 1, v). -/
def memWrite (c : Config) (sp : Space) (i : Nat) (v : Byte) (w : Work) : Except Fault Work :=
  if i < capacity c sp then
    .ok { w with record := w.record.setSpace (Memory.write (w.record.space sp) i v) sp }
  else
    .error (.indexOutOfRange sp i)

/-- MemWrite of the bytes of a list at i, i+1, ... in order. -/
def memWriteFrom (c : Config) (sp : Space) : Nat → List Byte → Work → Except Fault Work
  | _, [], w => .ok w
  | i, b :: bs, w => do
    let w ← memWrite c sp i b w
    memWriteFrom c sp (i + 1) bs w

/-- [MemRead(S, i, 1), ...], n bytes from index i on. -/
def memReadFrom (c : Config) (sp : Space) (i : Nat) : Nat → Work → Except Fault (List Byte)
  | 0, _ => .ok []
  | n + 1, w => do
    let b ← memRead c sp i w
    let bs ← memReadFrom c sp (i + 1) n w
    .ok (b :: bs)

/-! ## Writes of the Record's fields -/

def Work.setStatus (st : Status) (w : Work) : Work :=
  { w with record := { w.record with status := st.code } }

def Work.setSlaveAddress (v : Byte) (w : Work) : Work :=
  { w with record := { w.record with slaveAddress := v } }

def Work.setReceiveLength (v : Byte) (w : Work) : Work :=
  { w with record := { w.record with receiveLength := v } }

def Work.setReceiveIndex (v : Byte) (w : Work) : Work :=
  { w with record := { w.record with receiveIndex := v } }

def Work.setTransmitLength (v : Byte) (w : Work) : Work :=
  { w with record := { w.record with transmitLength := v } }

def Work.setTransmitIndex (v : Byte) (w : Work) : Work :=
  { w with record := { w.record with transmitIndex := v } }

def Work.setEventCount (v : Byte) (w : Work) : Work :=
  { w with record := { w.record with eventCount := v } }

def Work.setErrorCount (v : Byte) (w : Work) : Work :=
  { w with record := { w.record with errorCount := v } }

def Work.setAwaitingReply (v : Bool) (w : Work) : Work :=
  { w with record := { w.record with awaitingReply := v } }

/-- `if R.status ≠ IDLE: R.event_count <- R.event_count + 1 mod 256` (R114, R159). -/
def Work.countEvent (w : Work) : Work :=
  if w.record.status = Status.idle.code then w else w.setEventCount (w.record.eventCount + 1#8)

/-- RecordError(code) (R222): the tally wraps mod 256, and the step is marked. -/
def Work.recordError (e : ErrorCode) (w : Work) : Work :=
  { w with
    record := { w.record with errorCount := w.record.errorCount + 1#8, lastErrorCode := e.code }
    recordedError := true }

/-! ## The action port (R12, R37, R86) -/

/-- The control strobes of `act(X)`. -/
inductive Strobe where
  | sen
  | rsen
  | pen
  | rcen
  | acken
  | ckpRel
  | ovClr
deriving DecidableEq, Repr

/-- The outputs with one more strobe asserted. -/
def Actions.assert (a : Actions) : Strobe → Actions
  | .sen    => { a with sen := true }
  | .rsen   => { a with rsen := true }
  | .pen    => { a with pen := true }
  | .rcen   => { a with rcen := true }
  | .acken  => { a with acken := true }
  | .ckpRel => { a with ckpRel := true }
  | .ovClr  => { a with ovClr := true }

/-- act(X). -/
def Work.act (x : Strobe) (w : Work) : Work := { w with actions := w.actions.assert x }

/-- act(ACKDT, b). -/
def Work.actAckdt (b : Bool) (w : Work) : Work := { w with actions := { w.actions with ackdt := b } }

/-- act(WR, v). -/
def Work.actWr (v : Byte) (w : Work) : Work := { w with actions := { w.actions with wr := some v } }

/-- `if b: act(X)`. -/
def Work.actIf (b : Bool) (x : Strobe) (w : Work) : Work := if b then w.act x else w

/-! ## The Message Channel (R205, R229) -/

/-- send(tag, bytes): it always completes within the step. -/
def Work.send (t : Tag) (payload : List Byte) (w : Work) : Work :=
  { w with sent := w.sent ++ [{ tag := t.code, payload := payload }] }

/-- try_receive: the head of the pending queue, which it removes, or none (R205). -/
def Work.tryReceive (w : Work) : Option Message × Work :=
  match w.samples with
  | []        => (none, w)
  | m :: rest => (some m, { w with samples := rest })

end Sys2Proof.Machine
end

