-- ==== Sys2Proof/Machine/Flags.lean ====
section
/-! DEFINITION. The flag words of the ports: the action word (30_encoding.md R86) and its order at the peripheral (R87), the status classes (10_state.md R22),
and the clock hold of the reference convention (60_exceptions.md R231). -/

namespace Sys2Proof.Machine

/-! ## The action word (R86) -/

/-- The 24-bit action word: WDATA in 23:16 and 0 when WR = 0, bits 15:9 always 0. -/
def Actions.word (a : Actions) : ActionWord :=
  a.wr.getD 0#8 ++ 0#7 ++ BitVec.ofBool a.wr.isSome ++ BitVec.ofBool a.ovClr ++ BitVec.ofBool a.ckpRel ++
    BitVec.ofBool a.ackdt ++ BitVec.ofBool a.acken ++ BitVec.ofBool a.rcen ++ BitVec.ofBool a.pen ++
    BitVec.ofBool a.rsen ++ BitVec.ofBool a.sen

/-- The action port's fields as the peripheral reads them from the word. -/
def Actions.ofWord (v : ActionWord) : Actions where
  sen    := v.getLsbD 0
  rsen   := v.getLsbD 1
  pen    := v.getLsbD 2
  rcen   := v.getLsbD 3
  acken  := v.getLsbD 4
  ackdt  := v.getLsbD 5
  ckpRel := v.getLsbD 6
  ovClr  := v.getLsbD 7
  wr     := if v.getLsbD 8 then some (v.extractLsb' 16 8) else none

/-- What the peripheral is asked to do, one item of R87's list. -/
inductive Effect where
  | ovClr
  | wr (v : Byte)
  | ackdt (b : Bool)
  | acken
  | rcen
  | sen
  | rsen
  | pen
  | ckpRel
deriving DecidableEq, Repr

/-- One action word applied at the peripheral, in the fixed order of R87. ACKDT stands only with ACKEN: it is
"meaningful only with ACKEN = 1" (R86). -/
def Actions.effects (a : Actions) : List Effect :=
  (if a.ovClr then [.ovClr] else []) ++
  a.wr.toList.map .wr ++
  (if a.acken then [.ackdt a.ackdt] else []) ++
  (if a.acken then [.acken] else []) ++
  (if a.rcen then [.rcen] else []) ++
  (if a.sen then [.sen] else []) ++
  (if a.rsen then [.rsen] else []) ++
  (if a.pen then [.pen] else []) ++
  (if a.ckpRel then [.ckpRel] else [])

/-- How many of the step-4 strobes of R87 are asserted. -/
def Actions.busStrobes (a : Actions) : Nat :=
  a.acken.toNat + a.rcen.toNat + a.sen.toNat + a.rsen.toNat + a.pen.toNat

/-! ## Status classes (R22) -/

/-- A master transaction is in progress: 0x1..0x6. -/
def masterStatus (v : BitVec 4) : Bool := decide (1 ≤ v.toNat) && decide (v.toNat ≤ 6)

/-- A slave transaction is in progress: 0x9..0xB. -/
def slaveStatus (v : BitVec 4) : Bool := decide (9 ≤ v.toNat) && decide (v.toNat ≤ 11)

/-- The status names a state of the role (R21, R128, R186). -/
def statusOfRole (role : Role) (v : BitVec 4) : Bool :=
  decide (v = Status.idle.code) ||
    match role with
    | .master => masterStatus v
    | .slave  => slaveStatus v

/-! ## The clock-stretch hold (R38, R231) -/

/-- A reply byte is still to be sent: the condition of R182. -/
def replyByteDue (r : Record) : Bool :=
  decide (r.status = Status.sSlaveSend.code) && !r.awaitingReply && decide (r.transmitIndex.toNat < r.transmitLength.toNat)

/-- An EV_TXDONE after an ACK, as the slave reads it: no byte, start, stop or overrun, and ACKSTAT = 0 (R96, R231). -/
def isTxDone (ev : Event) : Bool := !ev.bf && !ev.s && !ev.p && !ev.ov && !ev.ackstat

/-- The event leaves the peripheral holding the clock (R231): every slave event with BF = 1, and an EV_TXDONE that asks for a reply
byte. After the last byte nothing is held (R183, R240 d, U17). -/
def eventHoldsClock (c : Config) (r : Record) (ev : Event) : Bool :=
  decide (c.role = .slave) && (ev.bf || (isTxDone ev && replyByteDue r))

/-- The event shows that the peripheral let the clock go: a stop, since a held bus carries none (R179, R184; log entry 7). In an
overrun event the hold stays whatever its flags (R158). -/
def eventEndsHold (c : Config) (ev : Event) : Bool := decide (c.role = .slave) && ev.p && !ev.ov

/-- The hold as the engine finds it when the event arrives. -/
def holdAtEvent (s : State) (ev : Event) : Bool :=
  eventHoldsClock s.cfg s.record ev || (s.clockHeld && !eventEndsHold s.cfg ev)

/-- The hold after a step: what the engine found, unless the step asserts CKP_REL (R86). -/
def clockAfter (held : Bool) (a : Actions) : Bool := held && !a.ckpRel

/-! ## The end of a step (R80) -/

/-- The state with a step's work written back: one action word driven, the step's messages appended to the trace, and the clock held
if the step found it so and did not release it. -/
def State.withWork (s : State) (held : Bool) (w : Work) : State :=
  { s with
    record     := w.record
    sampleIn   := w.samples
    actionOut  := s.actionOut ++ [w.actions.word]
    messageOut := s.messageOut ++ w.sent
    clockHeld  := clockAfter held w.actions }

/-- The end of an event step: no result code (R114). -/
def finishEvent (s : State) (ev : Event) : Except Fault Work → Host.Outcome State Fault Refusal
  | .ok w    => .next (s.withWork (holdAtEvent s ev) w)
  | .error f => .fault f

/-- `return r` after a command's work (R82). -/
def finishCommand (s : State) (r : ResultCode) : Except Fault Work → Host.Outcome State Fault Refusal
  | .ok w    => .next { s.withWork s.clockHeld w with resultOut := s.resultOut ++ [r] }
  | .error f => .fault f

/-- A refused command: its result code, no action, no message, no change (R225). -/
def refuseCommand (s : State) (r : ResultCode) : Host.Outcome State Fault Refusal :=
  finishCommand s r (.ok (Work.start s))

end Sys2Proof.Machine
end

