-- ==== Sys2Proof/Machine/Operands.lean ====
section
/-! DEFINITION. The operands of the operations: the address byte (30_encoding.md R83), the commands' operand checks (R111, R112, R185), the event's flags
and shorthands (R95, R96), and what the ports deliver to a step (R80, R235) with the checks before it (60_exceptions.md R239). -/

namespace Sys2Proof.Machine

/-! ## The address byte (R83) -/

/-- ADDR7, bits 7:1. -/
def addr7 (a : Byte) : BitVec 7 := a.extractLsb' 1 7

/-- RW, bit 0: 1 = read. -/
def isRead (a : Byte) : Bool := a.getLsbD 0

/-- "Sets the read bit": slave_address OR 0x01. -/
def setRead (a : Byte) : Byte := a ||| 0x01#8

/-! ## Operand checks of the commands -/

/-- The operands BEGIN_WRITE can carry (R111): a write address and a payload that fits TX_CAP. -/
def writeOperandsOk (c : Config) (a : Byte) (payload : List Byte) : Bool :=
  !isRead a && decide (payload.length ≤ c.txCap)

/-- The lengths BEGIN_READ can ask for (R112): 1..RX_CAP. -/
def readOperandOk (c : Config) (n : Byte) : Bool :=
  decide (1 ≤ n.toNat) && decide (n.toNat ≤ c.rxCap)

/-- The payloads BEGIN_REPLY can carry (R185): 1..TX_CAP bytes. -/
def replyOperandOk (c : Config) (payload : List Byte) : Bool :=
  decide (1 ≤ payload.length) && decide (payload.length ≤ c.txCap)

/-- The engine expects a reply (R185): S_SLAVE_SEND with awaiting_reply = 1. -/
def expectsReply (r : Record) : Bool :=
  decide (r.status = Status.sSlaveSend.code) && r.awaitingReply

/-! ## Events from flags, and the shorthands of R95 and R96 -/

/-- The flags of R95's textual form. -/
inductive EventFlag where
  | BF
  | S
  | P
  | DA
  | RW
  | OV
  | NACK
deriving DecidableEq, Repr

/-- The event of a list of flags and a data byte; a flag left out is 0, and so is bit 7 (R95). -/
def eventOf (flags : List EventFlag) (data : Byte) : Event where
  bf       := flags.contains .BF
  s        := flags.contains .S
  p        := flags.contains .P
  dA       := flags.contains .DA
  rW       := flags.contains .RW
  ov       := flags.contains .OV
  ackstat  := flags.contains .NACK
  reserved := false
  data     := data

def evDone : Event := eventOf [] 0#8
def evAck : Event := eventOf [] 0#8
def evNack : Event := eventOf [.NACK] 0#8
def evRx (d : Byte) : Event := eventOf [.BF] d
def evStart : Event := eventOf [.S] 0#8
def evSaddrW (a : Byte) : Event := eventOf [.BF, .S] a
def evSaddrR (a : Byte) : Event := eventOf [.BF, .S, .RW] a
def evAddrW (a : Byte) : Event := eventOf [.BF] a
def evAddrR (a : Byte) : Event := eventOf [.BF, .RW] a
def evData (d : Byte) : Event := eventOf [.BF, .DA] d
def evStop : Event := eventOf [.P] 0#8
def evStopData (d : Byte) : Event := eventOf [.BF, .DA, .P] d
def evTxDone : Event := eventOf [] 0#8
def evOv (d : Byte) : Event := eventOf [.BF, .DA, .OV] d

/-! ## What a step finds on the ports (R80, R235) -/

/-- The next input of the serial order, with the state in which it has been taken off its port. -/
inductive Fetched where
  /-- No step begins: nothing is scheduled, or the scheduled port does not yet hold a whole input. -/
  | nothing
  /-- An illegal command word (R90), its data phase consumed (R88). -/
  | illegal (why : Illegal) (s : State)
  | instr (i : Instr) (s : State)
deriving DecidableEq, Repr

/-- Takes the next input off the port whose turn it is. -/
def fetch (s : State) : Fetched :=
  match s.schedule with
  | [] => .nothing
  | .command :: later =>
    match decodeCommand s.cfg.role s.commandIn with
    | .instr i rest     => .instr i { s with schedule := later, commandIn := rest }
    | .illegal why rest => .illegal why { s with schedule := later, commandIn := rest }
    | .incomplete       => .nothing
  | .event :: later =>
    match s.eventIn with
    | []        => .nothing
    | v :: rest => .instr (decodeEvent s.cfg.role v) { s with schedule := later, eventIn := rest }

/-- The answer to an illegal command word, whatever its ground: INVALID (R90). -/
def rejectCommand (s : State) (_why : Illegal) : Host.Outcome State Fault Refusal :=
  refuseCommand s .invalid

/-! ## The launch check (R34, R239) -/

/-- The invariants (a) to (e) of R34. -/
def invariantsR34 (c : Config) (r : Record) : Bool :=
  decide (r.receiveIndex.toNat ≤ r.receiveLength.toNat) && decide (r.receiveLength.toNat ≤ c.rxCap) &&
  decide (r.transmitIndex.toNat ≤ r.transmitLength.toNat) && decide (r.transmitLength.toNat ≤ c.txCap) &&
  (decide (c.role = .master) || decide (r.receiveLength.toNat ≤ c.rxCap - 1)) &&
  (decide (c.role = .master) || decide (r.errorCount.toNat < c.errThreshold)) &&
  (!r.awaitingReply || decide (r.status = Status.sSlaveSend.code))

/-- The fault a launch state has before any input is read: R239 (a), then (d). -/
def launchFault (s : State) : Option Fault :=
  if !statusOfRole s.cfg.role s.record.status then some .statusOutsideRole
  else if !invariantsR34 s.cfg s.record then some .invariantBroken
  else none

end Sys2Proof.Machine
end

