-- ==== Sys2Proof/Machine/Master.lean ====
section
/-! DEFINITION. The Master Engine: M.BEGIN_WRITE, M.BEGIN_READ, M.ON_EVENT (40_master.md R110 to R128). -/

namespace Sys2Proof.Machine

/-! ## Procedures -/

/-- StartRead(n) (R113). -/
def startRead (n : Byte) (w : Work) : Work :=
  ((((w.setSlaveAddress (setRead w.record.slaveAddress)).setReceiveLength n).setReceiveIndex 0#8).setStatus
    .mWriteAddr).act .rsen

/-- RepStart: the read pivot if a read length is set (R120), else the end of a write-only transaction (R121). -/
def repStart (w : Work) : Work :=
  if w.record.receiveLength ≠ 0#8 then
    startRead w.record.receiveLength (w.setStatus .idle)
  else
    ((w.act .pen).send .writeOk []).setStatus .idle

/-! ## Commands -/

/-- The effect of an accepted BEGIN_WRITE (R111). -/
def beginWrite (c : Config) (a : Byte) (payload : List Byte) (w : Work) : Except Fault Work := do
  let w ← memWriteFrom c .tx 0 payload w
  .ok ((((((w.setTransmitLength (BitVec.ofNat 8 payload.length)).setTransmitIndex 0#8).setSlaveAddress a).setEventCount
    0#8).setStatus .mWriteAddr).act .sen)

/-- M.BEGIN_WRITE (R111): INVALID, then BUSY, then the write starts. -/
def execMBeginWrite (a : Byte) (payload : List Byte) (s : State) : Host.Outcome State Fault Refusal :=
  if s.cfg.role ≠ .master then refuseCommand s .invalid
  else if !writeOperandsOk s.cfg a payload then refuseCommand s .invalid
  else if s.record.status ≠ Status.idle.code then refuseCommand s .busy
  else finishCommand s .accepted (beginWrite s.cfg a payload (Work.start s))

/-- M.BEGIN_READ (R112): INVALID, then BUSY, then the read starts. -/
def execMBeginRead (n : Byte) (s : State) : Host.Outcome State Fault Refusal :=
  if s.cfg.role ≠ .master then refuseCommand s .invalid
  else if !readOperandOk s.cfg n then refuseCommand s .invalid
  else if s.record.status ≠ Status.idle.code then refuseCommand s .busy
  else finishCommand s .accepted (.ok (startRead n ((Work.start s).setEventCount 0#8)))

/-! ## The branches of M.ON_EVENT -/

/-- M_WRITE_ADDR: send the address byte (R116). -/
def masterWriteAddr (w : Work) : Work :=
  (w.actWr w.record.slaveAddress).setStatus (if isRead w.record.slaveAddress then .mRcvData else .mWriteData)

/-- M_WRITE_DATA, NACK: retry the address phase (R117). -/
def masterRetry (w : Work) : Work :=
  (((w.recordError .busNack).setTransmitIndex 0#8).setStatus .mWriteAddr).act .rsen

/-- M_WRITE_DATA, ACK, bytes pending: send the next payload byte (R118). -/
def masterSendNext (c : Config) (w : Work) : Except Fault Work := do
  let b ← memRead c .tx w.record.transmitIndex.toNat w
  .ok ((w.actWr b).setTransmitIndex (w.record.transmitIndex + 1#8))

/-- M_WRITE_DATA, ACK, buffer exhausted: through REP_START within the step (R119). -/
def masterExhausted (w : Work) : Work := repStart (w.setStatus .mRepStart)

/-- M_WRITE_DATA (R114: R117, R118, R119). -/
def masterWriteData (c : Config) (ev : Event) (w : Work) : Except Fault Work :=
  if ev.ackstat then .ok (masterRetry w)
  else if w.record.transmitIndex.toNat < w.record.transmitLength.toNat then masterSendNext c w
  else if w.record.transmitIndex.toNat = w.record.transmitLength.toNat then .ok (masterExhausted w)
  else .error .invariantBroken

/-- M_RCV_DATA: the read failed (R123), or arm the next byte (R124). -/
def masterRcvData (ev : Event) (w : Work) : Work :=
  if ev.ackstat then ((w.recordError .busNack).send .readFail []).setStatus .idle
  else (w.act .rcen).setStatus .mAck

/-- `MemWrite(RX, R.receive_index, 1, ev.DATA)` and the advance of receive_index (R125, R126). -/
def masterStore (c : Config) (ev : Event) (w : Work) : Except Fault Work := do
  let w ← memWrite c .rx w.record.receiveIndex.toNat ev.data w
  .ok (w.setReceiveIndex (w.record.receiveIndex + 1#8))

/-- M_ACK with more bytes wanted: store and ACK (R125). -/
def masterAckMore (c : Config) (ev : Event) (w : Work) : Except Fault Work := do
  let w ← masterStore c ev w
  .ok (((w.actAckdt false).act .acken).setStatus .mRcvData)

/-- M_ACK with the read complete: store, NACK and report (R126). -/
def masterAckLast (c : Config) (ev : Event) (w : Work) : Except Fault Work := do
  let w ← masterStore c ev w
  let bytes ← memReadFrom c .rx 0 w.record.receiveLength.toNat w
  .ok ((((w.actAckdt true).act .acken).send .readOk bytes).setStatus .mEndWrite)

/-- M_ACK (R114: R125, else R126). -/
def masterAck (c : Config) (ev : Event) (w : Work) : Except Fault Work :=
  if w.record.receiveIndex.toNat + 1 < w.record.receiveLength.toNat then masterAckMore c ev w
  else masterAckLast c ev w

/-- M_END_WRITE: issue the stop (R127). -/
def masterEndWrite (w : Work) : Work := (w.act .pen).setStatus .idle

/-- The case of R114 on the status at entry. -/
def masterCase (c : Config) (ev : Event) (w : Work) : Except Fault Work :=
  match Status.ofCode w.record.status with
  | some .idle       => .ok w
  | some .mWriteAddr => .ok (masterWriteAddr w)
  | some .mWriteData => masterWriteData c ev w
  | some .mRepStart  => .ok (repStart w)
  | some .mRcvData   => .ok (masterRcvData ev w)
  | some .mAck       => masterAck c ev w
  | some .mEndWrite  => .ok (masterEndWrite w)
  | some .sStarted   => .error .statusOutsideRole
  | some .sRcvData   => .error .statusOutsideRole
  | some .sSlaveSend => .error .statusOutsideRole
  | none             => .error .statusOutsideRole

/-- M.ON_EVENT (R114): count the event, then the state's branch. -/
def masterEvent (c : Config) (ev : Event) (w : Work) : Except Fault Work := masterCase c ev w.countEvent

/-- M.ON_EVENT (R114). -/
def execMOnEvent (ev : Event) (s : State) : Host.Outcome State Fault Refusal :=
  if s.cfg.role = .master then finishEvent s ev (masterEvent s.cfg ev (Work.start s))
  else .refused .otherRolesEvent

end Sys2Proof.Machine
end

