-- ==== Sys2Proof/Machine/Dispatcher.lean ====
section
/-! DEFINITION. The Command Dispatcher and StageReply (42_dispatcher.md R200 to R207; 41_slave.md R156). -/

namespace Sys2Proof.Machine

/-- StageReply(Q) (R156): stage Q, prime its first byte, release the clock. R156 asks 1 ≤ len(Q), which both callers check;
an empty Q has no byte Q[0] and faults. -/
def stageReply (c : Config) (q : List Byte) (w : Work) : Except Fault Work :=
  match q with
  | [] => .error (.indexOutOfRange .tx 0)
  | first :: _ => do
    let w ← memWriteFrom c .tx 0 q w
    .ok (((((w.setTransmitLength (BitVec.ofNat 8 q.length)).actWr first).setTransmitIndex 1#8).setAwaitingReply
      false).act .ckpRel)

/-- The notification of tag A, the same whatever follows the first byte (R202). -/
def gatherNotice : List Byte := [0xAA#8, 0x00#8, 0x00#8, 0x00#8, 0x00#8]

/-- The reply of tag B without a well-typed sample (R203). -/
def zeroReply : List Byte := [0x00#8, 0x00#8, 0x00#8, 0x00#8, 0x00#8]

/-- A well-typed sample message: tag SAMPLE with exactly 5 bytes (R203, D43). -/
def wellTypedSample (m : Message) : Bool :=
  decide (m.tag = Tag.sample.code) && decide (m.payload.length = 5)

/-- The reply to tag B, from what try_receive returned (R203). -/
def checkReply : Option Message → List Byte
  | some m => if wellTypedSample m then m.payload else zeroReply
  | none   => zeroReply

/-- Tag A, gather request (R202). -/
def dispatchGather (c : Config) (w : Work) : Except Fault Work := do
  let w ← stageReply c c.ackReply w
  .ok (w.send .notifyGather gatherNotice)

/-- Tag B, gather check (R203). -/
def dispatchCheck (c : Config) (w : Work) : Except Fault Work :=
  stageReply c (checkReply w.tryReceive.1) w.tryReceive.2

/-- Tag C, movement command (R204). -/
def dispatchMove (c : Config) (w : Work) : Except Fault Work := do
  let w ← stageReply c c.ackReply w
  let bytes ← memReadFrom c .rx 0 w.record.receiveLength.toNat w
  .ok (w.send .notifyMove bytes)

/-- The first received byte; none for an empty message (R201, D44). -/
def commandTag (c : Config) (w : Work) : Except Fault (Option Byte) :=
  if w.record.receiveLength = 0#8 then .ok none
  else do
    let b ← memRead c .rx 0 w
    .ok (some b)

/-- The branch of R201 on the tag; any other tag, or none, stages nothing (R206). -/
def dispatchTag (c : Config) (tag : Option Byte) (w : Work) : Except Fault Work :=
  if tag = some tagGather then dispatchGather c w
  else if tag = some tagCheck then dispatchCheck c w
  else if tag = some c.tagMove then dispatchMove c w
  else .ok w

/-- Dispatch() (R201); the message is consumed by it (R207). -/
def dispatch (c : Config) (w : Work) : Except Fault Work := do
  let tag ← commandTag c w
  let w ← dispatchTag c tag w
  .ok (w.setReceiveLength 0#8)

end Sys2Proof.Machine
end

