-- ==== Sys2Proof/Machine/Slave.lean ====
section
/-! DEFINITION. The Slave Engine: S.ON_EVENT and S.BEGIN_REPLY (41_slave.md R150 to R186). -/

namespace Sys2Proof.Machine

/-! ## Procedures -/

/-- Abandon(code) (R151). -/
def abandon (e : ErrorCode) (w : Work) : Work :=
  (((w.setStatus .idle).setReceiveLength 0#8).setAwaitingReply false).recordError e

/-- Append(d) (R152): the new state of the step, and whether the byte was stored. -/
def append (c : Config) (d : Byte) (w : Work) : Except Fault (Bool × Work) :=
  if w.record.receiveLength.toNat + 1 > c.rxCap - 1 then .ok (false, abandon .msgTooLong w)
  else do
    let w ← memWrite c .rx w.record.receiveLength.toNat d w
    .ok (true, w.setReceiveLength (w.record.receiveLength + 1#8))

/-- MessageComplete() (R153): the trailer, then the message, then an empty buffer. -/
def messageComplete (c : Config) (w : Work) : Except Fault Work := do
  let w ← memWrite c .rx w.record.receiveLength.toNat w.record.eventCount w
  let bytes ← memReadFrom c .rx 0 (w.record.receiveLength.toNat + 1) w
  .ok ((w.send .dataRcvd bytes).setReceiveLength 0#8)

/-- DiagnosticCheck() (R154). -/
def diagnosticCheck (c : Config) (w : Work) : Work :=
  if w.recordedError && decide (c.errThreshold ≤ w.record.errorCount.toNat) then
    (w.send .diag [w.record.errorCount, w.record.lastErrorCode, w.record.eventCount]).setErrorCount 0#8
  else w

/-- EnterSend() (R155). -/
def enterSend (w : Work) : Work :=
  (((w.setStatus .sSlaveSend).setTransmitLength 0#8).setTransmitIndex 0#8).setAwaitingReply true

/-! ## The branches of S.ON_EVENT -/

/-- An overrun, in any state (R158). -/
def slaveOverrun (ev : Event) (w : Work) : Work :=
  abandon .overrun ((w.act .ovClr).actIf ev.bf .ckpRel)

/-- The prefix of a start seen in IDLE (R160). -/
def slaveBegin (w : Work) : Work := (w.setEventCount 1#8).setReceiveLength 0#8

/-- IDLE (R160 to R164). -/
def slaveIdle (ev : Event) (w : Work) : Work :=
  if ev.s && !ev.p then
    if !ev.bf then (slaveBegin w).setStatus .sStarted
    else if ev.dA then abandon .noData ((slaveBegin w).act .ckpRel)
    else if ev.rW then enterSend (slaveBegin w)
    else ((slaveBegin w).act .ckpRel).setStatus .sRcvData
  else w.actIf ev.bf .ckpRel

/-- S_STARTED (R165 to R171). -/
def slaveStarted (ev : Event) (w : Work) : Work :=
  if ev.p then
    if !ev.bf then w.setStatus .idle
    else if ev.dA then abandon .noData (w.act .ckpRel)
    else (w.act .ckpRel).setStatus .idle
  else if !ev.bf then w
  else if ev.dA then abandon .noData (w.act .ckpRel)
  else if ev.rW then enterSend w
  else (w.act .ckpRel).setStatus .sRcvData

/-- S_RCV_DATA, stop with a final data byte (R174). -/
def slaveStopData (c : Config) (ev : Event) (w : Work) : Except Fault Work := do
  let (stored, w) ← append c ev.data (w.act .ckpRel)
  if stored then do
    let w ← messageComplete c w
    .ok (w.setStatus .idle)
  else .ok w

/-- S_RCV_DATA (R172 to R178). -/
def slaveRcvData (c : Config) (ev : Event) (w : Work) : Except Fault Work :=
  if ev.p then
    if !ev.bf then do
      let w ← messageComplete c w
      .ok (w.setStatus .idle)
    else if ev.dA then slaveStopData c ev w
    else .ok (abandon .addrWithoutData (w.act .ckpRel))
  else if !ev.bf then .ok w
  else if ev.dA then do
    let (_, w) ← append c ev.data (w.act .ckpRel)
    .ok w
  else if ev.rW then dispatch c (enterSend w)
  else .ok (abandon .addrWithoutData (w.act .ckpRel))

/-- S_SLAVE_SEND: send the next byte (R182). -/
def slaveSendNext (c : Config) (w : Work) : Except Fault Work := do
  let b ← memRead c .tx w.record.transmitIndex.toNat w
  .ok (((w.actWr b).setTransmitIndex (w.record.transmitIndex + 1#8)).act .ckpRel)

/-- S_SLAVE_SEND (R179 to R183). -/
def slaveSend (c : Config) (ev : Event) (w : Work) : Except Fault Work :=
  if ev.p then .ok (((w.actIf ev.bf .ckpRel).setStatus .idle).setAwaitingReply false)
  else if ev.bf then .ok (abandon .addrWithoutData (w.act .ckpRel))
  else if w.record.awaitingReply then .ok w
  else if w.record.transmitIndex.toNat < w.record.transmitLength.toNat then slaveSendNext c w
  else if w.record.transmitIndex.toNat = w.record.transmitLength.toNat then .ok (w.setStatus .idle)
  else .error .invariantBroken

/-- The case of R157 on the status at entry. -/
def slaveCase (c : Config) (ev : Event) (w : Work) : Except Fault Work :=
  match Status.ofCode w.record.status with
  | some .idle       => .ok (slaveIdle ev w)
  | some .sStarted   => .ok (slaveStarted ev w)
  | some .sRcvData   => slaveRcvData c ev w
  | some .sSlaveSend => slaveSend c ev w
  | some .mWriteAddr => .error .statusOutsideRole
  | some .mWriteData => .error .statusOutsideRole
  | some .mRcvData   => .error .statusOutsideRole
  | some .mAck       => .error .statusOutsideRole
  | some .mRepStart  => .error .statusOutsideRole
  | some .mEndWrite  => .error .statusOutsideRole
  | none             => .error .statusOutsideRole

/-- S.ON_EVENT (R157) before its diagnostic check: an overrun suppresses the dispatch and the count. A status of no slave state
faults whatever the flags (R186, R239). -/
def slaveTransition (c : Config) (ev : Event) (w : Work) : Except Fault Work :=
  if !statusOfRole .slave w.record.status then .error .statusOutsideRole
  else if ev.ov then .ok (slaveOverrun ev w)
  else slaveCase c ev w.countEvent

/-- S.ON_EVENT (R157). -/
def slaveEvent (c : Config) (ev : Event) (w : Work) : Except Fault Work := do
  let w ← slaveTransition c ev w
  .ok (diagnosticCheck c w)

/-- S.ON_EVENT (R157). -/
def execSOnEvent (ev : Event) (s : State) : Host.Outcome State Fault Refusal :=
  if s.cfg.role = .slave then finishEvent s ev (slaveEvent s.cfg ev (Work.start s))
  else .refused .otherRolesEvent

/-! ## S.BEGIN_REPLY -/

/-- S.BEGIN_REPLY (R185): INVALID unless a reply of a legal length is expected. -/
def execSBeginReply (payload : List Byte) (s : State) : Host.Outcome State Fault Refusal :=
  if s.cfg.role ≠ .slave then refuseCommand s .invalid
  else if !replyOperandOk s.cfg payload then refuseCommand s .invalid
  else if !expectsReply s.record then refuseCommand s .invalid
  else finishCommand s .accepted (stageReply s.cfg payload (Work.start s))

end Sys2Proof.Machine
end

