-- ==== Sys2Proof/Machine/Dispatch.lean ====
section
/-! DEFINITION. One arm per operation (30_encoding.md R89). -/

namespace Sys2Proof.Machine

def exec (i : Instr) (s : State) : Host.Outcome State Fault Refusal :=
  match i with
  | .mBeginWrite address payload => Sys2Proof.Machine.execMBeginWrite address payload s
  | .mBeginRead length => Sys2Proof.Machine.execMBeginRead length s
  | .sBeginReply payload => Sys2Proof.Machine.execSBeginReply payload s
  | .mOnEvent ev => Sys2Proof.Machine.execMOnEvent ev s
  | .sOnEvent ev => Sys2Proof.Machine.execSOnEvent ev s

end Sys2Proof.Machine
end

