-- ==== Sys2Proof/Machine/Step.lean ====
section
/-! DEFINITION. One step of the block: one command or one event (00_scope.md R13; 30_encoding.md R80; 20_memory.md R65). -/

namespace Sys2Proof.Machine

/-- One step. A configuration outside R8 and R10 has no meaning; a launch state of R239 (a) or (d) faults; with no whole input to
take, the engine is inactive and keeps its state (R237); an illegal command is answered INVALID (R90). -/
def step (s : State) : Host.Outcome State Fault Refusal :=
  if s.cfg.legal then
    match launchFault s with
    | some f => .fault f
    | none =>
      match fetch s with
      | .nothing       => .next s
      | .illegal why t => rejectCommand t why
      | .instr i t     => exec i t
  else
    .refused .illegalConfiguration

/-- s with a table word delivered as its next input. An event word goes on the event port. A command word, its data phase zero
bytes, goes on the command port, and the role becomes the one its OP belongs to (log entry 2). -/
def State.withFetchWord (s : State) (nbits w : Nat) : State :=
  if nbits ≤ 16 then
    { s with
      schedule := .event :: s.schedule
      eventIn  := BitVec.ofNat 16 w :: s.eventIn }
  else
    { s with
      cfg       := { s.cfg with role := roleOfCommandWord (BitVec.ofNat 32 w) }
      schedule  := .command :: s.schedule
      commandIn := zeroFilledCommand (BitVec.ofNat 32 w) ++ s.commandIn }

end Sys2Proof.Machine
end

