-- ==== Sys2Proof/Machine/Peripheral.lean ====
section
/-! DEFINITION. The reference peripheral convention (60_exceptions.md R231): which event a conforming peripheral raises next. The engine's rules do not depend
on it (30_encoding.md R85) and `step` does not use it; it says which input sequences a conforming bus produces (41_slave.md R188; log entry 18). -/

namespace Sys2Proof.Machine

/-! ## Where the bus stands -/

/-- How far a transaction has come on a bus that addresses the engine as a slave (R231). -/
inductive Phase where
  /-- No transaction. -/
  | quiet
  /-- EV_START was delivered; the matched address follows. -/
  | started
  /-- A write address was delivered; the master sends data. -/
  | writing
  /-- A read is under way, no byte of it is on the bus, and the clock has not been released since its address or last acknowledge. -/
  | byteDue
  /-- The clock was released and a byte of the read is on the bus; its acknowledge follows. -/
  | byteSent
  /-- The master NACKed a byte; the stop follows. -/
  | nacked
deriving DecidableEq, Repr

/-- What the convention depends on: the slave's phase, the master's effect under way, and the value ACKSTAT last had. -/
structure Bus where
  phase    : Phase
  underWay : Option Effect
  ackstat  : Bool
deriving DecidableEq, Repr

/-- The bus before the first transaction. -/
def Bus.quiet : Bus where
  phase    := .quiet
  underWay := none
  ackstat  := false

/-! ## The event that may come next -/

/-- Master role: the event may follow the completion of the effect, `lastAckstat` being the ACKSTAT of the event before (R231).
PEN may also raise none. The effects R231 gives no event to have none. -/
def masterConforms (lastAckstat : Bool) (ev : Event) : Effect → Bool
  | .sen     => decide (ev = evDone)
  | .rsen    => decide (ev = evDone)
  | .wr _    => decide (ev = evAck) || decide (ev = evNack)
  | .rcen    => decide (ev = { evRx ev.data with ackstat := lastAckstat })
  | .acken   => decide (ev = { evDone with ackstat := lastAckstat })
  | .pen     => decide (ev = evDone)
  | .ovClr   => false
  | .ackdt _ => false
  | .ckpRel  => false

/-- A start, or a repeated start, merged with its matched address. -/
def startsWithAddress (ev : Event) : Bool := decide (ev = evSaddrW ev.data) || decide (ev = evSaddrR ev.data)

/-- The master's acknowledge of one byte of a read: EV_TXDONE after an ACK, EV{NACK} after a NACK. -/
def acknowledges (ev : Event) : Bool := decide (ev = evTxDone) || decide (ev = evNack)

/-- Slave role: the event may come in the phase (R231). Every byte of a read is acknowledged, whether the engine wrote it or only
released the clock (R180). In `byteDue` an event comes only where nothing is held (`Bus.allows`), after an EV_TXDONE that found no
byte to send (R183): the read may end there, as R188 writes it, or the master may read on (U17).
DESIGN CHOICE (log entry 18): EV_OV d, "a byte arriving before the previous one was consumed", comes only in `writing`, since it is
a data byte from the master (D_A = 1); R231 names no phase for it, nor for EV_STOP, EV_STOP_DATA and the repeated start. -/
def slaveConforms (ph : Phase) (ev : Event) : Bool :=
  match ph with
  | .quiet    => decide (ev = evStart) || startsWithAddress ev
  | .started  => decide (ev = evAddrW ev.data) || decide (ev = evAddrR ev.data) || decide (ev = evStop)
  | .writing  => decide (ev = evData ev.data) || decide (ev = evStop) || decide (ev = evStopData ev.data) ||
      decide (ev = evOv ev.data) || startsWithAddress ev
  | .byteDue  => acknowledges ev || decide (ev = evStop) || startsWithAddress ev
  | .byteSent => acknowledges ev || startsWithAddress ev
  | .nacked   => decide (ev = evStop)

/-- The event may be the next that a conforming peripheral raises. In the slave role none comes while the clock is held (R38). -/
def Bus.allows (b : Bus) (s : State) (ev : Event) : Bool :=
  match s.cfg.role with
  | .master => b.underWay.any (masterConforms b.ackstat ev)
  | .slave  => !s.clockHeld && slaveConforms b.phase ev

/-! ## What an event and an action word change -/

/-- The phase after an event. -/
def Phase.afterEvent (ph : Phase) (ev : Event) : Phase :=
  if ev.ov then ph
  else if ev.p then .quiet
  else if ev.bf then (if ev.dA then ph else if ev.rW then .byteDue else .writing)
  else if ev.s then .started
  else if ev.ackstat then .nacked
  else if ph = .byteSent then .byteDue
  else ph

/-- The bus after an event. -/
def Bus.afterEvent (b : Bus) (ev : Event) : Bus where
  phase    := b.phase.afterEvent ev
  underWay := none
  ackstat  := ev.ackstat

/-- The effects whose completion R231 gives an event. -/
def Effect.raisesEvent : Effect → Bool
  | .sen     => true
  | .rsen    => true
  | .wr _    => true
  | .rcen    => true
  | .acken   => true
  | .pen     => true
  | .ovClr   => false
  | .ackdt _ => false
  | .ckpRel  => false

/-- The bus after an action word. In a read a released clock puts a byte on the bus, the one written in this step (R182, R156) or
what the data register holds (R180). -/
def Bus.afterWord (b : Bus) (v : ActionWord) : Bus where
  phase    := if b.phase = .byteDue ∧ (Actions.ofWord v).ckpRel = true then .byteSent else b.phase
  underWay := match ((Actions.ofWord v).effects.filter Effect.raisesEvent).getLast? with
    | some e => some e
    | none   => b.underWay
  ackstat  := b.ackstat

end Sys2Proof.Machine
end

