-- ==== Sys2Proof/Machine/Text.lean ====
section
/-! DEFINITION. The textual spellings of commands, events and actions (30_encoding.md R94, R95, R97). Spellings only: no rule and no step reads them. -/

namespace Sys2Proof.Machine

def hexDigits : List String :=
  ["0", "1", "2", "3", "4", "5", "6", "7", "8", "9", "A", "B", "C", "D", "E", "F"]

/-- A number's lowest `n` hexadecimal digits. -/
def hexOf : Nat → Nat → String
  | 0, _     => ""
  | n + 1, v => hexOf n (v / 16) ++ hexDigits.getD (v % 16) ""

/-- A byte as 0xNN (R11). -/
def byteText (b : Byte) : String := "0x" ++ hexOf 2 b.toNat

/-- [b0, b1, ...] (R11, R94). -/
def bytesText (bs : List Byte) : String := "[" ++ String.intercalate ", " (bs.map byteText) ++ "]"

/-- The flags of an event in the order of R95's list. -/
def eventFlags (e : Event) : List String :=
  (if e.bf then ["BF"] else []) ++ (if e.s then ["S"] else []) ++ (if e.p then ["P"] else []) ++
  (if e.dA then ["DA"] else []) ++ (if e.rW then ["RW"] else []) ++ (if e.ov then ["OV"] else []) ++
  (if e.ackstat then ["NACK"] else [])

/-- The opening and the closing brace of R95's spelling. -/
def braceOpen : String := String.singleton (Char.ofNat 123)
def braceClose : String := String.singleton (Char.ofNat 125)

/-- EV, then the flags and DATA in braces (R95). DATA defaults to 0, so a zero byte is left out. -/
def eventText (e : Event) : String :=
  let flags := String.intercalate ", " (eventFlags e)
  let data := if e.data = 0#8 then "" else "DATA=" ++ byteText e.data
  let sep := if flags = "" ∨ data = "" then "" else "; "
  "EV" ++ braceOpen ++ flags ++ sep ++ data ++ braceClose

/-- The spelling of an operation (R94, R95). -/
def instrText : Instr → String
  | .mBeginWrite a payload => "BEGIN_WRITE " ++ byteText a ++ ", " ++ bytesText payload
  | .mBeginRead n          => "BEGIN_READ " ++ toString n.toNat
  | .sBeginReply payload   => "BEGIN_REPLY " ++ bytesText payload
  | .mOnEvent e            => eventText e
  | .sOnEvent e            => eventText e

/-- CMD 0xWWWWWWWW [bytes]: any command word, reserved ones included (R94). -/
def rawCommandText (w : CommandWord) (bytes : List Byte) : String :=
  "CMD 0x" ++ hexOf 8 w.toNat ++ " " ++ bytesText bytes

/-- What a raw command puts on the command port (R88, R94). -/
def rawCommandBytes (w : CommandWord) (bytes : List Byte) : List Byte := bytesOfCommandWord w ++ bytes

/-- The names of the asserted bits of an action word in the order of R87 (R97). -/
def actionNames (a : Actions) : List String :=
  (if a.ovClr then ["OV_CLR"] else []) ++
  (match a.wr with
    | some v => ["WR(" ++ byteText v ++ ")"]
    | none   => []) ++
  (if a.ackdt then ["ACKDT=1"] else []) ++
  (if a.acken then ["ACKEN"] else []) ++ (if a.rcen then ["RCEN"] else []) ++ (if a.sen then ["SEN"] else []) ++
  (if a.rsen then ["RSEN"] else []) ++ (if a.pen then ["PEN"] else []) ++
  (if a.ckpRel then ["CKP_REL"] else [])

/-- A step's action word as a trace spells it; the word 0 is "-" (R97). -/
def actionText (v : ActionWord) : String :=
  if v = 0#24 then "-" else String.intercalate ", " (actionNames (Actions.ofWord v))

end Sys2Proof.Machine
end

