-- ==== Sys2Proof/Safety.lean ====
section
/-! DEFINITION. The terms the claims are stated in: the invariant of the machine, reachable states, the effect of a step, runs of operations, and the bytes
a run puts on the bus. -/

namespace Sys2Proof.Machine

/-- The next state of an outcome, if it is one. -/
def nextOf : Host.Outcome State Fault Refusal → Option State
  | .next t    => some t
  | .fault _   => none
  | .refused _ => none

/-! ## The invariant -/

/-- The status names a state of the role, and not M_REP_START, which is never held between steps (R21). -/
abbrev StatusHeld (c : Config) (r : Record) : Prop :=
  statusOfRole c.role r.status = true ∧ r.status ≠ Status.mRepStart.code

/-- Both buffers are in canonical form and list no index outside their capacity (R24, R27, R60). -/
abbrev BuffersCanonical (c : Config) (r : Record) : Prop :=
  Memory.wf r.rxb = true ∧ Memory.wf r.txb = true ∧
  Memory.within c.rxCap r.rxb = true ∧ Memory.within c.txCap r.txb = true

/-- How many bytes of RXB have been received: receive_index in the master role (R26), receive_length in the slave role (R25). -/
def receivedExtent (c : Config) (r : Record) : Nat :=
  match c.role with
  | .master => r.receiveIndex.toNat
  | .slave  => r.receiveLength.toNat

/-- Every byte the rules may read has been written (R62). -/
abbrev BuffersWritten (c : Config) (r : Record) : Prop :=
  (∀ i < r.transmitLength.toNat, (Memory.read r.txb i).isSome = true) ∧
  (∀ i < receivedExtent c r, (Memory.read r.rxb i).isSome = true)

/-- A read under way still wants a byte (R113, R124, R125), and a write under way has a write address (R111, R116). -/
abbrev ReadWanted (r : Record) : Prop :=
  (r.status = Status.mRcvData.code ∨ r.status = Status.mAck.code → r.receiveIndex.toNat < r.receiveLength.toNat) ∧
  (r.status = Status.mWriteAddr.code → isRead r.slaveAddress = true → r.receiveIndex.toNat < r.receiveLength.toNat) ∧
  (r.status = Status.mWriteData.code → isRead r.slaveAddress = false)

/-- What the slave role never writes keeps its reset value (R23, R26). -/
abbrev SlaveConstants (c : Config) (r : Record) : Prop :=
  c.role = .slave → r.slaveAddress = c.ownAddr ∧ r.receiveIndex = 0#8

/-- last_error_code holds NONE or a code the role records: BUS_NACK in the master role, 0x01..0x04 in the slave role (R92, R221). -/
def errorCodeOfRole (c : Config) (r : Record) : Bool :=
  match c.role with
  | .master => decide (r.lastErrorCode = 0x00#8) || decide (r.lastErrorCode = 0x05#8)
  | .slave  => decide (r.lastErrorCode.toNat ≤ 4)

/-- What holds of the Record between steps: R34, and what the rules cited above say. -/
abbrev Record.Inv (c : Config) (r : Record) : Prop :=
  StatusHeld c r ∧ invariantsR34 c r = true ∧ BuffersCanonical c r ∧ BuffersWritten c r ∧ ReadWanted r ∧
  SlaveConstants c r ∧ errorCodeOfRole c r = true

/-- The invariant of the machine: a legal configuration and a Record as it stands between steps. -/
abbrev State.Inv (s : State) : Prop := s.cfg.legal = true ∧ Record.Inv s.cfg s.record

/-- The states of a run from reset: steps, and between them anything the environment may deliver on the input ports (R235, R238). -/
inductive Reachable : State → Prop where
  | reset (c : Config) : c.legal = true → Reachable (State.resetOf c)
  | step (s t : State) : Reachable s → Sys2Proof.Machine.step s = .next t → Reachable t
  | deliver (s : State) (schedule : List Port) (commandIn : List Byte) (eventIn : List EventWord) (sampleIn : List Message) :
      Reachable s →
      Reachable { s with schedule := schedule, commandIn := commandIn, eventIn := eventIn, sampleIn := sampleIn }

/-! ## The clock hold (R38, R184) -/

/-- Why the clock may be held between steps (R184, log entry 7): only in the slave role, and then a reply is awaited or an overrun
was recorded and the hold stays (U7). -/
abbrev State.HoldAccounted (s : State) : Prop :=
  s.clockHeld = true → s.cfg.role = .slave ∧ (s.record.awaitingReply = true ∨ s.record.lastErrorCode = ErrorCode.overrun.code)

/-- The runs from reset whose events follow the reference convention of R231: the host's commands at any time, and events that the
bus allows. -/
inductive Conforming : Bus → State → Prop where
  | reset (c : Config) : c.legal = true → Conforming Bus.quiet (State.resetOf c)
  | command (b : Bus) (i : Instr) (s t : State) (v : ActionWord) :
      Conforming b s → i.isCommand = true → exec i s = .next t → t.actionOut = s.actionOut ++ [v] →
      Conforming (b.afterWord v) t
  | event (b : Bus) (ev : Event) (i : Instr) (s t : State) (v : ActionWord) :
      Conforming b s → b.allows s ev = true → i = .mOnEvent ev ∨ i = .sOnEvent ev →
      exec i s = .next t → t.actionOut = s.actionOut ++ [v] →
      Conforming ((b.afterEvent ev).afterWord v) t
  | deliver (b : Bus) (s : State) (sampleIn : List Message) :
      Conforming b s → Conforming b { s with sampleIn := sampleIn }

/-! ## The effect of one operation -/

/-- t is s after a step that leaves the Record given, drives the action outputs given, sends the messages given and returns the
result codes given, and touches no configuration register and no input port. (The clock hold is the peripheral's: what a
step does to it is said once for all of them, in ClockReleaseDiscipline.) -/
def StepEffect (s t : State) (record : Record) (actions : Actions) (messages : List Message) (results : List ResultCode) : Prop :=
  t.cfg = s.cfg ∧ t.schedule = s.schedule ∧ t.commandIn = s.commandIn ∧ t.eventIn = s.eventIn ∧ t.sampleIn = s.sampleIn ∧
  t.record = record ∧
  t.actionOut = s.actionOut ++ [actions.word] ∧
  t.messageOut = s.messageOut ++ messages ∧
  t.resultOut = s.resultOut ++ results

/-- A message of the tag and payload given. -/
def msg (t : Tag) (payload : List Byte) : Message := { tag := t.code, payload := payload }

/-- The tally after one more error (R222). -/
def tallyAfter (s : State) : Byte := s.record.errorCount + 1#8

/-- The Record after a slave step that abandons its transaction with the error given and event_count as given, the tally cleared
if it was reported (R151, R154, R222). -/
def abandonedRecord (s : State) (e : ErrorCode) (eventCount : Byte) : Record :=
  { s.record with
    status        := Status.idle.code
    receiveLength := 0#8
    awaitingReply := false
    eventCount    := eventCount
    lastErrorCode := e.code
    errorCount    := if s.cfg.errThreshold ≤ (tallyAfter s).toNat then 0#8 else tallyAfter s }

/-- The diagnostic of such a step: one DIAG if the tally reached the threshold (R154). -/
def diagnosticOf (s : State) (e : ErrorCode) (eventCount : Byte) : List Message :=
  if s.cfg.errThreshold ≤ (tallyAfter s).toNat then [msg .diag [tallyAfter s, e.code, eventCount]] else []

/-- The event_count of a step that counts its event (R114, R159). -/
def countAfter (s : State) : Byte := s.record.eventCount + 1#8

/-- The step of R87's list an effect belongs to. -/
def Effect.rank : Effect → Nat
  | .ovClr   => 1
  | .wr _    => 2
  | .ackdt _ => 3
  | .acken   => 4
  | .rcen    => 4
  | .sen     => 4
  | .rsen    => 4
  | .pen     => 4
  | .ckpRel  => 5

/-! ## Runs of operations, and what they put on the bus -/

/-- The operations one after the other, stopping at the first fault or refusal. -/
def runInstrs : List Instr → State → Host.Outcome State Fault Refusal
  | [], s => .next s
  | i :: is, s =>
    match exec i s with
    | .next t    => runInstrs is t
    | .fault f   => .fault f
    | .refused r => .refused r

/-- The bytes a sequence of action words writes to the data register, in order (R86). -/
def writtenBytes (words : List ActionWord) : List Byte := words.filterMap fun v => (Actions.ofWord v).wr

end Sys2Proof.Machine
end

