-- ==== Sys2Proof/Certificates/Slice0/Obligations.lean ====
section
/-! DEFINITION. The statements for the provers. -/

open Sys2Proof Sys2Proof.Machine

/-! ## Encoding -/

/-- R81, R84, R88, R89: decoding what an instruction encodes to gives the instruction back, with every operand at every value its
encoding admits, whatever stands behind it on the command port. (The order of the word's bytes on the port is log entry 5's choice.) -/
def Obligations.DecodingAnEncodingGivesTheInstruction : Prop :=
  ∀ (i : Instr) (rest : List Byte), i.wf = true →
    decode i.role (encode i) = .instr i [] ∧
    (∀ bytes, encode i = .command bytes → decodeCommand i.role (bytes ++ rest) = .instr i rest)

/-- R81, R84, R89, R90: what decodes to an instruction is that instruction's one encoding, in the instruction's own role; every
event word is legal. (The order of the word's bytes on the port is log entry 5's choice.) -/
def Obligations.EncodingsAreUnique : Prop :=
  (∀ (role : Role) (bytes rest : List Byte) (i : Instr), decodeCommand role bytes = .instr i rest →
    i.wf = true ∧ i.role = role ∧ ∃ own, encode i = .command own ∧ bytes = own ++ rest) ∧
  (∀ (role : Role) (w : EventWord), ∃ i, decode role (.event w) = .instr i [] ∧ i.role = role ∧ encode i = .event w)

/-- 95_test_vectors.md §2.1 (E-1 to E-3, E-8 to E-11, E-13): words written out from R81 and R84 decode to what they stand for, their
bytes in the port order of log entry 5; and the code tables of R21 (status), R92 (errors), R93 (tags) and R82 (results, whose width
of 4 bits is log entry 13's choice). -/
def Obligations.SpecWordsDecode : Prop :=
  decodeCommand .master (bytesOfCommandWord 0x00029001#32 ++ [0x10#8, 0x20#8]) =
    .instr (.mBeginWrite 0x90#8 [0x10#8, 0x20#8]) [] ∧
  decodeCommand .master (bytesOfCommandWord 0x00020002#32) = .instr (.mBeginRead 2#8) [] ∧
  decodeCommand .slave (bytesOfCommandWord 0x00020003#32 ++ [0x07#8, 0x08#8]) =
    .instr (.sBeginReply [0x07#8, 0x08#8]) [] ∧
  decodeEvent .slave 0x9003#16 = .sOnEvent (evSaddrW 0x90#8) ∧
  decodeEvent .slave 0x9113#16 = .sOnEvent (evSaddrR 0x91#8) ∧
  decodeEvent .slave 0x420D#16 = .sOnEvent (evStopData 0x42#8) ∧
  decodeEvent .slave 0x4429#16 = .sOnEvent (evOv 0x44#8) ∧
  decodeEvent .master 0x0040#16 = .mOnEvent evNack ∧
  (Status.idle.code = 0x0#4 ∧ Status.mWriteAddr.code = 0x1#4 ∧ Status.mWriteData.code = 0x2#4 ∧ Status.mRcvData.code = 0x3#4 ∧
    Status.mAck.code = 0x4#4 ∧ Status.mRepStart.code = 0x5#4 ∧ Status.mEndWrite.code = 0x6#4 ∧
    Status.sStarted.code = 0x9#4 ∧ Status.sRcvData.code = 0xA#4 ∧ Status.sSlaveSend.code = 0xB#4) ∧
  (ErrorCode.none.code = 0x00#8 ∧ ErrorCode.addrWithoutData.code = 0x01#8 ∧ ErrorCode.noData.code = 0x02#8 ∧
    ErrorCode.overrun.code = 0x03#8 ∧ ErrorCode.msgTooLong.code = 0x04#8 ∧ ErrorCode.busNack.code = 0x05#8) ∧
  (Tag.writeOk.code = 0x01#8 ∧ Tag.writeFail.code = 0x02#8 ∧ Tag.readOk.code = 0x03#8 ∧ Tag.readFail.code = 0x04#8 ∧
    Tag.dataRcvd.code = 0x05#8 ∧ Tag.diag.code = 0x06#8 ∧ Tag.notifyGather.code = 0x07#8 ∧ Tag.notifyMove.code = 0x08#8 ∧
    Tag.sample.code = 0x09#8) ∧
  (ResultCode.accepted.code.toNat = 0 ∧ ResultCode.busy.code.toNat = 1 ∧ ResultCode.invalid.code.toNat = 2)

/-- R88, R98: a command takes four bytes of word and then N more for OP 0x1 and 0x3, none for any other OP, legal or not; until
all of them stand on the port there is no command (log entry 4). -/
def Obligations.CommandLengthFollowsFromTheWord : Prop :=
  ∀ (role : Role) (w : CommandWord) (tail : List Byte),
    let op := (w.extractLsb' 0 4).toNat
    let n := if op = 1 ∨ op = 3 then (w.extractLsb' 16 8).toNat else 0
    (tail.length < n → decodeCommand role (bytesOfCommandWord w ++ tail) = .incomplete) ∧
    (n ≤ tail.length →
      (∃ i, decodeCommand role (bytesOfCommandWord w ++ tail) = .instr i (tail.drop n)) ∨
      (∃ why, decodeCommand role (bytesOfCommandWord w ++ tail) = .illegal why (tail.drop n)))

/-- R90: each of the reserved and illegal command encodings returns INVALID and changes no state, emits no action and sends no
message; its data phase is consumed (R88). (`bytesOfCommandWord` is the port order of log entry 5; the statement holds for any.) -/
def Obligations.IllegalCommandsAreInvalid : Prop :=
  ∀ (s : State) (w : CommandWord) (data rest : List Byte) (later : List Port),
    let op := (w.extractLsb' 0 4).toNat
    s.cfg.legal = true → launchFault s = none →
    s.schedule = .command :: later → s.commandIn = bytesOfCommandWord w ++ data ++ rest →
    data.length = dataPhaseLength w →
    (op = 0 ∨ 4 ≤ op ∨
      ((op = 1 ∨ op = 2) ∧ s.cfg.role = .slave) ∨ (op = 3 ∧ s.cfg.role = .master) ∨
      w.extractLsb' 4 4 ≠ 0#4 ∨ w.extractLsb' 24 8 ≠ 0#8 ∨
      (op ≠ 1 ∧ w.extractLsb' 8 8 ≠ 0#8)) →
    step s = .next { s with
      schedule  := later
      commandIn := rest
      actionOut := s.actionOut ++ [0#24]
      resultOut := s.resultOut ++ [.invalid] }

/-! ## The step -/

/-- R13, R80, R89: a step is one command or one event. It takes the input off its port and runs the instruction it decodes to, in
a legal configuration and a launch state that meets R34 (log entry 8). -/
def Obligations.StepRunsTheDecodedInstruction : Prop :=
  ∀ s : State, s.cfg.legal = true → launchFault s = none →
    (∀ later i rest, s.schedule = .command :: later → decodeCommand s.cfg.role s.commandIn = .instr i rest →
      step s = exec i { s with schedule := later, commandIn := rest }) ∧
    (∀ later w rest, s.schedule = .event :: later → s.eventIn = w :: rest →
      step s = exec (decodeEvent s.cfg.role w) { s with schedule := later, eventIn := rest })

/-- R34, R237, R239: before an instruction runs. A launch state whose status is none of the role's, or that breaks R34, faults; with
no whole input to take the engine keeps its state (the model's reading of R237, log entry 4). -/
def Obligations.StepWithoutAnInstruction : Prop :=
  ∀ s : State, s.cfg.legal = true →
    (statusOfRole s.cfg.role s.record.status = false → step s = .fault .statusOutsideRole) ∧
    (statusOfRole s.cfg.role s.record.status = true →
      s.record.receiveLength.toNat < s.record.receiveIndex.toNat ∨ s.cfg.rxCap < s.record.receiveLength.toNat ∨
      s.record.transmitLength.toNat < s.record.transmitIndex.toNat ∨ s.cfg.txCap < s.record.transmitLength.toNat ∨
      (s.cfg.role = .slave ∧ s.cfg.rxCap - 1 < s.record.receiveLength.toNat) ∨
      (s.cfg.role = .slave ∧ s.cfg.errThreshold ≤ s.record.errorCount.toNat) ∨
      (s.record.awaitingReply = true ∧ s.record.status ≠ Status.sSlaveSend.code) →
      step s = .fault .invariantBroken) ∧
    (launchFault s = none →
      s.schedule = [] ∨
      (∃ later, s.schedule = .command :: later ∧ decodeCommand s.cfg.role s.commandIn = .incomplete) ∨
      (∃ later, s.schedule = .event :: later ∧ s.eventIn = []) →
      step s = .next s)

/-- R10: a configuration that violates its constraints is refused; the model has no meaning for it. (The wider bounds of R8 are log
entry 9's.) -/
def Obligations.IllegalConfigurationsAreRefused : Prop :=
  ∀ s : State,
    s.cfg.rxCap < 2 ∨ s.cfg.txCap < 5 ∨ s.cfg.errThreshold < 1 ∨ s.cfg.tagMove = 0xAA#8 ∨ s.cfg.tagMove = 0xAB#8 →
    step s = .refused .illegalConfiguration

/-! ## Reset -/

/-- R41, R251: the values reset leaves, the absent buffer bytes, and the empty trace; R253: no clock held (the bit is log entry
7's). -/
def Obligations.StateAfterReset : Prop :=
  ∀ c : Config,
    (State.resetOf c).record.status = 0x0#4 ∧
    (c.role = .master → (State.resetOf c).record.slaveAddress = 0x00#8) ∧
    (c.role = .slave → (State.resetOf c).record.slaveAddress = c.ownAddr) ∧
    (∀ i, Memory.read (State.resetOf c).record.rxb i = none ∧ Memory.read (State.resetOf c).record.txb i = none) ∧
    (State.resetOf c).record.receiveLength = 0#8 ∧ (State.resetOf c).record.receiveIndex = 0#8 ∧
    (State.resetOf c).record.transmitLength = 0#8 ∧ (State.resetOf c).record.transmitIndex = 0#8 ∧
    (State.resetOf c).record.eventCount = 0#8 ∧ (State.resetOf c).record.errorCount = 0#8 ∧
    (State.resetOf c).record.lastErrorCode = 0x00#8 ∧ (State.resetOf c).record.awaitingReply = false ∧
    (State.resetOf c).messageOut = [] ∧ (State.resetOf c).actionOut = [] ∧ (State.resetOf c).clockHeld = false

/-- R34, R41: reset meets the machine's invariant in every legal configuration, the one of `State.reset` among them; and no hold
stands unaccounted for (R184, R253). -/
def Obligations.ResetMeetsTheInvariant : Prop :=
  (∀ c : Config, c.legal = true → (State.resetOf c).Inv ∧ (State.resetOf c).HoldAccounted) ∧ State.reset.Inv

/-! ## The machine as a whole -/

/-- R34, R21, R23, R26, R62, R92: every step keeps the invariant; R184: and, whatever the events, it leaves the clock held only while
a reply is awaited or after an overrun (U7), as log entry 7 reads the hold. -/
def Obligations.EveryStepKeepsTheInvariant : Prop :=
  (∀ s t : State, s.Inv → step s = .next t → t.Inv) ∧
  (∀ s t : State, s.HoldAccounted → step s = .next t → t.HoldAccounted)

/-- R61, R62, R85, R239: from a state that meets the invariant no step faults and none is refused, whatever stands on the ports. -/
def Obligations.NoStepStopsUnderTheInvariant : Prop :=
  ∀ s : State, s.Inv → ∃ t, step s = .next t

/-- R239: none of the model faults is reachable from reset by any input sequence, in any legal configuration. -/
def Obligations.NoFaultIsReachable : Prop :=
  ∀ s : State, Reachable s → ∃ t, step s = .next t ∧ Reachable t

/-- R61: MemRead returns byte i, MemWrite sets byte i and changes no other byte of either space; out of range both fault. -/
def Obligations.BufferAccess : Prop :=
  ∀ (c : Config) (sp other : Space) (i : Nat) (v : Byte) (w : Work),
    (i < capacity c sp →
      (∀ b, Memory.read (w.record.space sp) i = some b → memRead c sp i w = .ok b) ∧
      (∃ w', memWrite c sp i v w = .ok w' ∧
        (∀ j, Memory.read (w'.record.space sp) j = if j = i then some v else Memory.read (w.record.space sp) j) ∧
        (other ≠ sp → w'.record.space other = w.record.space other) ∧
        (Memory.wf (w.record.space sp) = true → Memory.wf (w'.record.space sp) = true))) ∧
    (capacity c sp ≤ i →
      memRead c sp i w = .error (.indexOutOfRange sp i) ∧ memWrite c sp i v w = .error (.indexOutOfRange sp i))

/-- R62: a read of a byte no step has written faults; it does not return zero. -/
def Obligations.UnwrittenBytesFault : Prop :=
  ∀ (c : Config) (sp : Space) (i : Nat) (w : Work),
    i < capacity c sp → Memory.read (w.record.space sp) i = none → memRead c sp i w = .error (.readUnwritten sp i)

/-- R86: the action word's bits; and the peripheral reads back from the word what the engine asserted. -/
def Obligations.ActionWordLayout : Prop :=
  ∀ a : Actions,
    a.word.getLsbD 0 = a.sen ∧ a.word.getLsbD 1 = a.rsen ∧ a.word.getLsbD 2 = a.pen ∧ a.word.getLsbD 3 = a.rcen ∧
    a.word.getLsbD 4 = a.acken ∧ a.word.getLsbD 5 = a.ackdt ∧ a.word.getLsbD 6 = a.ckpRel ∧ a.word.getLsbD 7 = a.ovClr ∧
    a.word.getLsbD 8 = a.wr.isSome ∧ a.word.extractLsb' 9 7 = 0#7 ∧ a.word.extractLsb' 16 8 = a.wr.getD 0#8 ∧
    Actions.ofWord a.word = a

/-- R37, R87: one word is applied in the order OV_CLR, WR, ACKDT, strobe, CKP_REL, each asserted output once and no other (ACKDT
only with ACKEN, log entry 15); no operation asserts two of the step-4 strobes, and none asserts CKP_REL in the master role. -/
def Obligations.ActionsFollowThePortOrder : Prop :=
  (∀ a : Actions,
    (a.effects.map Effect.rank).Pairwise (· ≤ ·) ∧ a.effects.Nodup ∧
    (.ovClr ∈ a.effects ↔ a.ovClr = true) ∧ (∀ v, .wr v ∈ a.effects ↔ a.wr = some v) ∧
    (∀ b, .ackdt b ∈ a.effects ↔ a.acken = true ∧ a.ackdt = b) ∧
    (.acken ∈ a.effects ↔ a.acken = true) ∧ (.rcen ∈ a.effects ↔ a.rcen = true) ∧ (.sen ∈ a.effects ↔ a.sen = true) ∧
    (.rsen ∈ a.effects ↔ a.rsen = true) ∧ (.pen ∈ a.effects ↔ a.pen = true) ∧ (.ckpRel ∈ a.effects ↔ a.ckpRel = true)) ∧
  (∀ (i : Instr) (s t : State), exec i s = .next t →
    ∃ a : Actions, t.actionOut = s.actionOut ++ [a.word] ∧ a.busStrobes ≤ 1 ∧
      (s.cfg.role = .master → a.ckpRel = false) ∧ (a.ackdt = true → a.acken = true))

/-- R228, R70, R80, R225: a step sends at most one message; a step that takes an input drives exactly one action word and returns
at most one result code. -/
def Obligations.OneMessageAtMostPerStep : Prop :=
  ∀ s t : State, step s = .next t →
    ∃ (actions : List ActionWord) (messages : List Message) (results : List ResultCode),
      t.actionOut = s.actionOut ++ actions ∧ t.messageOut = s.messageOut ++ messages ∧ t.resultOut = s.resultOut ++ results ∧
      messages.length ≤ 1 ∧ results.length ≤ 1 ∧ (fetch s ≠ .nothing → actions.length = 1)

/-- R35, R42, R23, R26, R33, R120: no step writes a configuration register; the slave role never writes slave_address or
receive_index; the master role never writes awaiting_reply, and there only BEGIN_READ changes receive_length. -/
def Obligations.FieldsThatNoStepWrites : Prop :=
  (∀ s t : State, step s = .next t →
    t.cfg = s.cfg ∧
    (s.cfg.role = .slave → t.record.slaveAddress = s.record.slaveAddress ∧ t.record.receiveIndex = s.record.receiveIndex) ∧
    (s.cfg.role = .master → t.record.awaitingReply = s.record.awaitingReply)) ∧
  (∀ (i : Instr) (s t : State), exec i s = .next t → s.cfg.role = .master → (∀ n, i ≠ .mBeginRead n) →
    t.record.receiveLength = s.record.receiveLength)

/-! ## Commands -/

/-- R111: M.BEGIN_WRITE, its checks in order and its effect. -/
def Obligations.BeginWrite : Prop :=
  ∀ (a : Byte) (payload : List Byte) (s : State), s.cfg.role = .master →
    (a.getLsbD 0 = true ∨ s.cfg.txCap < payload.length →
      ∃ t, exec (.mBeginWrite a payload) s = .next t ∧ StepEffect s t s.record {} [] [.invalid]) ∧
    (a.getLsbD 0 = false → payload.length ≤ s.cfg.txCap → s.record.status ≠ Status.idle.code →
      ∃ t, exec (.mBeginWrite a payload) s = .next t ∧ StepEffect s t s.record {} [] [.busy]) ∧
    (a.getLsbD 0 = false → payload.length ≤ s.cfg.txCap → s.record.status = Status.idle.code →
      ∃ t, exec (.mBeginWrite a payload) s = .next t ∧
        StepEffect s t
          { s.record with
            txb            := t.record.txb
            transmitLength := BitVec.ofNat 8 payload.length
            transmitIndex  := 0#8
            slaveAddress   := a
            eventCount     := 0#8
            status         := Status.mWriteAddr.code }
          { sen := true } [] [.accepted] ∧
        (∀ i, Memory.read t.record.txb i =
          if i < payload.length then payload[i]? else Memory.read s.record.txb i))

/-- R112, R113: M.BEGIN_READ, its checks in order and StartRead. -/
def Obligations.BeginRead : Prop :=
  ∀ (n : Byte) (s : State), s.cfg.role = .master →
    (n = 0#8 ∨ s.cfg.rxCap < n.toNat →
      ∃ t, exec (.mBeginRead n) s = .next t ∧ StepEffect s t s.record {} [] [.invalid]) ∧
    (n ≠ 0#8 → n.toNat ≤ s.cfg.rxCap → s.record.status ≠ Status.idle.code →
      ∃ t, exec (.mBeginRead n) s = .next t ∧ StepEffect s t s.record {} [] [.busy]) ∧
    (n ≠ 0#8 → n.toNat ≤ s.cfg.rxCap → s.record.status = Status.idle.code →
      ∃ t, exec (.mBeginRead n) s = .next t ∧
        StepEffect s t
          { s.record with
            eventCount    := 0#8
            slaveAddress  := s.record.slaveAddress ||| 0x01#8
            receiveLength := n
            receiveIndex  := 0#8
            status        := Status.mWriteAddr.code }
          { rsen := true } [] [.accepted])

/-- R185, R156: S.BEGIN_REPLY, its checks and StageReply. -/
def Obligations.BeginReply : Prop :=
  ∀ (payload : List Byte) (s : State), s.cfg.role = .slave →
    (payload.length = 0 ∨ s.cfg.txCap < payload.length ∨
        s.record.status ≠ Status.sSlaveSend.code ∨ s.record.awaitingReply = false →
      ∃ t, exec (.sBeginReply payload) s = .next t ∧ StepEffect s t s.record {} [] [.invalid]) ∧
    (1 ≤ payload.length → payload.length ≤ s.cfg.txCap →
      s.record.status = Status.sSlaveSend.code → s.record.awaitingReply = true →
      ∃ t, exec (.sBeginReply payload) s = .next t ∧
        StepEffect s t
          { s.record with
            txb            := t.record.txb
            transmitLength := BitVec.ofNat 8 payload.length
            transmitIndex  := 1#8
            awaitingReply  := false }
          { wr := payload[0]?, ckpRel := true } [] [.accepted] ∧
        (∀ i, Memory.read t.record.txb i =
          if i < payload.length then payload[i]? else Memory.read s.record.txb i))

/-- R111, R112, R185, R42: what a command leaves alone. Only BEGIN_WRITE and BEGIN_REPLY store, and only at TXB[0..N-1]. -/
def Obligations.CommandFrame : Prop :=
  ∀ (i : Instr) (s t : State), i.isCommand = true → exec i s = .next t →
    t.cfg = s.cfg ∧ t.schedule = s.schedule ∧ t.commandIn = s.commandIn ∧ t.eventIn = s.eventIn ∧
    t.sampleIn = s.sampleIn ∧ t.messageOut = s.messageOut ∧
    t.record.errorCount = s.record.errorCount ∧ t.record.lastErrorCode = s.record.lastErrorCode ∧
    (∀ j, Memory.read t.record.rxb j = Memory.read s.record.rxb j) ∧
    ((∀ n, i ≠ .mBeginRead n) →
      t.record.receiveLength = s.record.receiveLength ∧ t.record.receiveIndex = s.record.receiveIndex) ∧
    ((∀ p, i ≠ .sBeginReply p) → t.record.awaitingReply = s.record.awaitingReply) ∧
    (∀ n, i = .mBeginRead n →
      t.record.transmitLength = s.record.transmitLength ∧ t.record.transmitIndex = s.record.transmitIndex ∧
      ∀ j, Memory.read t.record.txb j = Memory.read s.record.txb j) ∧
    (∀ a p, i = .mBeginWrite a p → ∀ j, p.length ≤ j → Memory.read t.record.txb j = Memory.read s.record.txb j) ∧
    (∀ p, i = .sBeginReply p →
      t.record.status = s.record.status ∧ t.record.slaveAddress = s.record.slaveAddress ∧
      t.record.eventCount = s.record.eventCount ∧
      ∀ j, p.length ≤ j → Memory.read t.record.txb j = Memory.read s.record.txb j)

/-! ## M.ON_EVENT -/

/-- R115: in IDLE the event is ignored. -/
def Obligations.MasterIdleIgnoresEvents : Prop :=
  ∀ (ev : Event) (s : State), s.cfg.role = .master → s.record.status = Status.idle.code →
    ∃ t, exec (.mOnEvent ev) s = .next t ∧ StepEffect s t s.record {} [] []

/-- R116: M_WRITE_ADDR sends the address byte, and bit 0 chooses what follows. -/
def Obligations.MasterSendsTheAddress : Prop :=
  ∀ (ev : Event) (s : State), s.cfg.role = .master → s.record.status = Status.mWriteAddr.code →
    ∃ t, exec (.mOnEvent ev) s = .next t ∧
      StepEffect s t
        { s.record with
          eventCount := countAfter s
          status     := if s.record.slaveAddress.getLsbD 0 then Status.mRcvData.code else Status.mWriteData.code }
        { wr := some s.record.slaveAddress } [] []

/-- R117: a NACK in M_WRITE_DATA retries the address phase and records BUS_NACK. -/
def Obligations.MasterRetriesOnNack : Prop :=
  ∀ (ev : Event) (s : State), s.cfg.role = .master → s.record.status = Status.mWriteData.code → ev.ackstat = true →
    ∃ t, exec (.mOnEvent ev) s = .next t ∧
      StepEffect s t
        { s.record with
          eventCount    := countAfter s
          errorCount    := tallyAfter s
          lastErrorCode := 0x05#8
          transmitIndex := 0#8
          status        := Status.mWriteAddr.code }
        { rsen := true } [] []

/-- R118: an ACK in M_WRITE_DATA with bytes pending sends the next payload byte. -/
def Obligations.MasterSendsTheNextByte : Prop :=
  ∀ (ev : Event) (s : State) (b : Byte), s.cfg.role = .master → s.record.status = Status.mWriteData.code → ev.ackstat = false →
    s.record.transmitIndex.toNat < s.record.transmitLength.toNat → s.record.transmitLength.toNat ≤ s.cfg.txCap →
    Memory.read s.record.txb s.record.transmitIndex.toNat = some b →
    ∃ t, exec (.mOnEvent ev) s = .next t ∧
      StepEffect s t
        { s.record with
          eventCount    := countAfter s
          transmitIndex := s.record.transmitIndex + 1#8 }
        { wr := some b } [] []

/-- R119, R120, R122: an exhausted buffer, or an event that finds REP_START, pivots into the read of receive_length bytes. -/
def Obligations.MasterPivotsToTheRead : Prop :=
  ∀ (ev : Event) (s : State), s.cfg.role = .master →
    (s.record.status = Status.mWriteData.code ∧ ev.ackstat = false ∧ s.record.transmitIndex = s.record.transmitLength) ∨
      s.record.status = Status.mRepStart.code →
    s.record.receiveLength ≠ 0#8 →
    ∃ t, exec (.mOnEvent ev) s = .next t ∧
      StepEffect s t
        { s.record with
          eventCount   := countAfter s
          slaveAddress := s.record.slaveAddress ||| 0x01#8
          receiveIndex := 0#8
          status       := Status.mWriteAddr.code }
        { rsen := true } [] []

/-- R119, R121, R122: with no read length the write completes: stop and WRITE_OK. -/
def Obligations.MasterCompletesTheWrite : Prop :=
  ∀ (ev : Event) (s : State), s.cfg.role = .master →
    (s.record.status = Status.mWriteData.code ∧ ev.ackstat = false ∧ s.record.transmitIndex = s.record.transmitLength) ∨
      s.record.status = Status.mRepStart.code →
    s.record.receiveLength = 0#8 →
    ∃ t, exec (.mOnEvent ev) s = .next t ∧
      StepEffect s t { s.record with eventCount := countAfter s, status := Status.idle.code }
        { pen := true } [msg .writeOk []] []

/-- R123: a NACK in M_RCV_DATA ends the read with READ_FAIL, no stop asserted. -/
def Obligations.MasterReportsAFailedRead : Prop :=
  ∀ (ev : Event) (s : State), s.cfg.role = .master → s.record.status = Status.mRcvData.code → ev.ackstat = true →
    ∃ t, exec (.mOnEvent ev) s = .next t ∧
      StepEffect s t
        { s.record with
          eventCount    := countAfter s
          errorCount    := tallyAfter s
          lastErrorCode := 0x05#8
          status        := Status.idle.code }
        {} [msg .readFail []] []

/-- R124: an ACK in M_RCV_DATA arms the next byte. -/
def Obligations.MasterArmsTheNextByte : Prop :=
  ∀ (ev : Event) (s : State), s.cfg.role = .master → s.record.status = Status.mRcvData.code → ev.ackstat = false →
    ∃ t, exec (.mOnEvent ev) s = .next t ∧
      StepEffect s t { s.record with eventCount := countAfter s, status := Status.mAck.code } { rcen := true } [] []

/-- R125: a byte in M_ACK with more wanted is stored at receive_index and ACKed. -/
def Obligations.MasterStoresAndAcks : Prop :=
  ∀ (ev : Event) (s : State), s.cfg.role = .master → s.record.status = Status.mAck.code →
    s.record.receiveIndex.toNat + 1 < s.record.receiveLength.toNat → s.record.receiveLength.toNat ≤ s.cfg.rxCap →
    ∃ t, exec (.mOnEvent ev) s = .next t ∧
      StepEffect s t
        { s.record with
          rxb          := t.record.rxb
          eventCount   := countAfter s
          receiveIndex := s.record.receiveIndex + 1#8
          status       := Status.mRcvData.code }
        { acken := true, ackdt := false } [] [] ∧
      (∀ j, Memory.read t.record.rxb j =
        if j = s.record.receiveIndex.toNat then some ev.data else Memory.read s.record.rxb j)

/-- R126: the last byte in M_ACK is stored and NACKed, and READ_OK carries the bytes read. -/
def Obligations.MasterReportsTheReadBytes : Prop :=
  ∀ (ev : Event) (s : State), s.cfg.role = .master → s.record.status = Status.mAck.code →
    s.record.receiveIndex.toNat + 1 = s.record.receiveLength.toNat → s.record.receiveLength.toNat ≤ s.cfg.rxCap →
    (∀ j < s.record.receiveIndex.toNat, (Memory.read s.record.rxb j).isSome = true) →
    ∃ t bytes, exec (.mOnEvent ev) s = .next t ∧
      StepEffect s t
        { s.record with
          rxb          := t.record.rxb
          eventCount   := countAfter s
          receiveIndex := s.record.receiveLength
          status       := Status.mEndWrite.code }
        { acken := true, ackdt := true } [msg .readOk bytes] [] ∧
      (∀ j, Memory.read t.record.rxb j =
        if j = s.record.receiveIndex.toNat then some ev.data else Memory.read s.record.rxb j) ∧
      bytes.length = s.record.receiveLength.toNat ∧
      (∀ j < bytes.length, bytes[j]? = Memory.read t.record.rxb j)

/-- R127: M_END_WRITE issues the stop. -/
def Obligations.MasterIssuesTheStop : Prop :=
  ∀ (ev : Event) (s : State), s.cfg.role = .master → s.record.status = Status.mEndWrite.code →
    ∃ t, exec (.mOnEvent ev) s = .next t ∧
      StepEffect s t { s.record with eventCount := countAfter s, status := Status.idle.code } { pen := true } [] []

/-- R114, R84: of an event the master reads only ACKSTAT and DATA. -/
def Obligations.MasterReadsOnlyAckstatAndData : Prop :=
  ∀ (ev ev' : Event) (s : State), ev.ackstat = ev'.ackstat → ev.data = ev'.data →
    exec (.mOnEvent ev) s = exec (.mOnEvent ev') s

/-- R84, R157: the slave reads every field of an event but ACKSTAT and bit 7, and D_A and R_W only when BF = 1: two events that agree
on the rest have the same outcome, next state, fault or refusal. -/
def Obligations.SlaveIgnoresAckstatAndBit7 : Prop :=
  ∀ (ev ev' : Event) (s : State),
    ev.bf = ev'.bf → ev.s = ev'.s → ev.p = ev'.p → ev.ov = ev'.ov → ev.data = ev'.data →
    (ev.bf = true → ev.dA = ev'.dA ∧ ev.rW = ev'.rW) →
    exec (.sOnEvent ev) s = exec (.sOnEvent ev') s

/-- R114 to R127, R42: what a master event leaves alone. It stores one byte at most, at receive_index in M_ACK. -/
def Obligations.MasterEventFrame : Prop :=
  ∀ (ev : Event) (s t : State), exec (.mOnEvent ev) s = .next t →
    t.cfg = s.cfg ∧ t.schedule = s.schedule ∧ t.commandIn = s.commandIn ∧ t.eventIn = s.eventIn ∧
    t.sampleIn = s.sampleIn ∧ t.resultOut = s.resultOut ∧
    t.record.transmitLength = s.record.transmitLength ∧ t.record.receiveLength = s.record.receiveLength ∧
    t.record.awaitingReply = s.record.awaitingReply ∧
    (s.record.status = Status.idle.code → t.record = s.record) ∧
    (s.record.status ≠ Status.idle.code → t.record.eventCount = s.record.eventCount + 1#8) ∧
    ((s.record.status ≠ Status.mWriteData.code ∧ s.record.status ≠ Status.mRcvData.code) ∨ ev.ackstat = false →
      t.record.errorCount = s.record.errorCount ∧ t.record.lastErrorCode = s.record.lastErrorCode) ∧
    (s.record.status ≠ Status.mWriteData.code → t.record.transmitIndex = s.record.transmitIndex) ∧
    (s.record.status ≠ Status.mWriteData.code → s.record.status ≠ Status.mRepStart.code →
      t.record.slaveAddress = s.record.slaveAddress ∧
      (s.record.status ≠ Status.mAck.code → t.record.receiveIndex = s.record.receiveIndex)) ∧
    (∀ j, Memory.read t.record.txb j = Memory.read s.record.txb j) ∧
    (∀ j, s.record.status ≠ Status.mAck.code ∨ j ≠ s.record.receiveIndex.toNat →
      Memory.read t.record.rxb j = Memory.read s.record.rxb j)

/-- R128, R186, R239: an event that finds a status of no state of its role faults. (That an overrun does so too, before R158, is log
entry 17's reading.) -/
def Obligations.EventsOutsideTheRoleFault : Prop :=
  ∀ (ev : Event) (s : State),
    (s.cfg.role = .master → 7 ≤ s.record.status.toNat → exec (.mOnEvent ev) s = .fault .statusOutsideRole) ∧
    (s.cfg.role = .slave →
      (1 ≤ s.record.status.toNat ∧ s.record.status.toNat ≤ 8) ∨ 12 ≤ s.record.status.toNat →
      exec (.sOnEvent ev) s = .fault .statusOutsideRole)

/-! ## S.ON_EVENT -/

/-- R158, R151, R154, R222: an overrun, in any state of the role, abandons the transaction with OVERRUN, clears the flag and
releases the clock for a delivered byte. -/
def Obligations.SlaveOverrunAbandons : Prop :=
  ∀ (ev : Event) (s : State), s.cfg.role = .slave → statusOfRole .slave s.record.status = true → ev.ov = true →
    ∃ t, exec (.sOnEvent ev) s = .next t ∧
      StepEffect s t (abandonedRecord s .overrun s.record.eventCount) { ovClr := true, ckpRel := ev.bf }
        (diagnosticOf s .overrun s.record.eventCount) []

/-- R160, R161, R162, R155: a start in IDLE begins a transaction; with an address byte it goes on by the read/write bit. -/
def Obligations.SlaveBeginsATransaction : Prop :=
  ∀ (ev : Event) (s : State), s.cfg.role = .slave → s.record.status = Status.idle.code →
    ev.ov = false → ev.s = true → ev.p = false →
    (ev.bf = false →
      ∃ t, exec (.sOnEvent ev) s = .next t ∧
        StepEffect s t
          { s.record with eventCount := 1#8, receiveLength := 0#8, status := Status.sStarted.code } {} [] []) ∧
    (ev.bf = true → ev.dA = false → ev.rW = false →
      ∃ t, exec (.sOnEvent ev) s = .next t ∧
        StepEffect s t
          { s.record with eventCount := 1#8, receiveLength := 0#8, status := Status.sRcvData.code }
          { ckpRel := true } [] []) ∧
    (ev.bf = true → ev.dA = false → ev.rW = true →
      ∃ t, exec (.sOnEvent ev) s = .next t ∧
        StepEffect s t
          { s.record with
            eventCount     := 1#8
            receiveLength  := 0#8
            status         := Status.sSlaveSend.code
            transmitLength := 0#8
            transmitIndex  := 0#8
            awaitingReply  := true }
          {} [] [])

/-- R164: in IDLE an event without a start, or with start and stop together, changes nothing; a delivered byte is released. -/
def Obligations.SlaveIdleIgnoresEvents : Prop :=
  ∀ (ev : Event) (s : State), s.cfg.role = .slave → s.record.status = Status.idle.code →
    ev.ov = false → ev.s = false ∨ ev.p = true →
    ∃ t, exec (.sOnEvent ev) s = .next t ∧ StepEffect s t s.record { ckpRel := ev.bf } [] []

/-- R163, R167, R170, R175, R177, R180, with R151 and R154: a byte where it is not valid is released and abandons the transaction,
with NO_DATA where an address was required and ADDR_WITHOUT_DATA where data was valid. -/
def Obligations.SlaveRejectsMisplacedBytes : Prop :=
  ∀ (ev : Event) (s : State), s.cfg.role = .slave → ev.ov = false → ev.bf = true →
    (s.record.status = Status.idle.code → ev.s = true → ev.p = false → ev.dA = true →
      ∃ t, exec (.sOnEvent ev) s = .next t ∧
        StepEffect s t (abandonedRecord s .noData 1#8) { ckpRel := true } (diagnosticOf s .noData 1#8) []) ∧
    (s.record.status = Status.sStarted.code → ev.dA = true →
      ∃ t, exec (.sOnEvent ev) s = .next t ∧
        StepEffect s t (abandonedRecord s .noData (countAfter s)) { ckpRel := true }
          (diagnosticOf s .noData (countAfter s)) []) ∧
    (s.record.status = Status.sRcvData.code → ev.dA = false → ev.p = true ∨ ev.rW = false →
      ∃ t, exec (.sOnEvent ev) s = .next t ∧
        StepEffect s t (abandonedRecord s .addrWithoutData (countAfter s)) { ckpRel := true }
          (diagnosticOf s .addrWithoutData (countAfter s)) []) ∧
    (s.record.status = Status.sSlaveSend.code → ev.p = false →
      ∃ t, exec (.sOnEvent ev) s = .next t ∧
        StepEffect s t (abandonedRecord s .addrWithoutData (countAfter s)) { ckpRel := true }
          (diagnosticOf s .addrWithoutData (countAfter s)) [])

/-- R165, R166, R168, R169, R155: in S_STARTED a stop ends an empty transaction, and an address goes on by its read/write bit. -/
def Obligations.SlaveStartedTakesTheAddress : Prop :=
  ∀ (ev : Event) (s : State), s.cfg.role = .slave → s.record.status = Status.sStarted.code → ev.ov = false →
    (ev.p = true → ev.bf = false ∨ ev.dA = false →
      ∃ t, exec (.sOnEvent ev) s = .next t ∧
        StepEffect s t { s.record with eventCount := countAfter s, status := Status.idle.code } { ckpRel := ev.bf } [] []) ∧
    (ev.p = false → ev.bf = true → ev.dA = false → ev.rW = false →
      ∃ t, exec (.sOnEvent ev) s = .next t ∧
        StepEffect s t { s.record with eventCount := countAfter s, status := Status.sRcvData.code }
          { ckpRel := true } [] []) ∧
    (ev.p = false → ev.bf = true → ev.dA = false → ev.rW = true →
      ∃ t, exec (.sOnEvent ev) s = .next t ∧
        StepEffect s t
          { s.record with
            eventCount     := countAfter s
            status         := Status.sSlaveSend.code
            transmitLength := 0#8
            transmitIndex  := 0#8
            awaitingReply  := true }
          {} [] [])

/-- R171, R178, R181: an event with neither a byte nor a stop is a no-op that is counted, in S_STARTED, in S_RCV_DATA, and in
S_SLAVE_SEND while a reply is awaited. -/
def Obligations.SlaveCountsNoOps : Prop :=
  ∀ (ev : Event) (s : State), s.cfg.role = .slave → ev.ov = false → ev.p = false → ev.bf = false →
    s.record.status = Status.sStarted.code ∨ s.record.status = Status.sRcvData.code ∨
      (s.record.status = Status.sSlaveSend.code ∧ s.record.awaitingReply = true) →
    ∃ t, exec (.sOnEvent ev) s = .next t ∧ StepEffect s t { s.record with eventCount := countAfter s } {} [] []

/-- R172, R152: a data byte in S_RCV_DATA is stored at receive_length if it leaves room for the trailer, and otherwise abandons the
message with MSG_TOO_LONG; the clock is released either way. -/
def Obligations.SlaveAppendsDataBytes : Prop :=
  ∀ (ev : Event) (s : State), s.cfg.role = .slave → s.record.status = Status.sRcvData.code →
    ev.ov = false → ev.p = false → ev.bf = true → ev.dA = true →
    (s.record.receiveLength.toNat + 1 ≤ s.cfg.rxCap - 1 →
      ∃ t, exec (.sOnEvent ev) s = .next t ∧
        StepEffect s t
          { s.record with
            rxb           := t.record.rxb
            eventCount    := countAfter s
            receiveLength := s.record.receiveLength + 1#8 }
          { ckpRel := true } [] [] ∧
        (∀ j, Memory.read t.record.rxb j =
          if j = s.record.receiveLength.toNat then some ev.data else Memory.read s.record.rxb j)) ∧
    (s.cfg.rxCap - 1 < s.record.receiveLength.toNat + 1 →
      ∃ t, exec (.sOnEvent ev) s = .next t ∧
        StepEffect s t (abandonedRecord s .msgTooLong (countAfter s)) { ckpRel := true }
          (diagnosticOf s .msgTooLong (countAfter s)) [])

/-- R173, R153: a stop in S_RCV_DATA forwards the received bytes with the event count as trailer. -/
def Obligations.SlaveForwardsTheMessage : Prop :=
  ∀ (ev : Event) (s : State), s.cfg.role = .slave → s.record.status = Status.sRcvData.code →
    ev.ov = false → ev.p = true → ev.bf = false → s.record.receiveLength.toNat < s.cfg.rxCap →
    (∀ j < s.record.receiveLength.toNat, (Memory.read s.record.rxb j).isSome = true) →
    ∃ t bytes, exec (.sOnEvent ev) s = .next t ∧
      StepEffect s t
        { s.record with
          rxb           := t.record.rxb
          eventCount    := countAfter s
          receiveLength := 0#8
          status        := Status.idle.code }
        {} [msg .dataRcvd bytes] [] ∧
      (∀ j, Memory.read t.record.rxb j =
        if j = s.record.receiveLength.toNat then some (countAfter s) else Memory.read s.record.rxb j) ∧
      bytes.length = s.record.receiveLength.toNat + 1 ∧
      (∀ j < bytes.length, bytes[j]? = Memory.read t.record.rxb j)

/-- R174, R152, R153: a stop with a final data byte in S_RCV_DATA. -/
def Obligations.SlaveForwardsWithTheFinalByte : Prop :=
  ∀ (ev : Event) (s : State), s.cfg.role = .slave → s.record.status = Status.sRcvData.code →
    ev.ov = false → ev.p = true → ev.bf = true → ev.dA = true →
    (s.record.receiveLength.toNat + 1 ≤ s.cfg.rxCap - 1 → s.cfg.rxCap ≤ 255 →
      (∀ j < s.record.receiveLength.toNat, (Memory.read s.record.rxb j).isSome = true) →
      ∃ t bytes, exec (.sOnEvent ev) s = .next t ∧
        StepEffect s t
          { s.record with
            rxb           := t.record.rxb
            eventCount    := countAfter s
            receiveLength := 0#8
            status        := Status.idle.code }
          { ckpRel := true } [msg .dataRcvd bytes] [] ∧
        (∀ j, Memory.read t.record.rxb j =
          if j = s.record.receiveLength.toNat then some ev.data
          else if j = s.record.receiveLength.toNat + 1 then some (countAfter s)
          else Memory.read s.record.rxb j) ∧
        bytes.length = s.record.receiveLength.toNat + 2 ∧
        (∀ j < bytes.length, bytes[j]? = Memory.read t.record.rxb j)) ∧
    (s.cfg.rxCap - 1 < s.record.receiveLength.toNat + 1 →
      ∃ t, exec (.sOnEvent ev) s = .next t ∧
        StepEffect s t (abandonedRecord s .msgTooLong (countAfter s)) { ckpRel := true }
          (diagnosticOf s .msgTooLong (countAfter s)) [])

/-- R176, R202, R207: a read restart after a gather request stages ACK_REPLY and forwards the notification. -/
def Obligations.DispatcherAnswersGather : Prop :=
  ∀ (ev : Event) (s : State), s.cfg.legal = true → s.cfg.role = .slave → s.record.status = Status.sRcvData.code →
    ev.ov = false → ev.p = false → ev.bf = true → ev.dA = false → ev.rW = true →
    s.record.receiveLength ≠ 0#8 → Memory.read s.record.rxb 0 = some 0xAA#8 →
    ∃ t, exec (.sOnEvent ev) s = .next t ∧
      StepEffect s t
        { s.record with
          txb            := t.record.txb
          eventCount     := countAfter s
          status         := Status.sSlaveSend.code
          receiveLength  := 0#8
          transmitLength := 3#8
          transmitIndex  := 1#8
          awaitingReply  := false }
        { wr := s.cfg.ackReply[0]?, ckpRel := true }
        [msg .notifyGather [0xAA#8, 0x00#8, 0x00#8, 0x00#8, 0x00#8]] [] ∧
      (∀ j, Memory.read t.record.txb j = if j < 3 then s.cfg.ackReply[j]? else Memory.read s.record.txb j)

/-- R176, R203, R205, R207: a read restart after a gather check polls the Channel once and stages the sample if it is well-typed,
else five zero bytes. (A pending message of more than five bytes, which R205's port never returns, is log entry 11's case.) -/
def Obligations.DispatcherAnswersCheck : Prop :=
  ∀ (ev : Event) (s : State), s.cfg.legal = true → s.cfg.role = .slave → s.record.status = Status.sRcvData.code →
    ev.ov = false → ev.p = false → ev.bf = true → ev.dA = false → ev.rW = true →
    s.record.receiveLength ≠ 0#8 → Memory.read s.record.rxb 0 = some 0xAB#8 →
    ∃ t reply, exec (.sOnEvent ev) s = .next t ∧
      (∀ m, s.sampleIn.head? = some m → m.tag = 0x09#8 → m.payload.length = 5 → reply = m.payload) ∧
      (∀ m, s.sampleIn.head? = some m → m.tag ≠ 0x09#8 ∨ m.payload.length ≠ 5 → reply = [0#8, 0#8, 0#8, 0#8, 0#8]) ∧
      (s.sampleIn.head? = none → reply = [0#8, 0#8, 0#8, 0#8, 0#8]) ∧
      t.sampleIn = s.sampleIn.tail ∧
      StepEffect s { t with sampleIn := s.sampleIn }
        { s.record with
          txb            := t.record.txb
          eventCount     := countAfter s
          status         := Status.sSlaveSend.code
          receiveLength  := 0#8
          transmitLength := 5#8
          transmitIndex  := 1#8
          awaitingReply  := false }
        { wr := reply[0]?, ckpRel := true } [] [] ∧
      (∀ j, Memory.read t.record.txb j = if j < 5 then reply[j]? else Memory.read s.record.txb j)

/-- R176, R204, R207: a read restart after a movement command stages ACK_REPLY and forwards the received bytes. -/
def Obligations.DispatcherAnswersMove : Prop :=
  ∀ (ev : Event) (s : State), s.cfg.legal = true → s.cfg.role = .slave → s.record.status = Status.sRcvData.code →
    ev.ov = false → ev.p = false → ev.bf = true → ev.dA = false → ev.rW = true →
    s.record.receiveLength ≠ 0#8 → s.record.receiveLength.toNat ≤ s.cfg.rxCap →
    (∀ j < s.record.receiveLength.toNat, (Memory.read s.record.rxb j).isSome = true) →
    Memory.read s.record.rxb 0 = some s.cfg.tagMove →
    ∃ t bytes, exec (.sOnEvent ev) s = .next t ∧
      StepEffect s t
        { s.record with
          txb            := t.record.txb
          eventCount     := countAfter s
          status         := Status.sSlaveSend.code
          receiveLength  := 0#8
          transmitLength := 3#8
          transmitIndex  := 1#8
          awaitingReply  := false }
        { wr := s.cfg.ackReply[0]?, ckpRel := true } [msg .notifyMove bytes] [] ∧
      (∀ j, Memory.read t.record.txb j = if j < 3 then s.cfg.ackReply[j]? else Memory.read s.record.txb j) ∧
      bytes.length = s.record.receiveLength.toNat ∧
      (∀ j < bytes.length, bytes[j]? = Memory.read s.record.rxb j)

/-- R176, R201, R206, R207, R155: a read restart after an empty message or an unrecognised tag stages nothing and says nothing. -/
def Obligations.DispatcherIsSilentOnOtherTags : Prop :=
  ∀ (ev : Event) (s : State), s.cfg.legal = true → s.cfg.role = .slave → s.record.status = Status.sRcvData.code →
    ev.ov = false → ev.p = false → ev.bf = true → ev.dA = false → ev.rW = true →
    s.record.receiveLength = 0#8 ∨
      (∃ tag, Memory.read s.record.rxb 0 = some tag ∧ tag ≠ 0xAA#8 ∧ tag ≠ 0xAB#8 ∧ tag ≠ s.cfg.tagMove) →
    ∃ t, exec (.sOnEvent ev) s = .next t ∧
      StepEffect s t
        { s.record with
          eventCount     := countAfter s
          status         := Status.sSlaveSend.code
          receiveLength  := 0#8
          transmitLength := 0#8
          transmitIndex  := 0#8
          awaitingReply  := true }
        {} [] []

/-- R179, R182, R183: in S_SLAVE_SEND a stop drops the rest, a staged byte goes out with the clock released, and an exhausted
buffer ends the transaction. -/
def Obligations.SlaveSendsTheReply : Prop :=
  ∀ (ev : Event) (s : State), s.cfg.role = .slave → s.record.status = Status.sSlaveSend.code → ev.ov = false →
    (ev.p = true →
      ∃ t, exec (.sOnEvent ev) s = .next t ∧
        StepEffect s t
          { s.record with eventCount := countAfter s, status := Status.idle.code, awaitingReply := false }
          { ckpRel := ev.bf } [] []) ∧
    (∀ b, ev.p = false → ev.bf = false → s.record.awaitingReply = false →
      s.record.transmitIndex.toNat < s.record.transmitLength.toNat → s.record.transmitLength.toNat ≤ s.cfg.txCap →
      Memory.read s.record.txb s.record.transmitIndex.toNat = some b →
      ∃ t, exec (.sOnEvent ev) s = .next t ∧
        StepEffect s t
          { s.record with eventCount := countAfter s, transmitIndex := s.record.transmitIndex + 1#8 }
          { wr := some b, ckpRel := true } [] []) ∧
    (ev.p = false → ev.bf = false → s.record.awaitingReply = false → s.record.transmitIndex = s.record.transmitLength →
      ∃ t, exec (.sOnEvent ev) s = .next t ∧
        StepEffect s t { s.record with eventCount := countAfter s, status := Status.idle.code } {} [] [])

/-- R157 to R183, R42: what a slave event leaves alone. It stores to RXB only in S_RCV_DATA, at receive_length and, for a stop with a
final byte, at receive_length + 1; it stores to TXB only at a read restart, at 0..transmit_length-1 of the reply it stages. -/
def Obligations.SlaveEventFrame : Prop :=
  ∀ (ev : Event) (s t : State), s.cfg.legal = true → exec (.sOnEvent ev) s = .next t →
    t.cfg = s.cfg ∧ t.schedule = s.schedule ∧ t.commandIn = s.commandIn ∧ t.eventIn = s.eventIn ∧
    t.resultOut = s.resultOut ∧
    t.record.slaveAddress = s.record.slaveAddress ∧ t.record.receiveIndex = s.record.receiveIndex ∧
    ((ev.ov = true ∨ s.record.status ≠ Status.sRcvData.code ∨ ev.p = true ∨ ev.bf = false ∨ ev.dA = true ∨ ev.rW = false) →
      t.sampleIn = s.sampleIn ∧ ∀ j, Memory.read t.record.txb j = Memory.read s.record.txb j) ∧
    (∀ j, t.record.transmitLength.toNat ≤ j → Memory.read t.record.txb j = Memory.read s.record.txb j) ∧
    (ev.ov = true ∨ s.record.status ≠ Status.sRcvData.code →
      ∀ j, Memory.read t.record.rxb j = Memory.read s.record.rxb j) ∧
    (∀ j, j ≠ s.record.receiveLength.toNat → j ≠ s.record.receiveLength.toNat + 1 ∨ ev.p = false ∨ ev.bf = false →
      Memory.read t.record.rxb j = Memory.read s.record.rxb j) ∧
    (ev.bf = true → ev.dA = false → ∀ j, Memory.read t.record.rxb j = Memory.read s.record.rxb j)

/-- R184: an event with BF = 1 asserts CKP_REL unless it is an addressed read whose reply is not staged, where awaiting_reply = 1; an
event with BF = 0 asserts it only to send a reply byte. The hold (R38, R231; its bit is log entry 7's reading): an event with BF = 1
holds the clock unless released; a stop with no byte ends the hold; any other event keeps it unless CKP_REL releases it; so after
an event it stands only where awaiting_reply = 1, in the case U7, or where it stood unaccounted for before. A reply accepted
releases it, and every other command and every master event keeps it. In a run that follows R231 the clock is held between steps
exactly while a reply is awaited. -/
def Obligations.ClockReleaseDiscipline : Prop :=
  (∀ (ev : Event) (s t : State) (a : ActionWord), exec (.sOnEvent ev) s = .next t → t.actionOut = s.actionOut ++ [a] →
    (ev.bf = true → a.getLsbD 6 = false →
      ev.ov = false ∧ ev.p = false ∧ ev.dA = false ∧ ev.rW = true ∧
      t.record.status = Status.sSlaveSend.code ∧ t.record.awaitingReply = true) ∧
    (ev.bf = false → a.getLsbD 6 = true →
      ev.ov = false ∧ ev.p = false ∧ s.record.status = Status.sSlaveSend.code ∧ s.record.awaitingReply = false ∧
      s.record.transmitIndex.toNat < s.record.transmitLength.toNat) ∧
    (ev.bf = true → t.clockHeld = !a.getLsbD 6) ∧
    (ev.bf = false → ev.p = true → ev.ov = false → t.clockHeld = false) ∧
    (ev.bf = false → ev.p = false ∨ ev.ov = true → t.clockHeld = (s.clockHeld && !a.getLsbD 6)) ∧
    ((s.clockHeld = true → s.record.awaitingReply = true) → t.clockHeld = true →
      t.record.awaitingReply = true ∨ (s.record.awaitingReply = true ∧ ev.ov = true ∧ ev.bf = false))) ∧
  (∀ (payload : List Byte) (s t : State), exec (.sBeginReply payload) s = .next t →
    (t.resultOut = s.resultOut ++ [.accepted] → t.clockHeld = false) ∧
    (t.resultOut ≠ s.resultOut ++ [.accepted] → t.clockHeld = s.clockHeld)) ∧
  (∀ (i : Instr) (s t : State), exec i s = .next t →
    (∃ a payload, i = .mBeginWrite a payload) ∨ (∃ n, i = .mBeginRead n) ∨ (∃ ev, i = .mOnEvent ev) →
    t.clockHeld = s.clockHeld) ∧
  (∀ (b : Bus) (s : State), Conforming b s → (s.clockHeld = true ↔ s.record.awaitingReply = true))

/-! ## Whole transactions -/

/-- R185, R182, R183, R188: a reply P staged by BEGIN_REPLY and driven by len(P) EV_TXDONE events puts exactly P on the bus, in
order, and ends in IDLE. -/
def Obligations.ReplyRoundTrip : Prop :=
  ∀ (s : State) (payload : List Byte), s.cfg.legal = true → s.cfg.role = .slave →
    s.record.status = Status.sSlaveSend.code → s.record.awaitingReply = true →
    1 ≤ payload.length → payload.length ≤ s.cfg.txCap →
    ∃ t words, runInstrs (.sBeginReply payload :: List.replicate payload.length (.sOnEvent evTxDone)) s = .next t ∧
      t.record.status = Status.idle.code ∧ t.actionOut = s.actionOut ++ words ∧ writtenBytes words = payload ∧
      t.messageOut = s.messageOut ∧ t.resultOut = s.resultOut ++ [.accepted]

/-- R161, R172, R173, R188: an addressed write of k bytes that fit, then a stop, ends in IDLE with one DATA_RCVD of the bytes in
order and the trailer k + 2. -/
def Obligations.WriteThenStopIsForwarded : Prop :=
  ∀ (s : State) (address : Byte) (bytes : List Byte), s.cfg.legal = true → s.cfg.role = .slave →
    s.record.status = Status.idle.code → bytes.length ≤ s.cfg.rxCap - 1 →
    ∃ t, runInstrs (.sOnEvent (evSaddrW address) ::
        (bytes.map fun d => Instr.sOnEvent (evData d)) ++ [.sOnEvent evStop]) s = .next t ∧
      t.record.status = Status.idle.code ∧ t.record.receiveLength = 0#8 ∧
      t.messageOut = s.messageOut ++ [msg .dataRcvd (bytes ++ [BitVec.ofNat 8 (bytes.length + 2)])]

/-- R163, R154, R222: n consecutive no-data errors from an empty tally produce one diagnostic for every ERR_THRESHOLD of them, each
resetting the tally. -/
def Obligations.OneDiagnosticPerThreshold : Prop :=
  ∀ (s : State) (n : Nat), s.cfg.legal = true → s.cfg.role = .slave →
    s.record.status = Status.idle.code → s.record.errorCount = 0#8 →
    ∃ t, runInstrs (List.replicate n (.sOnEvent (eventOf [.BF, .S, .DA] 0#8))) s = .next t ∧
      t.record.status = Status.idle.code ∧ t.record.errorCount.toNat = n % s.cfg.errThreshold ∧
      t.messageOut = s.messageOut ++
        List.replicate (n / s.cfg.errThreshold) (msg .diag [BitVec.ofNat 8 s.cfg.errThreshold, 0x02#8, 0x01#8])

/-- R111, R116, R118, R121: a write of P acknowledged at every byte puts the address and then P on the bus, and ends in IDLE with one
WRITE_OK, if no read length is set. -/
def Obligations.AcknowledgedWriteIsReported : Prop :=
  ∀ (s : State) (address : Byte) (payload : List Byte), s.cfg.legal = true → s.cfg.role = .master →
    s.record.status = Status.idle.code → s.record.receiveLength = 0#8 →
    address.getLsbD 0 = false → payload.length ≤ s.cfg.txCap →
    ∃ t words, runInstrs (.mBeginWrite address payload :: .mOnEvent evDone ::
        List.replicate (payload.length + 1) (.mOnEvent evAck)) s = .next t ∧
      t.record.status = Status.idle.code ∧ t.actionOut = s.actionOut ++ words ∧
      writtenBytes words = address :: payload ∧ t.messageOut = s.messageOut ++ [msg .writeOk []]

/-- R112, R116, R124, R125, R126, R127: a read of n bytes whose address is acknowledged ends in IDLE with one READ_OK of the bytes the
peer sent, in order. -/
def Obligations.AcknowledgedReadIsReported : Prop :=
  ∀ (s : State) (bytes : List Byte), s.cfg.legal = true → s.cfg.role = .master →
    s.record.status = Status.idle.code → 1 ≤ bytes.length → bytes.length ≤ s.cfg.rxCap →
    ∃ t, runInstrs (.mBeginRead (BitVec.ofNat 8 bytes.length) :: .mOnEvent evDone :: .mOnEvent evAck ::
        bytes.flatMap fun d => [Instr.mOnEvent (evRx d), Instr.mOnEvent evDone]) s = .next t ∧
      t.record.status = Status.idle.code ∧ t.messageOut = s.messageOut ++ [msg .readOk bytes]

/-- R129, R116, R117: a peer that NACKs every address keeps the master retrying: n rounds put the address on the bus n times, send no
message and end where they began. -/
def Obligations.NackedAddressesRetryForEver : Prop :=
  ∀ (s : State) (n : Nat), s.cfg.role = .master → s.record.status = Status.mWriteData.code →
    s.record.slaveAddress.getLsbD 0 = false →
    ∃ t words, runInstrs ((List.replicate n [Instr.mOnEvent evNack, Instr.mOnEvent evDone]).flatten) s = .next t ∧
      t.record.status = Status.mWriteData.code ∧ t.messageOut = s.messageOut ∧
      t.actionOut = s.actionOut ++ words ∧ writtenBytes words = List.replicate n s.record.slaveAddress
end

