-- ==== Sys2Proof/Laws/State.lean ====
section
/-! SUPPORT. One lemma per field per update of the working state and of the machine's state, and what status codes name. -/

namespace Sys2Proof.Machine

/-! ## Status codes -/

@[simp] theorem Status.ofCode_code (st : Status) : Status.ofCode st.code = some st := by
  cases st <;> decide

theorem Status.code_injective {a b : Status} (h : a.code = b.code) : a = b := by
  cases a <;> cases b <;> first | rfl | exact absurd h (by decide)

@[simp] theorem Status.code_eq_iff (a b : Status) : a.code = b.code ↔ a = b :=
  ⟨Status.code_injective, fun h => h ▸ rfl⟩

theorem Status.ofCode_eq_some {v : BitVec 4} {st : Status} (h : Status.ofCode v = some st) : v = st.code := by
  revert h
  cases st <;> revert v <;> decide

/-! ## The working state, field by field -/

section
variable (w : Work)

@[simp] theorem Work.start_record (s : State) : (Work.start s).record = s.record := rfl
@[simp] theorem Work.start_samples (s : State) : (Work.start s).samples = s.sampleIn := rfl
@[simp] theorem Work.start_actions (s : State) : (Work.start s).actions = {} := rfl
@[simp] theorem Work.start_sent (s : State) : (Work.start s).sent = [] := rfl
@[simp] theorem Work.start_recordedError (s : State) : (Work.start s).recordedError = false := rfl

@[simp] theorem Work.setStatus_record (st : Status) : (w.setStatus st).record = { w.record with status := st.code } := rfl
@[simp] theorem Work.setStatus_samples (st : Status) : (w.setStatus st).samples = w.samples := rfl
@[simp] theorem Work.setStatus_actions (st : Status) : (w.setStatus st).actions = w.actions := rfl
@[simp] theorem Work.setStatus_sent (st : Status) : (w.setStatus st).sent = w.sent := rfl
@[simp] theorem Work.setStatus_recordedError (st : Status) : (w.setStatus st).recordedError = w.recordedError := rfl

@[simp] theorem Work.setSlaveAddress_record (v : Byte) : (w.setSlaveAddress v).record = { w.record with slaveAddress := v } := rfl
@[simp] theorem Work.setSlaveAddress_samples (v : Byte) : (w.setSlaveAddress v).samples = w.samples := rfl
@[simp] theorem Work.setSlaveAddress_actions (v : Byte) : (w.setSlaveAddress v).actions = w.actions := rfl
@[simp] theorem Work.setSlaveAddress_sent (v : Byte) : (w.setSlaveAddress v).sent = w.sent := rfl
@[simp] theorem Work.setSlaveAddress_recordedError (v : Byte) : (w.setSlaveAddress v).recordedError = w.recordedError := rfl

@[simp] theorem Work.setReceiveLength_record (v : Byte) : (w.setReceiveLength v).record = { w.record with receiveLength := v } := rfl
@[simp] theorem Work.setReceiveLength_samples (v : Byte) : (w.setReceiveLength v).samples = w.samples := rfl
@[simp] theorem Work.setReceiveLength_actions (v : Byte) : (w.setReceiveLength v).actions = w.actions := rfl
@[simp] theorem Work.setReceiveLength_sent (v : Byte) : (w.setReceiveLength v).sent = w.sent := rfl
@[simp] theorem Work.setReceiveLength_recordedError (v : Byte) : (w.setReceiveLength v).recordedError = w.recordedError := rfl

@[simp] theorem Work.setReceiveIndex_record (v : Byte) : (w.setReceiveIndex v).record = { w.record with receiveIndex := v } := rfl
@[simp] theorem Work.setReceiveIndex_samples (v : Byte) : (w.setReceiveIndex v).samples = w.samples := rfl
@[simp] theorem Work.setReceiveIndex_actions (v : Byte) : (w.setReceiveIndex v).actions = w.actions := rfl
@[simp] theorem Work.setReceiveIndex_sent (v : Byte) : (w.setReceiveIndex v).sent = w.sent := rfl
@[simp] theorem Work.setReceiveIndex_recordedError (v : Byte) : (w.setReceiveIndex v).recordedError = w.recordedError := rfl

@[simp] theorem Work.setTransmitLength_record (v : Byte) : (w.setTransmitLength v).record = { w.record with transmitLength := v } := rfl
@[simp] theorem Work.setTransmitLength_samples (v : Byte) : (w.setTransmitLength v).samples = w.samples := rfl
@[simp] theorem Work.setTransmitLength_actions (v : Byte) : (w.setTransmitLength v).actions = w.actions := rfl
@[simp] theorem Work.setTransmitLength_sent (v : Byte) : (w.setTransmitLength v).sent = w.sent := rfl
@[simp] theorem Work.setTransmitLength_recordedError (v : Byte) : (w.setTransmitLength v).recordedError = w.recordedError := rfl

@[simp] theorem Work.setTransmitIndex_record (v : Byte) : (w.setTransmitIndex v).record = { w.record with transmitIndex := v } := rfl
@[simp] theorem Work.setTransmitIndex_samples (v : Byte) : (w.setTransmitIndex v).samples = w.samples := rfl
@[simp] theorem Work.setTransmitIndex_actions (v : Byte) : (w.setTransmitIndex v).actions = w.actions := rfl
@[simp] theorem Work.setTransmitIndex_sent (v : Byte) : (w.setTransmitIndex v).sent = w.sent := rfl
@[simp] theorem Work.setTransmitIndex_recordedError (v : Byte) : (w.setTransmitIndex v).recordedError = w.recordedError := rfl

@[simp] theorem Work.setEventCount_record (v : Byte) : (w.setEventCount v).record = { w.record with eventCount := v } := rfl
@[simp] theorem Work.setEventCount_samples (v : Byte) : (w.setEventCount v).samples = w.samples := rfl
@[simp] theorem Work.setEventCount_actions (v : Byte) : (w.setEventCount v).actions = w.actions := rfl
@[simp] theorem Work.setEventCount_sent (v : Byte) : (w.setEventCount v).sent = w.sent := rfl
@[simp] theorem Work.setEventCount_recordedError (v : Byte) : (w.setEventCount v).recordedError = w.recordedError := rfl

@[simp] theorem Work.setErrorCount_record (v : Byte) : (w.setErrorCount v).record = { w.record with errorCount := v } := rfl
@[simp] theorem Work.setErrorCount_samples (v : Byte) : (w.setErrorCount v).samples = w.samples := rfl
@[simp] theorem Work.setErrorCount_actions (v : Byte) : (w.setErrorCount v).actions = w.actions := rfl
@[simp] theorem Work.setErrorCount_sent (v : Byte) : (w.setErrorCount v).sent = w.sent := rfl
@[simp] theorem Work.setErrorCount_recordedError (v : Byte) : (w.setErrorCount v).recordedError = w.recordedError := rfl

@[simp] theorem Work.setAwaitingReply_record (v : Bool) : (w.setAwaitingReply v).record = { w.record with awaitingReply := v } := rfl
@[simp] theorem Work.setAwaitingReply_samples (v : Bool) : (w.setAwaitingReply v).samples = w.samples := rfl
@[simp] theorem Work.setAwaitingReply_actions (v : Bool) : (w.setAwaitingReply v).actions = w.actions := rfl
@[simp] theorem Work.setAwaitingReply_sent (v : Bool) : (w.setAwaitingReply v).sent = w.sent := rfl
@[simp] theorem Work.setAwaitingReply_recordedError (v : Bool) : (w.setAwaitingReply v).recordedError = w.recordedError := rfl

@[simp] theorem Work.recordError_record (e : ErrorCode) : (w.recordError e).record = { w.record with errorCount := w.record.errorCount + 1#8, lastErrorCode := e.code } := rfl
@[simp] theorem Work.recordError_samples (e : ErrorCode) : (w.recordError e).samples = w.samples := rfl
@[simp] theorem Work.recordError_actions (e : ErrorCode) : (w.recordError e).actions = w.actions := rfl
@[simp] theorem Work.recordError_sent (e : ErrorCode) : (w.recordError e).sent = w.sent := rfl
@[simp] theorem Work.recordError_recordedError (e : ErrorCode) : (w.recordError e).recordedError = true := rfl

@[simp] theorem Work.act_record (x : Strobe) : (w.act x).record = w.record := rfl
@[simp] theorem Work.act_samples (x : Strobe) : (w.act x).samples = w.samples := rfl
@[simp] theorem Work.act_actions (x : Strobe) : (w.act x).actions = w.actions.assert x := rfl
@[simp] theorem Work.act_sent (x : Strobe) : (w.act x).sent = w.sent := rfl
@[simp] theorem Work.act_recordedError (x : Strobe) : (w.act x).recordedError = w.recordedError := rfl

@[simp] theorem Work.actAckdt_record (b : Bool) : (w.actAckdt b).record = w.record := rfl
@[simp] theorem Work.actAckdt_samples (b : Bool) : (w.actAckdt b).samples = w.samples := rfl
@[simp] theorem Work.actAckdt_actions (b : Bool) : (w.actAckdt b).actions = { w.actions with ackdt := b } := rfl
@[simp] theorem Work.actAckdt_sent (b : Bool) : (w.actAckdt b).sent = w.sent := rfl
@[simp] theorem Work.actAckdt_recordedError (b : Bool) : (w.actAckdt b).recordedError = w.recordedError := rfl

@[simp] theorem Work.actWr_record (v : Byte) : (w.actWr v).record = w.record := rfl
@[simp] theorem Work.actWr_samples (v : Byte) : (w.actWr v).samples = w.samples := rfl
@[simp] theorem Work.actWr_actions (v : Byte) : (w.actWr v).actions = { w.actions with wr := some v } := rfl
@[simp] theorem Work.actWr_sent (v : Byte) : (w.actWr v).sent = w.sent := rfl
@[simp] theorem Work.actWr_recordedError (v : Byte) : (w.actWr v).recordedError = w.recordedError := rfl

@[simp] theorem Work.send_record (t : Tag) (p : List Byte) : (w.send t p).record = w.record := rfl
@[simp] theorem Work.send_samples (t : Tag) (p : List Byte) : (w.send t p).samples = w.samples := rfl
@[simp] theorem Work.send_actions (t : Tag) (p : List Byte) : (w.send t p).actions = w.actions := rfl
@[simp] theorem Work.send_sent (t : Tag) (p : List Byte) : (w.send t p).sent = w.sent ++ [{ tag := t.code, payload := p }] := rfl
@[simp] theorem Work.send_recordedError (t : Tag) (p : List Byte) : (w.send t p).recordedError = w.recordedError := rfl

@[simp] theorem Work.actIf_true (x : Strobe) : w.actIf true x = w.act x := rfl
@[simp] theorem Work.actIf_false (x : Strobe) : w.actIf false x = w := rfl

theorem Work.countEvent_idle (h : w.record.status = Status.idle.code) : w.countEvent = w := by
  simp [Work.countEvent, h]

theorem Work.countEvent_busy (h : w.record.status ≠ Status.idle.code) :
    w.countEvent = w.setEventCount (w.record.eventCount + 1#8) := by
  simp [Work.countEvent, h]

end

/-! ## The action outputs -/

section
variable (a : Actions)

@[simp] theorem Actions.assert_sen : a.assert .sen = { a with sen := true } := rfl
@[simp] theorem Actions.assert_rsen : a.assert .rsen = { a with rsen := true } := rfl
@[simp] theorem Actions.assert_pen : a.assert .pen = { a with pen := true } := rfl
@[simp] theorem Actions.assert_rcen : a.assert .rcen = { a with rcen := true } := rfl
@[simp] theorem Actions.assert_acken : a.assert .acken = { a with acken := true } := rfl
@[simp] theorem Actions.assert_ckpRel : a.assert .ckpRel = { a with ckpRel := true } := rfl
@[simp] theorem Actions.assert_ovClr : a.assert .ovClr = { a with ovClr := true } := rfl

end

/-! ## The state after a step, field by field -/

section
variable (s : State) (h : Bool) (w : Work)

@[simp] theorem State.withWork_cfg : (s.withWork h w).cfg = s.cfg := rfl
@[simp] theorem State.withWork_record : (s.withWork h w).record = w.record := rfl
@[simp] theorem State.withWork_schedule : (s.withWork h w).schedule = s.schedule := rfl
@[simp] theorem State.withWork_commandIn : (s.withWork h w).commandIn = s.commandIn := rfl
@[simp] theorem State.withWork_eventIn : (s.withWork h w).eventIn = s.eventIn := rfl
@[simp] theorem State.withWork_sampleIn : (s.withWork h w).sampleIn = w.samples := rfl
@[simp] theorem State.withWork_actionOut : (s.withWork h w).actionOut = s.actionOut ++ [w.actions.word] := rfl
@[simp] theorem State.withWork_resultOut : (s.withWork h w).resultOut = s.resultOut := rfl
@[simp] theorem State.withWork_messageOut : (s.withWork h w).messageOut = s.messageOut ++ w.sent := rfl
@[simp] theorem State.withWork_clockHeld : (s.withWork h w).clockHeld = clockAfter h w.actions := rfl

end

/-! ## The Record's spaces -/

section
variable (r : Record) (m : Memory)

@[simp] theorem Record.space_rx : r.space .rx = r.rxb := rfl
@[simp] theorem Record.space_tx : r.space .tx = r.txb := rfl
@[simp] theorem Record.setSpace_rx : r.setSpace m .rx = { r with rxb := m } := rfl
@[simp] theorem Record.setSpace_tx : r.setSpace m .tx = { r with txb := m } := rfl
@[simp] theorem capacity_rx (c : Config) : capacity c .rx = c.rxCap := rfl
@[simp] theorem capacity_tx (c : Config) : capacity c .tx = c.txCap := rfl

end

end Sys2Proof.Machine
end

