-- ==== Sys2Proof/Laws/Memory.lean ====
section
/-! SUPPORT. The laws of the buffers: reads after writes, the canonical form, and what MemRead, MemWrite and their sequences answer. -/

namespace Sys2Proof.Machine

/-! ## Memory lists -/

theorem Memory.read_write (m : Memory) (i j : Nat) (v : Byte) :
    Memory.read (Memory.write m i v) j = if j = i then some v else Memory.read m j := by
  induction m with
  | nil => simp only [Memory.write, Memory.read]; grind
  | cons cell rest ih =>
    obtain ⟨a, b⟩ := cell
    simp only [Memory.write]
    split
    · simp only [Memory.read]; grind
    · split
      · simp only [Memory.read]; grind
      · simp only [Memory.read, ih]; grind

/-- A lower bound on a memory's indices. -/
def Memory.above (lo : Nat) (m : Memory) : Prop := ∀ cell ∈ m, lo < cell.1

theorem Memory.wf_cons_iff (a : Nat) (b : Byte) (rest : Memory) :
    Memory.wf ((a, b) :: rest) = true ↔ Memory.above a rest ∧ Memory.wf rest = true := by
  induction rest generalizing a b with
  | nil => simp [Memory.wf, Memory.above]
  | cons cell rest ih =>
    obtain ⟨a', b'⟩ := cell
    have h := ih a' b'
    simp only [Memory.wf, Bool.and_eq_true, decide_eq_true_eq, h, Memory.above, List.mem_cons, forall_eq_or_imp]
    constructor
    · rintro ⟨hlt, habove, hwf⟩
      exact ⟨⟨hlt, fun cell hc => Nat.lt_trans hlt (habove cell hc)⟩, habove, hwf⟩
    · rintro ⟨⟨hlt, _⟩, habove, hwf⟩
      exact ⟨hlt, habove, hwf⟩

theorem Memory.mem_write {m : Memory} {i : Nat} {v : Byte} {cell : Host.Cell} (h : cell ∈ Memory.write m i v) :
    cell = (i, v) ∨ cell ∈ m := by
  induction m with
  | nil => simpa [Memory.write] using h
  | cons head rest ih =>
    obtain ⟨a, b⟩ := head
    simp only [Memory.write] at h
    split at h
    · simpa using h
    · split at h
      · rcases List.mem_cons.mp h with h | h
        · exact .inl h
        · exact .inr (List.mem_cons_of_mem _ h)
      · rcases List.mem_cons.mp h with h | h
        · exact .inr (h ▸ List.mem_cons_self)
        · exact (ih h).imp id (List.mem_cons_of_mem _)

/-- A write keeps the canonical form. -/
theorem Memory.wf_write {m : Memory} (i : Nat) (v : Byte) (h : Memory.wf m = true) : Memory.wf (Memory.write m i v) = true := by
  induction m with
  | nil => rfl
  | cons head rest ih =>
    obtain ⟨a, b⟩ := head
    have ⟨habove, hrest⟩ := (Memory.wf_cons_iff a b rest).mp h
    simp only [Memory.write]
    split
    case isTrue hlt =>
      refine (Memory.wf_cons_iff _ _ _).mpr ⟨?_, h⟩
      intro cell hc
      rcases List.mem_cons.mp hc with rfl | hc
      · exact hlt
      · exact Nat.lt_trans hlt (habove cell hc)
    case isFalse hge =>
      split
      case isTrue heq => exact (Memory.wf_cons_iff _ _ _).mpr ⟨heq ▸ habove, hrest⟩
      case isFalse hne =>
        refine (Memory.wf_cons_iff _ _ _).mpr ⟨?_, ih hrest⟩
        intro cell hc
        rcases Memory.mem_write hc with rfl | hc
        · show a < i; omega
        · exact habove cell hc

/-- A write below the capacity keeps every index below it. -/
theorem Memory.within_write {cap : Nat} {m : Memory} {i : Nat} {v : Byte} (hi : i < cap)
    (h : Memory.within cap m = true) : Memory.within cap (Memory.write m i v) = true := by
  simp only [Memory.within, List.all_eq_true, decide_eq_true_eq] at h ⊢
  intro cell hc
  rcases Memory.mem_write hc with rfl | hc
  · exact hi
  · exact h cell hc

/-- The memory after a sequence of writes at i, i+1, ... -/
def Memory.writeList : Memory → Nat → List Byte → Memory
  | m, _, [] => m
  | m, i, b :: bs => Memory.writeList (Memory.write m i b) (i + 1) bs

theorem Memory.read_writeList (m : Memory) (i : Nat) (bs : List Byte) (j : Nat) :
    Memory.read (Memory.writeList m i bs) j = if i ≤ j ∧ j < i + bs.length then bs[j - i]? else Memory.read m j := by
  induction bs generalizing m i with
  | nil => simp only [Memory.writeList, List.length_nil]; rw [if_neg (by omega)]
  | cons b bs ih =>
    simp only [Memory.writeList, ih, Memory.read_write, List.length_cons]
    by_cases hji : j = i
    · subst hji; rw [if_neg (by omega), if_pos rfl, if_pos (by omega)]; simp
    · rw [if_neg hji]
      by_cases h : i + 1 ≤ j ∧ j < i + 1 + bs.length
      · rw [if_pos h, if_pos (by omega), show j - i = (j - (i + 1)) + 1 by omega, List.getElem?_cons_succ]
      · rw [if_neg h, if_neg (by omega)]

theorem Memory.wf_writeList {m : Memory} (i : Nat) (bs : List Byte) (h : Memory.wf m = true) :
    Memory.wf (Memory.writeList m i bs) = true := by
  induction bs generalizing m i with
  | nil => exact h
  | cons b bs ih => exact ih (i + 1) (Memory.wf_write i b h)

theorem Memory.within_writeList {cap : Nat} {m : Memory} {i : Nat} {bs : List Byte} (hi : i + bs.length ≤ cap)
    (h : Memory.within cap m = true) : Memory.within cap (Memory.writeList m i bs) = true := by
  induction bs generalizing m i with
  | nil => exact h
  | cons b bs ih =>
    simp only [List.length_cons] at hi
    exact ih (by omega) (Memory.within_write (by omega) h)

/-! ## MemRead and MemWrite -/

/-- MemWrite answers the written state, or the fault of R239 (b). -/
theorem memWrite_eq (c : Config) (sp : Space) (i : Nat) (v : Byte) (w : Work) :
    memWrite c sp i v w =
      if i < capacity c sp then
        .ok { w with record := w.record.setSpace (Memory.write (w.record.space sp) i v) sp }
      else .error (.indexOutOfRange sp i) := rfl

theorem memWrite_ok {c : Config} {sp : Space} {i : Nat} {v : Byte} {w : Work} (h : i < capacity c sp) :
    memWrite c sp i v w = .ok { w with record := w.record.setSpace (Memory.write (w.record.space sp) i v) sp } := by
  simp [memWrite, h]

theorem memRead_ok {c : Config} {sp : Space} {i : Nat} {b : Byte} {w : Work} (h : i < capacity c sp)
    (hb : Memory.read (w.record.space sp) i = some b) : memRead c sp i w = .ok b := by
  simp [memRead, h, hb]

/-- All MemRead can say when it answers a byte. -/
theorem memRead_inv {c : Config} {sp : Space} {i : Nat} {b : Byte} {w : Work} (h : memRead c sp i w = .ok b) :
    i < capacity c sp ∧ Memory.read (w.record.space sp) i = some b := by
  unfold memRead at h
  split at h
  · rename_i hi
    refine ⟨hi, ?_⟩
    split at h
    · rename_i b' hb; cases h; exact hb
    · cases h
  · cases h

/-- All MemWrite can say when it answers a state. -/
theorem memWrite_inv {c : Config} {sp : Space} {i : Nat} {v : Byte} {w w' : Work} (h : memWrite c sp i v w = .ok w') :
    i < capacity c sp ∧ w' = { w with record := w.record.setSpace (Memory.write (w.record.space sp) i v) sp } := by
  unfold memWrite at h
  split at h
  · rename_i hi; cases h; exact ⟨hi, rfl⟩
  · cases h

@[simp] theorem Record.space_setSpace (r : Record) (m : Memory) (sp : Space) : (r.setSpace m sp).space sp = m := by
  cases sp <;> rfl

@[simp] theorem Record.setSpace_setSpace (r : Record) (m m' : Memory) (sp : Space) :
    (r.setSpace m sp).setSpace m' sp = r.setSpace m' sp := by
  cases sp <;> rfl

@[simp] theorem Record.setSpace_self (r : Record) (sp : Space) : r.setSpace (r.space sp) sp = r := by
  cases sp <;> rfl

/-- A sequence of MemWrites within the capacity. -/
theorem memWriteFrom_ok {c : Config} {sp : Space} {i : Nat} {bs : List Byte} {w : Work} (h : i + bs.length ≤ capacity c sp) :
    memWriteFrom c sp i bs w =
      .ok { w with record := w.record.setSpace (Memory.writeList (w.record.space sp) i bs) sp } := by
  induction bs generalizing i w with
  | nil => simp [memWriteFrom, Memory.writeList]
  | cons b bs ih =>
    simp only [List.length_cons] at h
    simp only [memWriteFrom, memWrite_ok (show i < capacity c sp by omega), bind, Except.bind]
    rw [ih (by omega)]
    simp [Memory.writeList]

/-- All a sequence of MemWrites can say when it answers a state. -/
theorem memWriteFrom_inv {c : Config} {sp : Space} {i : Nat} {bs : List Byte} {w w' : Work}
    (h : memWriteFrom c sp i bs w = .ok w') :
    w' = { w with record := w.record.setSpace (Memory.writeList (w.record.space sp) i bs) sp } := by
  induction bs generalizing i w with
  | nil => simp only [memWriteFrom, Except.ok.injEq] at h; subst h; simp [Memory.writeList]
  | cons b bs ih =>
    simp only [memWriteFrom, bind, Except.bind] at h
    split at h
    · cases h
    · rename_i w1 h1
      obtain ⟨_, rfl⟩ := memWrite_inv h1
      rw [ih h]
      simp [Memory.writeList]

/-- A sequence of MemReads of written bytes within the capacity. -/
theorem memReadFrom_ok {c : Config} {sp : Space} {i n : Nat} {w : Work} (h : i + n ≤ capacity c sp)
    (hw : ∀ k < n, (Memory.read (w.record.space sp) (i + k)).isSome = true) :
    ∃ bytes, memReadFrom c sp i n w = .ok bytes ∧ bytes.length = n ∧
      ∀ k < n, bytes[k]? = Memory.read (w.record.space sp) (i + k) := by
  induction n generalizing i with
  | zero => exact ⟨[], rfl, rfl, fun k hk => absurd hk (Nat.not_lt_zero k)⟩
  | succ n ih =>
    obtain ⟨b, hb⟩ := Option.isSome_iff_exists.mp (hw 0 (by omega))
    obtain ⟨bytes, heq, hlen, hget⟩ := ih (i := i + 1) (by omega) (fun k hk => by
      have := hw (k + 1) (by omega)
      rwa [show i + (k + 1) = i + 1 + k by omega] at this)
    refine ⟨b :: bytes, ?_, by simp [hlen], ?_⟩
    · have hb' : Memory.read (w.record.space sp) i = some b := hb
      simp [memReadFrom, memRead_ok (show i < capacity c sp by omega) hb', heq, bind, Except.bind]
    · intro k hk
      cases k with
      | zero => simpa using hb.symm
      | succ k =>
        rw [List.getElem?_cons_succ, hget k (by omega), show i + 1 + k = i + (k + 1) by omega]

/-- The same for whatever working state holds the memory: the bytes depend on the memory alone. -/
theorem memReadFrom_of_memory {c : Config} {sp : Space} {i n : Nat} {m : Memory} (h : i + n ≤ capacity c sp)
    (hw : ∀ k < n, (Memory.read m (i + k)).isSome = true) :
    ∃ bytes : List Byte, bytes.length = n ∧ (∀ k < n, bytes[k]? = Memory.read m (i + k)) ∧
      ∀ w : Work, w.record.space sp = m → memReadFrom c sp i n w = .ok bytes := by
  induction n generalizing i with
  | zero => exact ⟨[], rfl, fun k hk => absurd hk (Nat.not_lt_zero k), fun _ _ => rfl⟩
  | succ n ih =>
    obtain ⟨b, hb⟩ := Option.isSome_iff_exists.mp (hw 0 (by omega))
    obtain ⟨bytes, hlen, hget, heq⟩ := ih (i := i + 1) (by omega) (fun k hk => by
      have := hw (k + 1) (by omega)
      rwa [show i + (k + 1) = i + 1 + k by omega] at this)
    refine ⟨b :: bytes, by simp [hlen], ?_, ?_⟩
    · intro k hk
      cases k with
      | zero => simpa using hb.symm
      | succ k =>
        rw [List.getElem?_cons_succ, hget k (by omega), show i + 1 + k = i + (k + 1) by omega]
    · intro w hm
      have hb' : Memory.read (w.record.space sp) i = some b := hm ▸ hb
      simp [memReadFrom, memRead_ok (show i < capacity c sp by omega) hb', heq w hm, bind, Except.bind]

/-- All a sequence of MemReads can say when it answers bytes. -/
theorem memReadFrom_inv {c : Config} {sp : Space} {i n : Nat} {w : Work} {bytes : List Byte}
    (h : memReadFrom c sp i n w = .ok bytes) :
    bytes.length = n ∧ ∀ k < n, bytes[k]? = Memory.read (w.record.space sp) (i + k) := by
  induction n generalizing i bytes with
  | zero =>
    simp only [memReadFrom, Except.ok.injEq] at h
    subst h
    exact ⟨rfl, fun k hk => absurd hk (Nat.not_lt_zero k)⟩
  | succ n ih =>
    simp only [memReadFrom, bind, Except.bind] at h
    split at h
    · cases h
    · rename_i b hb
      split at h
      · cases h
      · rename_i bs hbs
        cases h
        obtain ⟨hlen, hget⟩ := ih hbs
        refine ⟨by simp [hlen], fun k hk => ?_⟩
        cases k with
        | zero => simpa using (memRead_inv hb).2.symm
        | succ k =>
          rw [List.getElem?_cons_succ, hget k (by omega), show i + 1 + k = i + (k + 1) by omega]

/-! ## Every operation over memory keeps the canonical form -/

theorem memWrite_wf {c : Config} {sp : Space} {i : Nat} {v : Byte} {w w' : Work} (h : memWrite c sp i v w = .ok w')
    (wf : ∀ sp, Memory.wf (w.record.space sp) = true) (sp' : Space) : Memory.wf (w'.record.space sp') = true := by
  obtain ⟨-, rfl⟩ := memWrite_inv h
  cases sp <;> cases sp' <;> first | exact Memory.wf_write i v (wf _) | exact wf .rx | exact wf .tx

theorem memWriteFrom_wf {c : Config} {sp : Space} {i : Nat} {bs : List Byte} {w w' : Work}
    (h : memWriteFrom c sp i bs w = .ok w') (wf : ∀ sp, Memory.wf (w.record.space sp) = true) (sp' : Space) :
    Memory.wf (w'.record.space sp') = true := by
  have eq := memWriteFrom_inv h
  subst eq
  cases sp <;> cases sp' <;> first | exact Memory.wf_writeList i bs (wf _) | exact wf .rx | exact wf .tx

theorem reset_memory_wf (c : Config) (sp : Space) : Memory.wf ((State.resetOf c).record.space sp) = true := by
  cases sp <;> rfl

theorem Memory.read_eq_none_of_above {a : Nat} {m : Memory} (h : Memory.above a m) {i : Nat} (hi : i ≤ a) :
    Memory.read m i = none := by
  induction m with
  | nil => rfl
  | cons cell rest ih =>
    obtain ⟨b, y⟩ := cell
    have hb : a < b := h (b, y) (List.mem_cons_self ..)
    simp only [Memory.read]
    rw [if_neg (by omega)]
    exact ih fun cell hc => h cell (List.mem_cons_of_mem _ hc)

/-- In canonical form equal memories are equal data. -/
theorem Memory.ext_of_wf {m n : Memory} (hm : Memory.wf m = true) (hn : Memory.wf n = true)
    (h : ∀ i, Memory.read m i = Memory.read n i) : m = n := by
  induction m generalizing n with
  | nil =>
    cases n with
    | nil => rfl
    | cons cell rest =>
      obtain ⟨b, y⟩ := cell
      have := h b
      simp [Memory.read] at this
  | cons cell rest ih =>
    obtain ⟨a, x⟩ := cell
    obtain ⟨above_m, wf_m⟩ := (Memory.wf_cons_iff a x rest).mp hm
    cases n with
    | nil =>
      have := h a
      simp [Memory.read] at this
    | cons cell' rest' =>
      obtain ⟨b, y⟩ := cell'
      obtain ⟨above_n, wf_n⟩ := (Memory.wf_cons_iff b y rest').mp hn
      have ha := h a
      have hb := h b
      simp only [Memory.read, if_true] at ha hb
      have hab : a = b := by
        rcases Nat.lt_trichotomy a b with hlt | heq | hlt
        · rw [if_neg (by omega), Memory.read_eq_none_of_above above_n (Nat.le_of_lt hlt)] at ha
          cases ha
        · exact heq
        · rw [if_neg (by omega), Memory.read_eq_none_of_above above_m (Nat.le_of_lt hlt)] at hb
          cases hb
      subst hab
      rw [if_pos rfl, Option.some.injEq] at ha
      subst ha
      congr 1
      refine ih wf_m wf_n fun i => ?_
      by_cases hi : a = i
      · subst hi
        rw [Memory.read_eq_none_of_above above_m (Nat.le_refl _), Memory.read_eq_none_of_above above_n (Nat.le_refl _)]
      · have := h i
        simp only [Memory.read, if_neg hi] at this
        exact this

end Sys2Proof.Machine
end

