-- ==== Sys2Proof/Laws/Engine.lean ====
section
/-! SUPPORT. Everything each engine operation can do when it answers a next state, said once: one inversion lemma per operation. -/

namespace Sys2Proof.Machine

/-! ## Outcomes -/

theorem finishEvent_next {s t : State} {ev : Event} {r : Except Fault Work} (h : finishEvent s ev r = .next t) :
    ∃ w, r = .ok w ∧ t = s.withWork (holdAtEvent s ev) w := by
  cases r with
  | error f => simp [finishEvent] at h
  | ok w => exact ⟨w, rfl, by simpa [finishEvent] using h.symm⟩

theorem finishCommand_next {s t : State} {r : ResultCode} {e : Except Fault Work} (h : finishCommand s r e = .next t) :
    ∃ w, e = .ok w ∧ t = { s.withWork s.clockHeld w with resultOut := s.resultOut ++ [r] } := by
  cases e with
  | error f => simp [finishCommand] at h
  | ok w => exact ⟨w, rfl, by simpa [finishCommand] using h.symm⟩

/-- An M.ON_EVENT that answers a next state runs in the master role. -/
theorem execMOnEvent_next {s t : State} {ev : Event} (h : execMOnEvent ev s = .next t) :
    s.cfg.role = .master ∧
    ∃ w, masterEvent s.cfg ev (Work.start s) = .ok w ∧ t = s.withWork (holdAtEvent s ev) w := by
  unfold execMOnEvent at h
  split at h
  · rename_i role; exact ⟨role, finishEvent_next h⟩
  · simp at h

/-- An S.ON_EVENT that answers a next state runs in the slave role. -/
theorem execSOnEvent_next {s t : State} {ev : Event} (h : execSOnEvent ev s = .next t) :
    s.cfg.role = .slave ∧
    ∃ w, slaveTransition s.cfg ev (Work.start s) = .ok w ∧
      t = s.withWork (holdAtEvent s ev) (diagnosticCheck s.cfg w) := by
  unfold execSOnEvent at h
  split at h
  · rename_i role
    obtain ⟨v, hv, ht⟩ := finishEvent_next h
    simp only [slaveEvent, bind, Except.bind] at hv
    split at hv
    · cases hv
    · rename_i w hw
      cases hv
      exact ⟨role, w, hw, ht⟩
  · simp at h

/-! ## Status classes -/

/-- The states of the master role (R21, R128). -/
theorem statusOfRole_master {v : BitVec 4} (h : statusOfRole .master v = true) :
    v = Status.idle.code ∨ v = Status.mWriteAddr.code ∨ v = Status.mWriteData.code ∨ v = Status.mRcvData.code ∨
    v = Status.mAck.code ∨ v = Status.mRepStart.code ∨ v = Status.mEndWrite.code := by
  revert v; decide

/-- The states of the slave role (R21, R186). -/
theorem statusOfRole_slave {v : BitVec 4} (h : statusOfRole .slave v = true) :
    v = Status.idle.code ∨ v = Status.sStarted.code ∨ v = Status.sRcvData.code ∨ v = Status.sSlaveSend.code := by
  revert v; decide

@[simp] theorem statusOfRole_idle (role : Role) : statusOfRole role Status.idle.code = true := by cases role <;> decide
@[simp] theorem statusOfRole_mWriteAddr : statusOfRole .master Status.mWriteAddr.code = true := by decide
@[simp] theorem statusOfRole_mWriteData : statusOfRole .master Status.mWriteData.code = true := by decide
@[simp] theorem statusOfRole_mRcvData : statusOfRole .master Status.mRcvData.code = true := by decide
@[simp] theorem statusOfRole_mAck : statusOfRole .master Status.mAck.code = true := by decide
@[simp] theorem statusOfRole_mEndWrite : statusOfRole .master Status.mEndWrite.code = true := by decide
@[simp] theorem statusOfRole_sStarted : statusOfRole .slave Status.sStarted.code = true := by decide
@[simp] theorem statusOfRole_sRcvData : statusOfRole .slave Status.sRcvData.code = true := by decide
@[simp] theorem statusOfRole_sSlaveSend : statusOfRole .slave Status.sSlaveSend.code = true := by decide

/-! ## M.ON_EVENT -/

/-- The working state with its event counted, where it is not IDLE. -/
abbrev Work.counted (w : Work) : Work := w.setEventCount (w.record.eventCount + 1#8)

/-- The working state with a byte stored in RXB. -/
abbrev Work.storedRx (w : Work) (i : Nat) (v : Byte) : Work :=
  { w with record := { w.record with rxb := Memory.write w.record.rxb i v } }

/-- The working state with bytes stored in TXB from index 0 on. -/
abbrev Work.storedTx (w : Work) (bs : List Byte) : Work :=
  { w with record := { w.record with txb := Memory.writeList w.record.txb 0 bs } }

theorem masterStore_inv {c : Config} {ev : Event} {w w' : Work} (h : masterStore c ev w = .ok w') :
    w.record.receiveIndex.toNat < c.rxCap ∧
    w' = (w.storedRx w.record.receiveIndex.toNat ev.data).setReceiveIndex (w.record.receiveIndex + 1#8) := by
  simp only [masterStore, bind, Except.bind] at h
  split at h
  · cases h
  · rename_i v hv
    obtain ⟨hi, rfl⟩ := memWrite_inv hv
    cases h
    exact ⟨hi, rfl⟩

/-- All M.ON_EVENT can do (R114 to R127). -/
theorem masterEvent_cases {c : Config} {ev : Event} {w w' : Work} (h : masterEvent c ev w = .ok w') :
    (w.record.status = Status.idle.code ∧ w' = w) ∨
    (w.record.status = Status.mWriteAddr.code ∧ w' = masterWriteAddr w.counted) ∨
    (w.record.status = Status.mWriteData.code ∧ ev.ackstat = true ∧ w' = masterRetry w.counted) ∨
    (w.record.status = Status.mWriteData.code ∧ ev.ackstat = false ∧
      w.record.transmitIndex.toNat < w.record.transmitLength.toNat ∧
      ∃ b, Memory.read w.record.txb w.record.transmitIndex.toNat = some b ∧
        w' = (w.counted.actWr b).setTransmitIndex (w.record.transmitIndex + 1#8)) ∨
    (w.record.status = Status.mWriteData.code ∧ ev.ackstat = false ∧
      w.record.transmitIndex.toNat = w.record.transmitLength.toNat ∧ w' = masterExhausted w.counted) ∨
    (w.record.status = Status.mRepStart.code ∧ w' = repStart w.counted) ∨
    (w.record.status = Status.mRcvData.code ∧ w' = masterRcvData ev w.counted) ∨
    (w.record.status = Status.mAck.code ∧ w.record.receiveIndex.toNat + 1 < w.record.receiveLength.toNat ∧
      w.record.receiveIndex.toNat < c.rxCap ∧
      w' = ((((w.counted.storedRx w.record.receiveIndex.toNat ev.data).setReceiveIndex
        (w.record.receiveIndex + 1#8)).actAckdt false).act .acken).setStatus .mRcvData) ∨
    (w.record.status = Status.mAck.code ∧ w.record.receiveLength.toNat ≤ w.record.receiveIndex.toNat + 1 ∧
      w.record.receiveIndex.toNat < c.rxCap ∧
      ∃ bytes : List Byte, bytes.length = w.record.receiveLength.toNat ∧
        (∀ k < w.record.receiveLength.toNat,
          bytes[k]? = Memory.read (Memory.write w.record.rxb w.record.receiveIndex.toNat ev.data) k) ∧
        w' = (((((w.counted.storedRx w.record.receiveIndex.toNat ev.data).setReceiveIndex
          (w.record.receiveIndex + 1#8)).actAckdt true).act .acken).send .readOk bytes).setStatus .mEndWrite) ∨
    (w.record.status = Status.mEndWrite.code ∧ w' = masterEndWrite w.counted) := by
  by_cases idle : w.record.status = Status.idle.code
  · left
    simp only [masterEvent, masterCase, Work.countEvent, idle, if_true, Status.ofCode_code, Except.ok.injEq] at h
    exact ⟨idle, h.symm⟩
  right
  simp only [masterEvent, Work.countEvent, idle, if_false, masterCase, Work.setEventCount_record] at h
  split at h
  · rename_i hst; exact absurd (Status.ofCode_eq_some hst) idle
  · rename_i hst; cases h; exact .inl ⟨Status.ofCode_eq_some hst, rfl⟩
  · rename_i hst
    have hst := Status.ofCode_eq_some hst
    unfold masterWriteData at h
    split at h
    · rename_i hack; cases h; exact .inr (.inl ⟨hst, hack, rfl⟩)
    rename_i hack
    simp only [Bool.not_eq_true] at hack
    split at h
    · rename_i hlt
      simp only [masterSendNext, bind, Except.bind, Work.setEventCount_record] at h
      split at h
      · cases h
      rename_i b hb
      obtain ⟨-, hb⟩ := memRead_inv hb
      cases h
      exact .inr (.inr (.inl ⟨hst, hack, hlt, b, hb, rfl⟩))
    split at h
    · rename_i heq; cases h; exact .inr (.inr (.inr (.inl ⟨hst, hack, heq, rfl⟩)))
    · cases h
  · rename_i hst; cases h; exact .inr (.inr (.inr (.inr (.inl ⟨Status.ofCode_eq_some hst, rfl⟩))))
  · rename_i hst; cases h; exact .inr (.inr (.inr (.inr (.inr (.inl ⟨Status.ofCode_eq_some hst, rfl⟩)))))
  · rename_i hst
    have hst := Status.ofCode_eq_some hst
    unfold masterAck at h
    split at h
    · rename_i hmore
      simp only [masterAckMore, bind, Except.bind] at h
      split at h
      · cases h
      rename_i v hv
      obtain ⟨hi, rfl⟩ := masterStore_inv hv
      cases h
      exact .inr (.inr (.inr (.inr (.inr (.inr (.inl ⟨hst, hmore, hi, rfl⟩))))))
    · rename_i hlast
      simp only [masterAckLast, bind, Except.bind] at h
      split at h
      · cases h
      rename_i v hv
      obtain ⟨hi, rfl⟩ := masterStore_inv hv
      split at h
      · cases h
      rename_i bytes hb
      obtain ⟨hl, hb⟩ := memReadFrom_inv hb
      cases h
      refine .inr (.inr (.inr (.inr (.inr (.inr (.inr (.inl ⟨hst, Nat.le_of_not_lt hlast, hi, bytes, hl, ?_, rfl⟩)))))))
      intro k hk
      simpa using hb k (by simpa using hk)
  · rename_i hst; cases h; exact .inr (.inr (.inr (.inr (.inr (.inr (.inr (.inr ⟨Status.ofCode_eq_some hst, rfl⟩)))))))
  all_goals cases h

/-! ## The Dispatcher -/

/-- All StageReply can do (R156). -/
theorem stageReply_inv {c : Config} {q : List Byte} {w w' : Work} (h : stageReply c q w = .ok w') :
    ∃ first rest, q = first :: rest ∧
      w' = (((((w.storedTx q).setTransmitLength (BitVec.ofNat 8 q.length)).actWr first).setTransmitIndex
        1#8).setAwaitingReply false).act .ckpRel := by
  cases q with
  | nil => simp [stageReply] at h
  | cons first rest =>
    refine ⟨first, rest, rfl, ?_⟩
    simp only [stageReply, bind, Except.bind] at h
    split at h
    · cases h
    rename_i v hv
    have := memWriteFrom_inv hv
    subst this
    cases h
    rfl

/-- A reply of a length the buffer holds is staged (R156). -/
theorem stageReply_ok {c : Config} {first : Byte} {rest : List Byte} {w : Work} (fits : (first :: rest).length ≤ c.txCap) :
    stageReply c (first :: rest) w = .ok ((((((w.storedTx (first :: rest)).setTransmitLength
      (BitVec.ofNat 8 (first :: rest).length)).actWr first).setTransmitIndex 1#8).setAwaitingReply false).act .ckpRel) := by
  simp only [stageReply, bind, Except.bind]
  rw [memWriteFrom_ok (by simpa using fits)]
  rfl

/-- The working state in which a reply of at least one byte has been staged. -/
abbrev Work.staged (w : Work) (first : Byte) (rest : List Byte) : Work :=
  (((((w.storedTx (first :: rest)).setTransmitLength (BitVec.ofNat 8 (first :: rest).length)).actWr
    first).setTransmitIndex 1#8).setAwaitingReply false).act .ckpRel

/-- All Dispatch can do (R201 to R207). -/
theorem dispatch_cases {c : Config} {w w' : Work} (h : dispatch c w = .ok w') :
    (∃ first rest, c.ackReply = first :: rest ∧ w.record.receiveLength ≠ 0#8 ∧
      Memory.read w.record.rxb 0 = some tagGather ∧
      w' = ((w.staged first rest).send .notifyGather gatherNotice).setReceiveLength 0#8) ∨
    (∃ first rest, checkReply w.tryReceive.1 = first :: rest ∧ w.record.receiveLength ≠ 0#8 ∧
      Memory.read w.record.rxb 0 = some tagCheck ∧
      w' = (w.tryReceive.2.staged first rest).setReceiveLength 0#8) ∨
    (∃ first rest bytes, c.ackReply = first :: rest ∧ w.record.receiveLength ≠ 0#8 ∧
      Memory.read w.record.rxb 0 = some c.tagMove ∧ bytes.length = w.record.receiveLength.toNat ∧
      (∀ k < w.record.receiveLength.toNat, bytes[k]? = Memory.read w.record.rxb k) ∧
      w' = ((w.staged first rest).send .notifyMove bytes).setReceiveLength 0#8) ∨
    w' = w.setReceiveLength 0#8 := by
  simp only [dispatch, bind, Except.bind] at h
  split at h
  · cases h
  rename_i tag htag
  have htag : (tag = none) ∨ (w.record.receiveLength ≠ 0#8 ∧ Memory.read w.record.rxb 0 = tag) := by
    simp only [commandTag] at htag
    split at htag
    · cases htag; exact .inl rfl
    rename_i hne
    simp only [bind, Except.bind] at htag
    split at htag
    · cases htag
    rename_i b hb
    obtain ⟨-, hb⟩ := memRead_inv hb
    cases htag
    exact .inr ⟨hne, hb⟩
  split at h
  · cases h
  rename_i v hv
  cases h
  simp only [dispatchTag] at hv
  split at hv
  · rename_i ht
    subst ht
    obtain ⟨hne, hread⟩ := htag.resolve_left (by simp)
    simp only [dispatchGather, bind, Except.bind] at hv
    split at hv
    · cases hv
    rename_i u hu
    obtain ⟨first, rest, hq, rfl⟩ := stageReply_inv hu
    cases hv
    exact .inl ⟨first, rest, hq, hne, hread, by rw [hq]⟩
  split at hv
  · rename_i ht
    subst ht
    obtain ⟨hne, hread⟩ := htag.resolve_left (by simp)
    obtain ⟨first, rest, hq, rfl⟩ := stageReply_inv hv
    exact .inr (.inl ⟨first, rest, hq, hne, hread, by rw [hq]⟩)
  split at hv
  · rename_i ht
    subst ht
    obtain ⟨hne, hread⟩ := htag.resolve_left (by simp)
    simp only [dispatchMove, bind, Except.bind] at hv
    split at hv
    · cases hv
    rename_i u hu
    obtain ⟨first, rest, hq, rfl⟩ := stageReply_inv hu
    split at hv
    · cases hv
    rename_i bytes hb
    obtain ⟨hl, hb⟩ := memReadFrom_inv hb
    cases hv
    refine .inr (.inr (.inl ⟨first, rest, bytes, hq, hne, hread, hl, ?_, by rw [hq]⟩))
    intro k hk
    simpa using hb k hk
  · cases hv; exact .inr (.inr (.inr rfl))

/-! ## S.ON_EVENT -/

/-- All Append can do (R152). -/
theorem append_cases {c : Config} {d : Byte} {w w' : Work} {stored : Bool} (h : append c d w = .ok (stored, w')) :
    (stored = false ∧ c.rxCap - 1 < w.record.receiveLength.toNat + 1 ∧ w' = abandon .msgTooLong w) ∨
    (stored = true ∧ w.record.receiveLength.toNat + 1 ≤ c.rxCap - 1 ∧
      w' = (w.storedRx w.record.receiveLength.toNat d).setReceiveLength (w.record.receiveLength + 1#8)) := by
  simp only [append] at h
  split at h
  · rename_i hlt; cases h; exact .inl ⟨rfl, hlt, rfl⟩
  rename_i hge
  simp only [bind, Except.bind] at h
  split at h
  · cases h
  rename_i v hv
  obtain ⟨-, rfl⟩ := memWrite_inv hv
  cases h
  exact .inr ⟨rfl, Nat.le_of_not_lt hge, rfl⟩

/-- All MessageComplete can do (R153). -/
theorem messageComplete_inv {c : Config} {w w' : Work} (h : messageComplete c w = .ok w') :
    w.record.receiveLength.toNat < c.rxCap ∧
    ∃ bytes : List Byte, bytes.length = w.record.receiveLength.toNat + 1 ∧
      (∀ k < w.record.receiveLength.toNat + 1,
        bytes[k]? = Memory.read (Memory.write w.record.rxb w.record.receiveLength.toNat w.record.eventCount) k) ∧
      w' = ((w.storedRx w.record.receiveLength.toNat w.record.eventCount).send .dataRcvd bytes).setReceiveLength 0#8 := by
  simp only [messageComplete, bind, Except.bind] at h
  split at h
  · cases h
  rename_i v hv
  obtain ⟨hi, rfl⟩ := memWrite_inv hv
  split at h
  · cases h
  rename_i bytes hb
  obtain ⟨hl, hb⟩ := memReadFrom_inv hb
  cases h
  refine ⟨hi, bytes, hl, ?_, rfl⟩
  intro k hk
  simpa using hb k hk

/-- All S_RCV_DATA can do (R172 to R178). -/
theorem slaveRcvData_cases {c : Config} {ev : Event} {w w' : Work} (h : slaveRcvData c ev w = .ok w') :
    (ev.p = true ∧ ev.bf = false ∧ ∃ v, messageComplete c w = .ok v ∧ w' = v.setStatus .idle) ∨
    (ev.p = true ∧ ev.bf = true ∧ ev.dA = true ∧ w.record.receiveLength.toNat + 1 ≤ c.rxCap - 1 ∧
      ∃ v, messageComplete c (((w.act .ckpRel).storedRx w.record.receiveLength.toNat ev.data).setReceiveLength
          (w.record.receiveLength + 1#8)) = .ok v ∧ w' = v.setStatus .idle) ∨
    (ev.p = false ∧ ev.bf = false ∧ w' = w) ∨
    (ev.p = false ∧ ev.bf = true ∧ ev.dA = true ∧ w.record.receiveLength.toNat + 1 ≤ c.rxCap - 1 ∧
      w' = ((w.act .ckpRel).storedRx w.record.receiveLength.toNat ev.data).setReceiveLength
        (w.record.receiveLength + 1#8)) ∨
    (ev.bf = true ∧ ev.dA = true ∧ c.rxCap - 1 < w.record.receiveLength.toNat + 1 ∧
      w' = abandon .msgTooLong (w.act .ckpRel)) ∨
    (ev.p = false ∧ ev.bf = true ∧ ev.dA = false ∧ ev.rW = true ∧ dispatch c (enterSend w) = .ok w') ∨
    (ev.bf = true ∧ ev.dA = false ∧ (ev.p = true ∨ ev.rW = false) ∧ w' = abandon .addrWithoutData (w.act .ckpRel)) := by
  simp only [slaveRcvData] at h
  cases hp : ev.p <;> cases hb : ev.bf <;> cases hd : ev.dA <;>
    simp only [hp, hb, hd, if_true, if_false, Bool.not_false, Bool.not_true, Bool.false_eq_true, bind, Except.bind] at h
  · cases h; simp
  · cases h; simp
  · cases hr : ev.rW <;> simp only [hr, if_true, if_false, Bool.false_eq_true] at h
    · cases h; simp
    · simp [h]
  · split at h
    · cases h
    rename_i v hv
    obtain ⟨stored, v⟩ := v
    cases h
    rcases append_cases hv with ⟨-, hlt, rfl⟩ | ⟨-, hle, rfl⟩
    · simp at hlt; simp [hlt]
    · simp at hle; simp [hle]
  · split at h
    · cases h
    rename_i v hv
    cases h
    simp [hv]
  · split at h
    · cases h
    rename_i v hv
    cases h
    simp [hv]
  · cases h; simp
  · simp only [slaveStopData, bind, Except.bind] at h
    split at h
    · cases h
    rename_i v hv
    obtain ⟨stored, v⟩ := v
    rcases append_cases hv with ⟨rfl, hlt, rfl⟩ | ⟨rfl, hle, rfl⟩
    · cases h
      simp at hlt; simp [hlt]
    · simp only [if_true] at h
      split at h
      · cases h
      rename_i u hu
      cases h
      simp at hle
      simp only [Work.act_record] at hu
      simp [hle, hu]

/-- All S_SLAVE_SEND can do (R179 to R183). -/
theorem slaveSend_cases {c : Config} {ev : Event} {w w' : Work} (h : slaveSend c ev w = .ok w') :
    (ev.p = true ∧ w' = ((w.actIf ev.bf .ckpRel).setStatus .idle).setAwaitingReply false) ∨
    (ev.p = false ∧ ev.bf = true ∧ w' = abandon .addrWithoutData (w.act .ckpRel)) ∨
    (ev.p = false ∧ ev.bf = false ∧ w.record.awaitingReply = true ∧ w' = w) ∨
    (ev.p = false ∧ ev.bf = false ∧ w.record.awaitingReply = false ∧
      w.record.transmitIndex.toNat < w.record.transmitLength.toNat ∧
      ∃ b, Memory.read w.record.txb w.record.transmitIndex.toNat = some b ∧
        w' = ((w.actWr b).setTransmitIndex (w.record.transmitIndex + 1#8)).act .ckpRel) ∨
    (ev.p = false ∧ ev.bf = false ∧ w.record.awaitingReply = false ∧
      w.record.transmitIndex.toNat = w.record.transmitLength.toNat ∧ w' = w.setStatus .idle) := by
  simp only [slaveSend] at h
  split at h
  · rename_i hp; cases h; exact .inl ⟨hp, rfl⟩
  rename_i hp
  simp only [Bool.not_eq_true] at hp
  right
  split at h
  · rename_i hb; cases h; exact .inl ⟨hp, hb, rfl⟩
  rename_i hb
  simp only [Bool.not_eq_true] at hb
  right
  split at h
  · rename_i ha; cases h; exact .inl ⟨hp, hb, ha, rfl⟩
  rename_i ha
  simp only [Bool.not_eq_true] at ha
  right
  split at h
  · rename_i hlt
    simp only [slaveSendNext, bind, Except.bind] at h
    split at h
    · cases h
    rename_i b hr
    obtain ⟨-, hr⟩ := memRead_inv hr
    cases h
    exact .inl ⟨hp, hb, ha, hlt, b, hr, rfl⟩
  split at h
  · rename_i heq; cases h; exact .inr ⟨hp, hb, ha, heq, rfl⟩
  · cases h

/-- All S.ON_EVENT can do before its diagnostic check, by state (R157 to R183). -/
theorem slaveTransition_cases {c : Config} {ev : Event} {w w' : Work} (h : slaveTransition c ev w = .ok w') :
    (statusOfRole .slave w.record.status = true ∧ ev.ov = true ∧ w' = slaveOverrun ev w) ∨
    (ev.ov = false ∧ w.record.status = Status.idle.code ∧ w' = slaveIdle ev w) ∨
    (ev.ov = false ∧ w.record.status = Status.sStarted.code ∧ w' = slaveStarted ev w.counted) ∨
    (ev.ov = false ∧ w.record.status = Status.sRcvData.code ∧ slaveRcvData c ev w.counted = .ok w') ∨
    (ev.ov = false ∧ w.record.status = Status.sSlaveSend.code ∧ slaveSend c ev w.counted = .ok w') := by
  simp only [slaveTransition] at h
  split at h
  · cases h
  rename_i hst
  simp only [Bool.not_eq_true, Bool.not_eq_false'] at hst
  split at h
  · rename_i hov; cases h; exact .inl ⟨by simpa using hst, hov, rfl⟩
  rename_i hov
  simp only [Bool.not_eq_true] at hov
  right
  rcases statusOfRole_slave (by simpa using hst) with hs | hs | hs | hs
  · simp only [slaveCase, Work.countEvent, hs, if_true, Status.ofCode_code, Except.ok.injEq] at h
    exact .inl ⟨hov, hs, h.symm⟩
  all_goals
    simp only [slaveCase, Work.countEvent, hs, Status.code_eq_iff, reduceCtorEq, if_false, Work.setEventCount_record,
      Status.ofCode_code, Except.ok.injEq] at h
  · exact .inr (.inl ⟨hov, hs, h.symm⟩)
  · exact .inr (.inr (.inl ⟨hov, hs, h⟩))
  · exact .inr (.inr (.inr ⟨hov, hs, h⟩))

/-- All IDLE can do (R160 to R164). -/
theorem slaveIdle_cases (ev : Event) (w : Work) :
    ((ev.s = false ∨ ev.p = true) ∧ slaveIdle ev w = w.actIf ev.bf .ckpRel) ∨
    (ev.s = true ∧ ev.p = false ∧ ev.bf = false ∧ slaveIdle ev w = (slaveBegin w).setStatus .sStarted) ∨
    (ev.s = true ∧ ev.p = false ∧ ev.bf = true ∧ ev.dA = true ∧
      slaveIdle ev w = abandon .noData ((slaveBegin w).act .ckpRel)) ∨
    (ev.s = true ∧ ev.p = false ∧ ev.bf = true ∧ ev.dA = false ∧ ev.rW = true ∧
      slaveIdle ev w = enterSend (slaveBegin w)) ∨
    (ev.s = true ∧ ev.p = false ∧ ev.bf = true ∧ ev.dA = false ∧ ev.rW = false ∧
      slaveIdle ev w = ((slaveBegin w).act .ckpRel).setStatus .sRcvData) := by
  cases hs : ev.s <;> cases hp : ev.p <;> cases hb : ev.bf <;> cases hd : ev.dA <;> cases hr : ev.rW <;>
    simp [slaveIdle, hs, hp, hb, hd, hr]

/-- All S_STARTED can do (R165 to R171). -/
theorem slaveStarted_cases (ev : Event) (w : Work) :
    (ev.p = true ∧ (ev.bf = false ∨ ev.dA = false) ∧ slaveStarted ev w = (w.actIf ev.bf .ckpRel).setStatus .idle) ∨
    (ev.bf = true ∧ ev.dA = true ∧ slaveStarted ev w = abandon .noData (w.act .ckpRel)) ∨
    (ev.p = false ∧ ev.bf = false ∧ slaveStarted ev w = w) ∨
    (ev.p = false ∧ ev.bf = true ∧ ev.dA = false ∧ ev.rW = true ∧ slaveStarted ev w = enterSend w) ∨
    (ev.p = false ∧ ev.bf = true ∧ ev.dA = false ∧ ev.rW = false ∧
      slaveStarted ev w = (w.act .ckpRel).setStatus .sRcvData) := by
  cases hp : ev.p <;> cases hb : ev.bf <;> cases hd : ev.dA <;> cases hr : ev.rW <;>
    simp [slaveStarted, Work.actIf, hp, hb, hd, hr]

/-- All DiagnosticCheck can do (R154). -/
theorem diagnosticCheck_cases (c : Config) (w : Work) :
    (w.recordedError = true ∧ c.errThreshold ≤ w.record.errorCount.toNat ∧
      diagnosticCheck c w =
        (w.send .diag [w.record.errorCount, w.record.lastErrorCode, w.record.eventCount]).setErrorCount 0#8) ∨
    ((w.recordedError = false ∨ w.record.errorCount.toNat < c.errThreshold) ∧ diagnosticCheck c w = w) := by
  by_cases hr : w.recordedError = true
  · by_cases ht : c.errThreshold ≤ w.record.errorCount.toNat
    · left; simp [diagnosticCheck, hr, ht]
    · right; simp [diagnosticCheck, hr, ht]; omega
  · right; simp only [Bool.not_eq_true] at hr; simp [diagnosticCheck, hr]

/-- What DiagnosticCheck leaves alone (R154). -/
theorem diagnosticCheck_frame (c : Config) (w : Work) :
    (diagnosticCheck c w).samples = w.samples ∧ (diagnosticCheck c w).actions = w.actions ∧
    (diagnosticCheck c w).record = { w.record with errorCount := (diagnosticCheck c w).record.errorCount } := by
  rcases diagnosticCheck_cases c w with ⟨_, _, h⟩ | ⟨_, h⟩ <;> rw [h] <;> simp

@[simp] theorem Work.actIf_record (w : Work) (b : Bool) (x : Strobe) : (w.actIf b x).record = w.record := by cases b <;> rfl
@[simp] theorem Work.actIf_samples (w : Work) (b : Bool) (x : Strobe) : (w.actIf b x).samples = w.samples := by cases b <;> rfl
@[simp] theorem Work.actIf_sent (w : Work) (b : Bool) (x : Strobe) : (w.actIf b x).sent = w.sent := by cases b <;> rfl
@[simp] theorem Work.actIf_recordedError (w : Work) (b : Bool) (x : Strobe) :
    (w.actIf b x).recordedError = w.recordedError := by cases b <;> rfl

/-- Every reply to tag B is five bytes (R203). -/
theorem checkReply_length (m : Option Message) : (checkReply m).length = 5 := by
  cases m with
  | none => rfl
  | some m =>
    simp only [checkReply]
    split
    · rename_i h; simp [wellTypedSample] at h; exact h.2
    · rfl

/-- R8 and R10, taken apart. -/
theorem legal_bounds {c : Config} (h : c.legal = true) :
    2 ≤ c.rxCap ∧ c.rxCap ≤ 255 ∧ 5 ≤ c.txCap ∧ c.txCap ≤ 255 ∧ 1 ≤ c.errThreshold ∧ c.errThreshold ≤ 255 ∧
    c.ownAddr.getLsbD 0 = false ∧ c.tagMove ≠ tagGather ∧ c.tagMove ≠ tagCheck ∧ c.ackReply.length = 3 := by
  simp only [Config.legal, Bool.and_eq_true, decide_eq_true_eq, Bool.not_eq_true'] at h
  obtain ⟨⟨⟨⟨⟨⟨⟨⟨⟨h1, h2⟩, h3⟩, h4⟩, h5⟩, h6⟩, h7⟩, h8⟩, h9⟩, h10⟩ := h
  exact ⟨h1, h2, h3, h4, h5, h6, h7, h8, h9, h10⟩

/-- R34, taken apart. -/
theorem invariantsR34_iff (c : Config) (r : Record) :
    invariantsR34 c r = true ↔
      r.receiveIndex.toNat ≤ r.receiveLength.toNat ∧ r.receiveLength.toNat ≤ c.rxCap ∧
      r.transmitIndex.toNat ≤ r.transmitLength.toNat ∧ r.transmitLength.toNat ≤ c.txCap ∧
      (c.role = .slave → r.receiveLength.toNat ≤ c.rxCap - 1) ∧
      (c.role = .slave → r.errorCount.toNat < c.errThreshold) ∧
      (r.awaitingReply = true → r.status = Status.sSlaveSend.code) := by
  cases hr : c.role <;> cases ha : r.awaitingReply <;> simp [invariantsR34, hr, ha, and_assoc]

/-! ## Commands -/

/-- All a command can do: refuse, or one of the three accepted effects (R111, R112, R185). -/
theorem command_cases {i : Instr} {s t : State} (command : i.isCommand = true) (h : exec i s = .next t) :
    (∃ r, r ≠ .accepted ∧ t = { s.withWork s.clockHeld (Work.start s) with resultOut := s.resultOut ++ [r] }) ∨
    (∃ a payload, i = .mBeginWrite a payload ∧ s.cfg.role = .master ∧ isRead a = false ∧ payload.length ≤ s.cfg.txCap ∧
      s.record.status = Status.idle.code ∧
      t = { s.withWork s.clockHeld ((((((((Work.start s).storedTx payload).setTransmitLength
        (BitVec.ofNat 8 payload.length)).setTransmitIndex 0#8).setSlaveAddress a).setEventCount 0#8).setStatus
        .mWriteAddr).act .sen) with resultOut := s.resultOut ++ [.accepted] }) ∨
    (∃ n : Byte, i = .mBeginRead n ∧ s.cfg.role = .master ∧ 1 ≤ n.toNat ∧ n.toNat ≤ s.cfg.rxCap ∧
      s.record.status = Status.idle.code ∧
      t = { s.withWork s.clockHeld (startRead n ((Work.start s).setEventCount 0#8)) with
        resultOut := s.resultOut ++ [.accepted] }) ∨
    (∃ first rest, i = .sBeginReply (first :: rest) ∧ s.cfg.role = .slave ∧ (first :: rest).length ≤ s.cfg.txCap ∧
      s.record.status = Status.sSlaveSend.code ∧ s.record.awaitingReply = true ∧
      t = { s.withWork s.clockHeld ((Work.start s).staged first rest) with resultOut := s.resultOut ++ [.accepted] }) := by
  have refused : ∀ r, r ≠ .accepted → refuseCommand s r = .next t →
      ∃ r, r ≠ .accepted ∧ t = { s.withWork s.clockHeld (Work.start s) with resultOut := s.resultOut ++ [r] } := by
    intro r hr h
    obtain ⟨w, hw, ht⟩ := finishCommand_next h
    cases hw
    exact ⟨r, hr, ht⟩
  cases i with
  | mBeginWrite a payload =>
    simp only [exec, execMBeginWrite] at h
    split at h
    · exact .inl (refused _ (by decide) h)
    rename_i hrole
    split at h
    · exact .inl (refused _ (by decide) h)
    rename_i hok
    split at h
    · exact .inl (refused _ (by decide) h)
    rename_i hidle
    obtain ⟨w, hw, ht⟩ := finishCommand_next h
    simp only [beginWrite, bind, Except.bind] at hw
    split at hw
    · cases hw
    rename_i v hv
    have := memWriteFrom_inv hv
    subst this
    cases hw
    simp [writeOperandsOk] at hok
    exact .inr (.inl ⟨a, payload, rfl, by simpa using hrole, hok.1, hok.2, by simpa using hidle, ht⟩)
  | mBeginRead n =>
    simp only [exec, execMBeginRead] at h
    split at h
    · exact .inl (refused _ (by decide) h)
    rename_i hrole
    split at h
    · exact .inl (refused _ (by decide) h)
    rename_i hok
    split at h
    · exact .inl (refused _ (by decide) h)
    rename_i hidle
    obtain ⟨w, hw, ht⟩ := finishCommand_next h
    cases hw
    simp [readOperandOk] at hok
    exact .inr (.inr (.inl ⟨n, rfl, by simpa using hrole, Nat.pos_of_ne_zero hok.1, hok.2, by simpa using hidle, ht⟩))
  | sBeginReply payload =>
    simp only [exec, execSBeginReply] at h
    split at h
    · exact .inl (refused _ (by decide) h)
    rename_i hrole
    split at h
    · exact .inl (refused _ (by decide) h)
    rename_i hok
    split at h
    · exact .inl (refused _ (by decide) h)
    rename_i hexp
    obtain ⟨w, hw, ht⟩ := finishCommand_next h
    obtain ⟨first, rest, rfl, rfl⟩ := stageReply_inv hw
    simp [replyOperandOk] at hok
    simp [expectsReply] at hexp
    exact .inr (.inr (.inr ⟨first, rest, rfl, by simpa using hrole, by simpa using hok, hexp.1, hexp.2, ht⟩))
  | mOnEvent ev => simp [Instr.isCommand] at command
  | sOnEvent ev => simp [Instr.isCommand] at command

/-! ## The step -/

/-- All a step can do: keep the state with no input to take, answer an illegal command, or run an instruction. -/
theorem step_cases {s t : State} (h : step s = .next t) :
    s.cfg.legal = true ∧ launchFault s = none ∧
    ((fetch s = .nothing ∧ t = s) ∨
     (∃ why u, fetch s = .illegal why u ∧
       t = { u.withWork u.clockHeld (Work.start u) with resultOut := u.resultOut ++ [.invalid] }) ∨
     (∃ i u, fetch s = .instr i u ∧ exec i u = .next t)) := by
  unfold step at h
  split at h
  · rename_i legal
    split at h
    · simp at h
    rename_i launch
    refine ⟨legal, launch, ?_⟩
    split at h
    · rename_i hf; simp only [Host.Outcome.next.injEq] at h; exact .inl ⟨hf, h.symm⟩
    · rename_i why u hf
      simp only [rejectCommand, refuseCommand] at h
      obtain ⟨w, hw, ht⟩ := finishCommand_next h
      cases hw
      exact .inr (.inl ⟨why, u, hf, ht⟩)
    · rename_i i u hf; exact .inr (.inr ⟨i, u, hf, h⟩)
  · simp at h

/-- Taking an input off its port touches nothing else, and gives an instruction of the role. -/
theorem fetch_frame (s : State) :
    (∀ why u, fetch s = .illegal why u →
      ∃ schedule commandIn, u = { s with schedule := schedule, commandIn := commandIn }) ∧
    (∀ i u, fetch s = .instr i u →
      ∃ schedule commandIn eventIn, u = { s with schedule := schedule, commandIn := commandIn, eventIn := eventIn }) := by
  unfold fetch
  constructor
  · intro why u h
    split at h
    · cases h
    · split at h <;> cases h
      exact ⟨_, _, rfl⟩
    · split at h <;> cases h
  · intro i u h
    split at h
    · cases h
    · split at h <;> cases h
      exact ⟨_, _, _, rfl⟩
    · split at h <;> cases h
      exact ⟨_, _, _, rfl⟩

end Sys2Proof.Machine
end

