-- ==== Sys2Proof/Laws/Actions.lean ====
section
/-! SUPPORT. The bits of an action word, what the peripheral reads back from it, and runs of operations. -/

namespace Sys2Proof.Machine

/-! ## The action word (R86) -/

theorem Actions.getLsbD_word (a : Actions) (i : Nat) :
    a.word.getLsbD i =
      if i = 0 then a.sen else if i = 1 then a.rsen else if i = 2 then a.pen else if i = 3 then a.rcen
      else if i = 4 then a.acken else if i = 5 then a.ackdt else if i = 6 then a.ckpRel else if i = 7 then a.ovClr
      else if i = 8 then a.wr.isSome else if i < 16 then false else (a.wr.getD 0#8).getLsbD (i - 16) := by
  simp only [Actions.word]
  change BitVec.getLsbD (w := 8 + 7 + 1 + 1 + 1 + 1 + 1 + 1 + 1 + 1 + 1) _ i = _
  simp only [BitVec.getLsbD_append, BitVec.getLsbD_ofBool, BitVec.getLsbD_zero]
  match i with
  | 0 | 1 | 2 | 3 | 4 | 5 | 6 | 7 | 8 => rfl
  | 9 | 10 | 11 | 12 | 13 | 14 | 15 => rfl
  | j + 16 => rfl

/-- The peripheral reads back the outputs the engine asserted. -/
@[simp] theorem Actions.ofWord_word (a : Actions) : Actions.ofWord a.word = a := by
  obtain ⟨sen, rsen, pen, rcen, acken, ackdt, ckpRel, ovClr, wr⟩ := a
  simp only [Actions.ofWord, Actions.getLsbD_word, Actions.mk.injEq]
  refine ⟨rfl, rfl, rfl, rfl, rfl, rfl, rfl, rfl, ?_⟩
  cases wr with
  | none => rfl
  | some v =>
    suffices h : BitVec.extractLsb' 16 8 (Actions.word ⟨sen, rsen, pen, rcen, acken, ackdt, ckpRel, ovClr, some v⟩) = v by
      simp [h]
    apply BitVec.eq_of_getLsbD_eq
    intro i hi
    simp only [BitVec.getLsbD_extractLsb', Actions.getLsbD_word, hi]
    interval_cases i <;> rfl

/-! ## The bytes on the bus -/

@[simp] theorem writtenBytes_nil : writtenBytes [] = [] := rfl

@[simp] theorem writtenBytes_append (ws vs : List ActionWord) :
    writtenBytes (ws ++ vs) = writtenBytes ws ++ writtenBytes vs := by
  simp [writtenBytes]

@[simp] theorem writtenBytes_word (a : Actions) : writtenBytes [a.word] = a.wr.toList := by
  simp only [writtenBytes, List.filterMap_cons, Actions.ofWord_word, List.filterMap_nil]
  cases a.wr <;> rfl

/-! ## Runs -/

@[simp] theorem runInstrs_nil (s : State) : runInstrs [] s = .next s := rfl

theorem runInstrs_cons {i : Instr} {is : List Instr} {s t : State} (h : exec i s = .next t) :
    runInstrs (i :: is) s = runInstrs is t := by
  simp [runInstrs, h]

theorem runInstrs_append {is js : List Instr} {s t : State} (h : runInstrs is s = .next t) :
    runInstrs (is ++ js) s = runInstrs js t := by
  induction is generalizing s with
  | nil =>
    simp only [runInstrs_nil, Host.Outcome.next.injEq] at h
    rw [h]; rfl
  | cons i is ih =>
    simp only [runInstrs, List.cons_append] at h ⊢
    split at h
    · exact ih h
    · cases h
    · cases h

end Sys2Proof.Machine
end

