-- ==== Sys2Proof/Laws/Clock.lean ====
section
/-! SUPPORT. What a step does to the clock hold and to what accounts for it: the release, awaiting_reply and last_error_code (41_slave.md R184; 60_exceptions.md
R231), said once for every slave event, with the values of the hold's small functions. -/

namespace Sys2Proof.Machine

/-! ## The hold's small functions -/

@[simp] theorem clockAfter_false (a : Actions) : clockAfter false a = false := rfl

@[simp] theorem clockAfter_released {h : Bool} {a : Actions} (r : a.ckpRel = true) : clockAfter h a = false := by
  simp [clockAfter, r]

@[simp] theorem clockAfter_kept {h : Bool} {a : Actions} (r : a.ckpRel = false) : clockAfter h a = h := by
  simp [clockAfter, r]

/-- The master never holds the clock and a master event never ends a hold (R231). -/
theorem holdAtEvent_master {s : State} (role : s.cfg.role = .master) (ev : Event) : holdAtEvent s ev = s.clockHeld := by
  simp [holdAtEvent, eventHoldsClock, eventEndsHold, role]

/-- Every slave event with BF = 1 holds the clock (R231). -/
theorem holdAtEvent_byte {s : State} (role : s.cfg.role = .slave) {ev : Event} (bf : ev.bf = true) : holdAtEvent s ev = true := by
  simp [holdAtEvent, eventHoldsClock, role, bf]

/-- A slave event without a byte ends the hold if it is a stop, may take it up for a reply byte, and else keeps it. -/
theorem holdAtEvent_noByte {s : State} (role : s.cfg.role = .slave) {ev : Event} (bf : ev.bf = false) :
    holdAtEvent s ev = ((isTxDone ev && replyByteDue s.record) || (s.clockHeld && !(ev.p && !ev.ov))) := by
  simp [holdAtEvent, eventHoldsClock, eventEndsHold, role, bf]

/-! ## One slave event -/

/-- What a slave event does to the release, awaiting_reply and last_error_code (R184). -/
structure Release (ev : Event) (w w' : Work) : Prop where
  /-- With a byte the clock is released, but for an addressed read whose reply is not staged. -/
  byte     : ev.bf = true → w'.actions.ckpRel = true ∨
    ev.ov = false ∧ ev.p = false ∧ ev.dA = false ∧ ev.rW = true ∧
      w'.record.status = Status.sSlaveSend.code ∧ w'.record.awaitingReply = true
  /-- Without a byte the clock is released only to send a reply byte. -/
  noByte   : ev.bf = false → w'.actions.ckpRel = true →
    ev.ov = false ∧ ev.p = false ∧ w.record.status = Status.sSlaveSend.code ∧ w.record.awaitingReply = false ∧
      w.record.transmitIndex.toNat < w.record.transmitLength.toNat
  /-- Without a byte a reply that was awaited stays so, but for a stop and an overrun. -/
  awaiting : ev.bf = false → w'.record.awaitingReply = w.record.awaitingReply ∨
    ev.p = true ∧ ev.ov = false ∨ ev.ov = true ∧ w'.record.lastErrorCode = ErrorCode.overrun.code
  /-- Without a byte no error but an overrun is recorded. -/
  code     : ev.bf = false →
    w'.record.lastErrorCode = w.record.lastErrorCode ∨ w'.record.lastErrorCode = ErrorCode.overrun.code
  /-- A step that releases the clock, or finds no byte, begins no wait for a reply. -/
  began    : w'.actions.ckpRel = true ∨ ev.bf = false → w'.record.awaitingReply = true → w.record.awaitingReply = true
  /-- A reply byte that is asked for is sent, and the clock released. -/
  due      : isTxDone ev = true → replyByteDue w.record = true → w'.actions.ckpRel = true

theorem slaveTransition_release {c : Config} {ev : Event} {w w' : Work} (h : slaveTransition c ev w = .ok w')
    (fresh : w.actions.ckpRel = false) : Release ev w w' := by
  rcases slaveTransition_cases h with ⟨_, hov, rfl⟩ | ⟨hov, hs, rfl⟩ | ⟨hov, hs, rfl⟩ | ⟨hov, hs, hw⟩ | ⟨hov, hs, hw⟩
  · constructor <;> cases hb : ev.bf <;> simp_all [slaveOverrun, abandon, Work.actIf, isTxDone]
  · rcases slaveIdle_cases ev w with ⟨_, h⟩ | ⟨_, _, _, h⟩ | ⟨_, _, _, _, h⟩ | ⟨_, _, _, _, _, h⟩ | ⟨_, _, _, _, _, h⟩ <;> rw [h] <;>
      constructor <;> cases hb : ev.bf <;> simp_all [slaveBegin, abandon, enterSend, Work.actIf, replyByteDue]
  · rcases slaveStarted_cases ev w.counted with ⟨_, _, h⟩ | ⟨_, _, h⟩ | ⟨_, _, h⟩ | ⟨_, _, _, _, h⟩ | ⟨_, _, _, _, h⟩ <;> rw [h] <;>
      constructor <;> cases hb : ev.bf <;> simp_all [abandon, enterSend, Work.actIf, replyByteDue]
  · rcases slaveRcvData_cases hw with ⟨hp, hb, v, hv, rfl⟩ | ⟨hp, hb, hd, hl, v, hv, rfl⟩ | ⟨hp, hb, rfl⟩ | ⟨hp, hb, hd, hl, rfl⟩ |
      ⟨hb, hd, hl, rfl⟩ | ⟨hp, hb, hd, hrw, hv⟩ | ⟨hb, hd, hl, rfl⟩
    · obtain ⟨_, _, _, _, rfl⟩ := messageComplete_inv hv
      constructor <;> simp_all [replyByteDue]
    · obtain ⟨_, _, _, _, rfl⟩ := messageComplete_inv hv
      constructor <;> simp_all [replyByteDue]
    · constructor <;> simp_all [replyByteDue]
    · constructor <;> simp_all [replyByteDue]
    · constructor <;> simp_all [abandon, replyByteDue]
    · rcases dispatch_cases hv with ⟨_, _, _, _, _, rfl⟩ | ⟨_, _, _, _, _, rfl⟩ | ⟨_, _, _, _, _, _, _, _, rfl⟩ | rfl
      · constructor <;> simp_all [enterSend, replyByteDue]
      · cases hsm : w.samples <;> constructor <;> simp_all [enterSend, Work.tryReceive, replyByteDue]
      · constructor <;> simp_all [enterSend, replyByteDue]
      · constructor <;> simp_all [enterSend, replyByteDue]
    · constructor <;> simp_all [abandon, replyByteDue]
  · rcases slaveSend_cases hw with ⟨hp, rfl⟩ | ⟨hp, hb, rfl⟩ | ⟨hp, hb, ha, rfl⟩ | ⟨hp, hb, ha, hl, b, hbr, rfl⟩ | ⟨hp, hb, ha, hl, rfl⟩
    · constructor <;> cases hb : ev.bf <;> simp_all [Work.actIf, isTxDone]
    · constructor <;> simp_all [abandon, isTxDone]
    · constructor <;> simp_all [replyByteDue]
    · constructor <;> simp_all
    · constructor <;> simp_all [replyByteDue]

/-- The state after a slave event, as far as the clock goes: R184's release, and the hold the engine found and did not release. -/
theorem slaveEvent_clock {ev : Event} {s t : State} (h : exec (.sOnEvent ev) s = .next t) :
    s.cfg.role = .slave ∧ t.cfg = s.cfg ∧
    ∃ w, Release ev (Work.start s) w ∧ t.actionOut = s.actionOut ++ [w.actions.word] ∧
      t.clockHeld = clockAfter (holdAtEvent s ev) w.actions ∧ t.record.status = w.record.status ∧
      t.record.awaitingReply = w.record.awaitingReply ∧ t.record.lastErrorCode = w.record.lastErrorCode := by
  obtain ⟨role, w, hw, rfl⟩ := execSOnEvent_next h
  obtain ⟨_, actions, record⟩ := diagnosticCheck_frame s.cfg w
  refine ⟨role, rfl, w, slaveTransition_release hw rfl, by simp [actions], by simp [actions], ?_, ?_, ?_⟩ <;>
    rw [State.withWork_record, record]

/-! ## Commands and master events -/

/-- What a command does to the hold and to what accounts for it: a reply accepted ends both, every other command keeps both. -/
theorem command_clock {i : Instr} {s t : State} (command : i.isCommand = true) (h : exec i s = .next t) :
    t.record.lastErrorCode = s.record.lastErrorCode ∧ t.cfg = s.cfg ∧
    ((t.clockHeld = s.clockHeld ∧ t.record.awaitingReply = s.record.awaitingReply ∧
        ((∀ payload, i ≠ .sBeginReply payload) ∨ t.resultOut ≠ s.resultOut ++ [.accepted])) ∨
      (t.clockHeld = false ∧ t.record.awaitingReply = false ∧ t.resultOut = s.resultOut ++ [.accepted] ∧
        ∃ payload, i = .sBeginReply payload)) := by
  rcases command_cases command h with ⟨r, hr, rfl⟩ | ⟨a, p, rfl, _, _, _, _, rfl⟩ | ⟨n, rfl, _, _, _, _, rfl⟩ |
      ⟨first, rest, rfl, _, _, _, _, rfl⟩
  · simp_all
  · simp
  · simp [startRead]
  · simp [Work.staged]

/-- A master event neither releases the clock nor touches the hold or awaiting_reply (R231, R33). -/
theorem masterEvent_clock {ev : Event} {s t : State} (h : exec (.mOnEvent ev) s = .next t) :
    s.cfg.role = .master ∧ t.cfg = s.cfg ∧ t.clockHeld = s.clockHeld ∧ t.record.awaitingReply = s.record.awaitingReply := by
  obtain ⟨role, w, hw, rfl⟩ := execMOnEvent_next h
  suffices k : w.actions.ckpRel = false ∧ w.record.awaitingReply = s.record.awaitingReply by
    exact ⟨role, rfl, by simp [holdAtEvent_master role, k.1], k.2⟩
  rcases masterEvent_cases hw with ⟨_, rfl⟩ | ⟨_, rfl⟩ | ⟨_, _, rfl⟩ | ⟨_, _, _, b, _, rfl⟩ | ⟨_, _, _, rfl⟩ | ⟨_, rfl⟩ | ⟨_, rfl⟩ |
    ⟨_, _, _, rfl⟩ | ⟨_, _, _, bytes, _, _, rfl⟩ | ⟨_, rfl⟩
  · simp
  · simp [masterWriteAddr]
  · simp [masterRetry]
  · simp
  · simp only [masterExhausted, repStart]; split <;> simp [startRead]
  · simp only [repStart]; split <;> simp [startRead]
  · simp only [masterRcvData]; split <;> simp
  · simp
  · simp
  · simp [masterEndWrite]

end Sys2Proof.Machine
end

