-- ==== Sys2Proof/Laws/Decode.lean ====
section
/-! SUPPORT. What the fields of the command and event words give back, and the one spec lemma of the command decoder. -/

namespace Sys2Proof

/-! ## The event word (R84) -/

theorem getLsbD_toWord (e : Event) (i : Nat) :
    e.toWord.getLsbD i =
      if i = 0 then e.bf else if i = 1 then e.s else if i = 2 then e.p else if i = 3 then e.dA
      else if i = 4 then e.rW else if i = 5 then e.ov else if i = 6 then e.ackstat else if i = 7 then e.reserved
      else e.data.getLsbD (i - 8) := by
  simp only [Event.toWord]
  change BitVec.getLsbD (w := 8 + 1 + 1 + 1 + 1 + 1 + 1 + 1 + 1) _ i = _
  simp only [BitVec.getLsbD_append, BitVec.getLsbD_ofBool]
  match i with
  | 0 | 1 | 2 | 3 | 4 | 5 | 6 | 7 => rfl
  | j + 8 => rfl

theorem event_ofWord_toWord (e : Event) : Event.ofWord e.toWord = e := by
  obtain ⟨bf, s, p, dA, rW, ov, ackstat, reserved, data⟩ := e
  simp only [Event.ofWord, Event.mk.injEq, getLsbD_toWord]
  refine ⟨rfl, rfl, rfl, rfl, rfl, rfl, rfl, rfl, ?_⟩
  apply BitVec.eq_of_getLsbD_eq
  intro i hi
  simp only [BitVec.getLsbD_extractLsb', getLsbD_toWord, hi]
  grind

theorem event_toWord_ofWord (w : EventWord) : (Event.ofWord w).toWord = w := by
  apply BitVec.eq_of_getLsbD_eq
  intro i hi
  simp only [getLsbD_toWord, Event.ofWord, BitVec.getLsbD_extractLsb']
  interval_cases i <;> rfl

/-! ## The command word (R81) -/

theorem getLsbD_commandWordOfBytes (b0 b1 b2 b3 : Byte) (i : Nat) :
    (commandWordOfBytes b0 b1 b2 b3).getLsbD i =
      if i < 8 then b0.getLsbD i else if i < 16 then b1.getLsbD (i - 8) else if i < 24 then b2.getLsbD (i - 16)
      else b3.getLsbD (i - 24) := by
  simp only [commandWordOfBytes]
  change BitVec.getLsbD (w := 8 + 8 + 8 + 8) _ i = _
  simp only [BitVec.getLsbD_append]
  grind

theorem getLsbD_commandWord (op : BitVec 4) (a n : Byte) (i : Nat) :
    (commandWord op a n).getLsbD i =
      if i < 4 then op.getLsbD i else if i < 8 then false else if i < 16 then a.getLsbD (i - 8)
      else if i < 24 then n.getLsbD (i - 16) else false := by
  rw [commandWord]
  change BitVec.getLsbD (w := 8 + 8 + 8 + 4 + 4) _ i = _
  simp only [BitVec.getLsbD_append, BitVec.getLsbD_zero]
  grind

theorem commandWordOfBytes_bytes (w : CommandWord) :
    commandWordOfBytes (w.extractLsb' 0 8) (w.extractLsb' 8 8) (w.extractLsb' 16 8) (w.extractLsb' 24 8) = w := by
  apply BitVec.eq_of_getLsbD_eq
  intro i hi
  simp only [getLsbD_commandWordOfBytes, BitVec.getLsbD_extractLsb']
  grind

theorem bytesOfCommandWord_ofBytes (b0 b1 b2 b3 : Byte) :
    bytesOfCommandWord (commandWordOfBytes b0 b1 b2 b3) = [b0, b1, b2, b3] := by
  simp only [bytesOfCommandWord, List.cons.injEq, and_true]
  refine ⟨?_, ?_, ?_, ?_⟩ <;>
    (apply BitVec.eq_of_getLsbD_eq
     intro i hi
     simp only [BitVec.getLsbD_extractLsb', getLsbD_commandWordOfBytes]
     grind)

@[simp] theorem opField_commandWord (op : BitVec 4) (a n : Byte) : opField (commandWord op a n) = op := by
  apply BitVec.eq_of_getLsbD_eq
  intro i hi
  simp only [opField, BitVec.getLsbD_extractLsb', getLsbD_commandWord]
  grind

@[simp] theorem aField_commandWord (op : BitVec 4) (a n : Byte) : aField (commandWord op a n) = a := by
  apply BitVec.eq_of_getLsbD_eq
  intro i hi
  simp only [aField, BitVec.getLsbD_extractLsb', getLsbD_commandWord]
  grind

@[simp] theorem nField_commandWord (op : BitVec 4) (a n : Byte) : nField (commandWord op a n) = n := by
  apply BitVec.eq_of_getLsbD_eq
  intro i hi
  simp only [nField, BitVec.getLsbD_extractLsb', getLsbD_commandWord]
  grind

@[simp] theorem reservedLow_commandWord (op : BitVec 4) (a n : Byte) : reservedLow (commandWord op a n) = 0#4 := by
  apply BitVec.eq_of_getLsbD_eq
  intro i hi
  simp only [reservedLow, BitVec.getLsbD_extractLsb', getLsbD_commandWord, BitVec.getLsbD_zero]
  grind

@[simp] theorem reservedHigh_commandWord (op : BitVec 4) (a n : Byte) : reservedHigh (commandWord op a n) = 0#8 := by
  apply BitVec.eq_of_getLsbD_eq
  intro i hi
  simp only [reservedHigh, BitVec.getLsbD_extractLsb', getLsbD_commandWord, BitVec.getLsbD_zero]
  grind

/-- A word with its reserved bits zero is its three fields. -/
theorem commandWord_fields (w : CommandWord) (low : reservedLow w = 0#4) (high : reservedHigh w = 0#8) :
    commandWord (opField w) (aField w) (nField w) = w := by
  apply BitVec.eq_of_getLsbD_eq
  intro i hi
  have l := congrArg (BitVec.getLsbD · (i - 4)) low
  have h := congrArg (BitVec.getLsbD · (i - 24)) high
  simp only [reservedLow, reservedHigh, BitVec.getLsbD_extractLsb', BitVec.getLsbD_zero] at l h
  simp only [getLsbD_commandWord, opField, aField, nField, BitVec.getLsbD_extractLsb']
  grind

@[simp] theorem length_bytesOfCommandWord (w : CommandWord) : (bytesOfCommandWord w).length = 4 := rfl

/-- The decoder on a stream that begins with the four bytes of a word (R88, R90). -/
theorem decodeCommand_bytes (role : Role) (w : CommandWord) (tail : List Byte) :
    decodeCommand role (bytesOfCommandWord w ++ tail) =
      if tail.length < dataPhaseLength w then .incomplete
      else match illegalWord role w with
        | some why => .illegal why (tail.drop (dataPhaseLength w))
        | none     => .instr (commandOf w (tail.take (dataPhaseLength w))) (tail.drop (dataPhaseLength w)) := by
  simp only [bytesOfCommandWord, List.cons_append, List.nil_append, decodeCommand, commandWordOfBytes_bytes] <;> rfl

/-- A stream of four bytes or more begins with the bytes of a word. -/
theorem stream_eq_word (b0 b1 b2 b3 : Byte) (tail : List Byte) :
    b0 :: b1 :: b2 :: b3 :: tail = bytesOfCommandWord (commandWordOfBytes b0 b1 b2 b3) ++ tail := by
  rw [bytesOfCommandWord_ofBytes]; rfl

/-- A stream that decodes to anything holds four bytes. -/
theorem decodeCommand_short (role : Role) (bytes : List Byte) (short : bytes.length < 4) :
    decodeCommand role bytes = .incomplete := by
  match bytes with
  | [] => rfl
  | [_] => rfl
  | [_, _] => rfl
  | [_, _, _] => rfl
  | _ :: _ :: _ :: _ :: _ => simp only [List.length_cons] at short; omega

/-- What a legal word satisfies (R90). -/
theorem illegalWord_none {role : Role} {w : CommandWord} (legal : illegalWord role w = none) :
    (opField w = opBeginWrite ∨ opField w = opBeginRead ∨ opField w = opBeginReply) ∧
    ((opField w = opBeginReply → role = .slave) ∧ (opField w ≠ opBeginReply → role = .master)) ∧
    reservedLow w = 0#4 ∧ reservedHigh w = 0#8 ∧ (opField w ≠ opBeginWrite → aField w = 0#8) := by
  simp only [illegalWord] at legal
  split at legal <;> try contradiction
  split at legal <;> try contradiction
  split at legal <;> try contradiction
  split at legal <;> try contradiction
  cases role <;> grind

end Sys2Proof
end

