-- ==== Sys2Proof/Laws/PerInstr.lean ====
section
/-! SUPPORT. Per-instruction family `Framing`: what an instruction takes on its port. -/

namespace Sys2Proof.Laws.Framing

/-- A well-formed command is four bytes of word and the data phase that word announces, nothing more (R81, R88); an event is one word
that reads back as the event it was built from (R84). -/
def Statement (i : Instr) : Prop :=
  i.wf = true →
    match encode i with
    | .command bytes =>
      i.isCommand = true ∧ ∃ (w : CommandWord) (data : List Byte),
        bytes = bytesOfCommandWord w ++ data ∧ data.length = dataPhaseLength w ∧ illegalWord i.role w = none
    | .event w => i.isCommand = false ∧ decodeEvent i.role w = i

theorem mBeginWrite (address : Byte) (payload : List Byte) : Statement (.mBeginWrite address payload) := by
  intro wf
  simp only [Instr.wf, payloadFits, decide_eq_true_eq] at wf
  refine ⟨rfl, commandWord opBeginWrite address (BitVec.ofNat 8 payload.length), payload, rfl, ?_, ?_⟩
  · simp [dataPhaseLength]; omega
  · simp [illegalWord, Instr.role, opBeginWrite, opBeginReply]

theorem mBeginRead (length : Byte) : Statement (.mBeginRead length) := by
  intro _
  refine ⟨rfl, commandWord opBeginRead 0#8 length, [], (List.append_nil _).symm, ?_, ?_⟩
  · simp [dataPhaseLength, opBeginRead, opBeginWrite, opBeginReply]
  · simp [illegalWord, Instr.role, opBeginRead, opBeginWrite, opBeginReply]

theorem sBeginReply (payload : List Byte) : Statement (.sBeginReply payload) := by
  intro wf
  simp only [Instr.wf, payloadFits, decide_eq_true_eq] at wf
  refine ⟨rfl, commandWord opBeginReply 0#8 (BitVec.ofNat 8 payload.length), payload, rfl, ?_, ?_⟩
  · simp [dataPhaseLength]; omega
  · simp [illegalWord, Instr.role, opBeginWrite, opBeginReply]

theorem mOnEvent (ev : Event) : Statement (.mOnEvent ev) := by
  intro _
  exact ⟨rfl, by simp [decodeEvent, Instr.role, event_ofWord_toWord]⟩

theorem sOnEvent (ev : Event) : Statement (.sOnEvent ev) := by
  intro _
  exact ⟨rfl, by simp [decodeEvent, Instr.role, event_ofWord_toWord]⟩

end Sys2Proof.Laws.Framing
end

