-- ==== Sys2Proof/Tests/Slice0.lean ====
section
/-! SUPPORT. The model's own tests: the WellFormed smoke test, the spec's words, one or two steps per operation with the results of 95_test_vectors.md,
and for every obligation with hypotheses a state that meets them. -/

namespace Sys2Proof.Tests

open Sys2Proof Sys2Proof.Machine

/-! ## Helpers -/

/-- The reset state of 95_test_vectors.md in a role. -/
def start (role : Role) : State := State.resetOf (Config.vectors role)

/-- A Record of the role with the status given and both buffers written throughout: byte i of either is i + 1. -/
def busy (role : Role) (st : Status) (receiveLength receiveIndex transmitLength transmitIndex : Byte) : State :=
  { start role with
    record :=
      { (start role).record with
        status         := st.code
        slaveAddress   := 0x90#8
        rxb            := [(0, 1#8), (1, 2#8), (2, 3#8), (3, 4#8), (4, 5#8), (5, 6#8), (6, 7#8), (7, 8#8)]
        txb            := [(0, 1#8), (1, 2#8), (2, 3#8), (3, 4#8), (4, 5#8), (5, 6#8), (6, 7#8), (7, 8#8)]
        receiveLength  := receiveLength
        receiveIndex   := receiveIndex
        transmitLength := transmitLength
        transmitIndex  := transmitIndex } }

/-- A slave that awaits its reply. -/
def awaiting : State :=
  { busy .slave .sSlaveSend 0#8 0#8 0#8 0#8 with
    record := { (busy .slave .sSlaveSend 0#8 0#8 0#8 0#8).record with awaitingReply := true } }

/-- The same with the clock held, as the addressed read left it. -/
def held : State := { awaiting with clockHeld := true }

/-- A slave that has received one message whose first byte is given. -/
def received (tag : Byte) : State :=
  { busy .slave .sRcvData 1#8 0#8 0#8 0#8 with
    record := { (busy .slave .sRcvData 1#8 0#8 0#8 0#8).record with rxb := [(0, tag)] } }

/-- The state with one command's bytes on the command port, and its turn. -/
def giving (s : State) (bytes : List Byte) : State := { s with schedule := [.command], commandIn := bytes }

/-- The state with one event word on the event port, and its turn. -/
def seeing (s : State) (w : EventWord) : State := { s with schedule := [.event], eventIn := [w] }

/-- One field of the state after one step. -/
def after {α : Type} (s : State) (f : State → α) : Option α := (nextOf (step s)).map f

/-- The restart-read of R176. -/
def restart : Event := evSaddrR 0x91#8

/-! ## WellFormed: the one check, and a term it refuses in each constructor it applies to -/

def tooLong : List Byte := List.replicate 256 0#8

set_option maxRecDepth 4000 in
theorem test_wf_refuses_long_write : Instr.wf (.mBeginWrite 0x90#8 tooLong) = false := by decide
set_option maxRecDepth 4000 in
theorem test_wf_refuses_long_reply : Instr.wf (.sBeginReply tooLong) = false := by decide
set_option maxRecDepth 4000 in
theorem test_wf_accepts_longest_write : Instr.wf (.mBeginWrite 0x90#8 (List.replicate 255 0#8)) = true := by decide

/-! ## Decoding: words written out from R81 and R84 (95_test_vectors.md §2.1) -/

theorem test_decode_begin_write :
    decodeCommand .master [0x01#8, 0x90#8, 0x02#8, 0x00#8, 0x10#8, 0x20#8, 0x77#8] =
      .instr (.mBeginWrite 0x90#8 [0x10#8, 0x20#8]) [0x77#8] := by decide
theorem test_decode_begin_read :
    decodeCommand .master [0x02#8, 0x00#8, 0x02#8, 0x00#8, 0x77#8] = .instr (.mBeginRead 2#8) [0x77#8] := by decide
theorem test_decode_begin_reply :
    decodeCommand .slave [0x03#8, 0x00#8, 0x02#8, 0x00#8, 0x07#8, 0x08#8] = .instr (.sBeginReply [0x07#8, 0x08#8]) [] := by decide
theorem test_decode_master_event : decodeEvent .master 0x0040#16 = .mOnEvent evNack := by decide
theorem test_decode_slave_event : decodeEvent .slave 0x9113#16 = .sOnEvent (evSaddrR 0x91#8) := by decide
theorem test_decode_stop_data : Event.ofWord 0x420D#16 = evStopData 0x42#8 := by decide
theorem test_decode_overrun : Event.ofWord 0x4429#16 = evOv 0x44#8 := by decide

/-- E-5: the illegal command takes its data phase with it. -/
theorem test_decode_reserved_bits :
    decodeCommand .master (bytesOfCommandWord 0x00029011#32 ++ [0x10#8, 0x20#8, 0x77#8]) =
      .illegal .reservedBits [0x77#8] := by decide
theorem test_decode_reserved_op : decodeCommand .master (bytesOfCommandWord 0#32) = .illegal .reservedOp [] := by decide
theorem test_decode_address_field :
    decodeCommand .master (bytesOfCommandWord 0x00029002#32) = .illegal .addressField [] := by decide
theorem test_decode_other_role :
    decodeCommand .master (bytesOfCommandWord 0x00010003#32 ++ [0x55#8]) = .illegal .opOfOtherRole [] := by decide
theorem test_table_word_begin_reply : decodeTableWord 32 0x00020003 = some (.sBeginReply [0#8, 0#8]) := by decide
theorem test_table_word_event : decodeTableWord 16 0x420D = some (.mOnEvent (evStopData 0x42#8)) := by decide

/-- The table's word, delivered at reset, is what the next step runs. -/
theorem test_withFetchWord_runs :
    after (State.reset.withFetchWord 32 0x00028001) (fun t => t.record.status) = some Status.mWriteAddr.code ∧
    after (State.reset.withFetchWord 32 0x00020003) (fun t => t.resultOut) = some [.invalid] ∧
    after (State.reset.withFetchWord 16 0x0000) (fun t => t.actionOut) = some [0#24] := by decide

/-- E-15 to E-18: action words. -/
theorem test_action_words :
    Actions.word { wr := some 0x90#8 } = 0x900100#24 ∧ Actions.word { wr := some 0#8, ckpRel := true } = 0x000140#24 ∧
    Actions.word { acken := true, ackdt := true } = 0x000030#24 ∧
    Actions.word { ovClr := true, ckpRel := true } = 0x0000C0#24 := by decide

/-! ## One step per operation -/

/-- M-C1. -/
theorem test_begin_write :
    after (giving (start .master) (bytesOfCommandWord 0x00029001#32 ++ [0x10#8, 0x20#8]))
      (fun t => (t.record.txb.take 8, t.record.transmitLength, t.record.slaveAddress, t.actionOut)) =
    some ([(0, 0x10#8), (1, 0x20#8)], 2#8, 0x90#8, [0x000001#24]) := by decide
/-- M-C7: INVALID before BUSY. -/
theorem test_begin_write_invalid_first :
    after (giving (busy .master .mWriteAddr 0#8 0#8 0#8 0#8) (bytesOfCommandWord 0x00019101#32 ++ [0x10#8]))
      (fun t => (t.resultOut, t.record.status)) = some ([.invalid], Status.mWriteAddr.code) := by decide
/-- M-C8. -/
theorem test_begin_read :
    after (giving (busy .master .idle 0#8 0#8 0#8 0#8) (bytesOfCommandWord 0x00020002#32))
      (fun t => (t.record.slaveAddress, t.record.receiveLength, t.record.receiveIndex, t.actionOut)) =
    some (0x91#8, 2#8, 0#8, [0x000002#24]) := by decide
/-- M-C10: one byte more than RX_CAP. -/
theorem test_begin_read_too_long :
    after (giving (start .master) (bytesOfCommandWord 0x00090002#32)) (fun t => t.resultOut) = some [.invalid] := by decide
/-- P6, the reply [0x07, 0x08]. -/
theorem test_begin_reply :
    after (giving awaiting (bytesOfCommandWord 0x00020003#32 ++ [0x07#8, 0x08#8]))
      (fun t => (t.record.transmitLength, t.record.transmitIndex, t.record.awaitingReply, t.actionOut)) =
    some (2#8, 1#8, false, [0x070140#24]) := by decide
/-- R185: no reply is expected in IDLE. -/
theorem test_begin_reply_unexpected :
    after (giving (start .slave) (bytesOfCommandWord 0x00020003#32 ++ [0x07#8, 0x08#8])) (fun t => t.resultOut) =
      some [.invalid] := by decide
/-- M-E14 with RXB[0] = 1: the last byte of a read. -/
theorem test_master_event_last_byte :
    after (seeing (busy .master .mAck 2#8 1#8 0#8 0#8) 0xC301#16)
      (fun t => (t.actionOut, t.messageOut, t.record.status, t.record.receiveIndex)) =
    some ([0x000030#24], [msg .readOk [1#8, 0xC3#8]], Status.mEndWrite.code, 2#8) := by decide
/-- M-E6: the tally wraps. -/
theorem test_master_event_retry_wraps :
    after (seeing { busy .master .mWriteData 0#8 0#8 2#8 1#8 with
        record := { (busy .master .mWriteData 0#8 0#8 2#8 1#8).record with errorCount := 255#8 } } 0x0040#16)
      (fun t => (t.record.errorCount, t.record.lastErrorCode, t.record.transmitIndex, t.record.status, t.actionOut)) =
    some (0#8, 0x05#8, 0#8, Status.mWriteAddr.code, [0x000002#24]) := by decide
/-- S-E5: the fifth error is reported. -/
theorem test_slave_event_diagnostic :
    after (seeing { start .slave with record := { (start .slave).record with errorCount := 4#8 } } 0x000B#16)
      (fun t => (t.record.errorCount, t.messageOut, t.actionOut)) =
    some (0#8, [msg .diag [0x05#8, 0x02#8, 0x01#8]], [0x000040#24]) := by decide
/-- P4: the answer to [0xAA] at a restart-read. -/
theorem test_slave_event_gather :
    after (seeing (received 0xAA#8) 0x9113#16) (fun t => (t.record.txb.take 3, t.messageOut, t.actionOut)) =
    some ([(0, 0x00#8), (1, 0x01#8), (2, 0x01#8)],
      [{ tag := 0x07#8, payload := [0xAA#8, 0#8, 0#8, 0#8, 0#8] }], [0x000140#24]) := by decide

/-! ## A witness for every obligation with hypotheses -/

/-- The role and the status of a state, as the statements' first premises have them. -/
def inState (s : State) (role : Role) (st : Status) : Bool :=
  decide (s.cfg.role = role) && decide (s.record.status = st.code)

set_option maxRecDepth 4000 in
theorem witness_DecodingAnEncodingGivesTheInstruction :
    Instr.wf (.mBeginWrite 0xFE#8 (List.replicate 255 0xFF#8)) = true ∧ Instr.wf (.mBeginRead 255#8) = true ∧
    Instr.wf (.sBeginReply []) = true ∧ Instr.wf (.mOnEvent evNack) = true ∧
    encode (.sBeginReply []) = .command [0x03#8, 0#8, 0#8, 0#8] := by decide

theorem witness_EncodingsAreUnique :
    decodeCommand .master [0x01#8, 0x90#8, 0x01#8, 0x00#8, 0x10#8, 0x77#8] = .instr (.mBeginWrite 0x90#8 [0x10#8]) [0x77#8] := by
  decide

theorem witness_CommandLengthFollowsFromTheWord :
    ([0#8] : List Byte).length < ((0x00029001#32).extractLsb' 16 8).toNat ∧
    ((0x00029001#32).extractLsb' 16 8).toNat ≤ ([0#8, 0#8] : List Byte).length ∧
    ((0x00029001#32).extractLsb' 0 4).toNat = 1 ∧ ((0x00020002#32).extractLsb' 0 4).toNat = 2 ∧
    ((0x00020003#32).extractLsb' 0 4).toNat = 3 := by decide

/-- The premises of IllegalCommandsAreInvalid but for the ground. -/
def illegalPremises (s : State) (w : CommandWord) (data : List Byte) : Prop :=
  s.cfg.legal = true ∧ launchFault s = none ∧ s.schedule = [.command] ∧
  s.commandIn = bytesOfCommandWord w ++ data ++ [] ∧ data.length = dataPhaseLength w

theorem witness_IllegalCommandsAreInvalid_op :
    illegalPremises (giving (start .master) (bytesOfCommandWord 0#32)) 0#32 [] ∧
    illegalPremises (giving (start .slave) (bytesOfCommandWord 4#32)) 4#32 [] ∧
    ((0#32).extractLsb' 0 4).toNat = 0 ∧ ((4#32).extractLsb' 0 4).toNat = 4 := by
  unfold illegalPremises; decide
theorem witness_IllegalCommandsAreInvalid_role :
    illegalPremises (giving (start .slave) (bytesOfCommandWord 0x00019001#32 ++ [1#8])) 0x00019001#32 [1#8] ∧
    illegalPremises (giving (start .slave) (bytesOfCommandWord 0x00010002#32)) 0x00010002#32 [] ∧
    illegalPremises (giving (start .master) (bytesOfCommandWord 0x00010003#32 ++ [1#8])) 0x00010003#32 [1#8] := by
  unfold illegalPremises; decide
theorem witness_IllegalCommandsAreInvalid_fields :
    illegalPremises (giving (start .master) (bytesOfCommandWord 0x00019011#32 ++ [1#8])) 0x00019011#32 [1#8] ∧
    illegalPremises (giving (start .master) (bytesOfCommandWord 0x01020002#32)) 0x01020002#32 [] ∧
    illegalPremises (giving (start .master) (bytesOfCommandWord 0x00029002#32)) 0x00029002#32 [] ∧
    (0x00019011#32).extractLsb' 4 4 ≠ 0#4 ∧ (0x01020002#32).extractLsb' 24 8 ≠ 0#8 ∧
    (0x00029002#32).extractLsb' 8 8 ≠ 0#8 := by
  unfold illegalPremises; decide

theorem witness_StepRunsTheDecodedInstruction :
    (start .master).cfg.legal = true ∧
    launchFault (giving (start .master) (bytesOfCommandWord 0x00020002#32)) = none ∧
    decodeCommand .master (bytesOfCommandWord 0x00020002#32) = .instr (.mBeginRead 2#8) [] ∧
    launchFault (seeing (start .slave) 0x9003#16) = none ∧ (seeing (start .slave) 0x9003#16).eventIn = [0x9003#16] := by decide

theorem witness_StepWithoutAnInstruction_faults :
    (start .master).cfg.legal = true ∧
    statusOfRole .master (busy .master .sStarted 0#8 0#8 0#8 0#8).record.status = false ∧
    statusOfRole .slave (busy .slave .mAck 0#8 0#8 0#8 0#8).record.status = false ∧
    statusOfRole .master Status.mAck.code = true ∧
    (busy .master .mAck 1#8 2#8 0#8 0#8).record.receiveLength.toNat < (2#8).toNat ∧
    (busy .master .mAck 9#8 0#8 0#8 0#8).cfg.rxCap < (9#8).toNat ∧
    (busy .master .mAck 0#8 0#8 1#8 2#8).record.transmitLength.toNat < (2#8).toNat ∧
    (busy .master .mAck 0#8 0#8 9#8 0#8).cfg.txCap < (9#8).toNat ∧
    statusOfRole .slave Status.sRcvData.code = true ∧ (busy .slave .sRcvData 8#8 0#8 0#8 0#8).cfg.rxCap - 1 < (8#8).toNat ∧
    (start .slave).cfg.errThreshold ≤ (5#8).toNat ∧
    launchFault { awaiting with record := { awaiting.record with status := Status.sStarted.code } } = some .invariantBroken ∧
    Status.sStarted.code ≠ Status.sSlaveSend.code := by decide
theorem witness_StepWithoutAnInstruction_nothing :
    launchFault (start .master) = none ∧ (start .master).schedule = [] ∧
    launchFault (giving (start .master) [0x01#8, 0x90#8]) = none ∧
    decodeCommand .master [0x01#8, 0x90#8] = .incomplete ∧
    launchFault { start .slave with schedule := [.event] } = none ∧ (start .slave).eventIn = [] := by decide

theorem witness_IllegalConfigurationsAreRefused :
    (State.resetOf { Config.reference with rxCap := 1 }).cfg.rxCap < 2 ∧
    (State.resetOf { Config.reference with txCap := 4 }).cfg.txCap < 5 ∧
    (State.resetOf { Config.reference with errThreshold := 0 }).cfg.errThreshold < 1 ∧
    (State.resetOf { Config.reference with tagMove := 0xAA#8 }).cfg.tagMove = 0xAA#8 ∧
    (State.resetOf { Config.reference with tagMove := 0xAB#8 }).cfg.tagMove = 0xAB#8 := by decide

theorem witness_StateAfterReset : (Config.vectors .master).role = .master ∧ (Config.vectors .slave).role = .slave := by decide

theorem witness_ResetMeetsTheInvariant :
    (Config.vectors .master).legal = true ∧ (Config.vectors .slave).legal = true ∧
    Config.legal ⟨.slave, 2, 5, 1, 0x00#8, 0xAC#8, [0#8, 0#8, 0#8]⟩ = true ∧
    Config.legal ⟨.slave, 255, 255, 255, 0xFE#8, 0x00#8, [0#8, 0#8, 0#8]⟩ = true := by decide

theorem witness_EveryStepKeepsTheInvariant :
    (seeing (busy .master .mAck 2#8 1#8 2#8 2#8) 0xC301#16).Inv ∧
    ∃ t, step (seeing (busy .master .mAck 2#8 1#8 2#8 2#8) 0xC301#16) = .next t := ⟨by decide, _, rfl⟩
/-- A hold with its reply awaited, one left by U7, and no hold: a step follows each. -/
theorem witness_EveryStepKeepsTheInvariant_hold :
    (seeing held 0x0004#16).HoldAccounted ∧ (∃ t, step (seeing held 0x0004#16) = .next t) ∧
    { seeing (start .slave) 0x0002#16 with
      clockHeld := true, record := { (start .slave).record with lastErrorCode := 0x03#8 } }.HoldAccounted ∧
    (start .master).HoldAccounted := ⟨by decide, ⟨_, rfl⟩, by decide, by decide⟩

theorem witness_NoStepStopsUnderTheInvariant :
    (seeing (received 0xAC#8) 0x9113#16).Inv ∧ (giving awaiting (bytesOfCommandWord 0x00000003#32)).Inv := by decide

theorem witness_NoFaultIsReachable : Reachable (State.resetOf (Config.vectors .slave)) := .reset _ (by decide)

theorem witness_BufferAccess :
    7 < capacity (Config.vectors .master) .rx ∧ Memory.read (busy .master .mAck 0#8 0#8 0#8 0#8).record.rxb 7 = some 8#8 ∧
    capacity (Config.vectors .master) .rx ≤ 8 ∧ capacity (Config.vectors .master) .tx ≤ 8 := by decide

theorem witness_UnwrittenBytesFault :
    0 < capacity (Config.vectors .master) .tx ∧ Memory.read (start .master).record.txb 0 = none := by decide

theorem witness_ActionsFollowThePortOrder :
    (∃ t, exec (.mOnEvent evAck) (busy .master .mRcvData 2#8 0#8 0#8 0#8) = .next t) ∧
    (∃ t, exec (.mOnEvent evAck) (busy .master .mAck 1#8 0#8 0#8 0#8) = .next t) := ⟨⟨_, rfl⟩, ⟨_, rfl⟩⟩

theorem witness_OneMessageAtMostPerStep :
    (∃ t, step (seeing (received 0xAA#8) 0x9113#16) = .next t) ∧ fetch (seeing (received 0xAA#8) 0x9113#16) ≠ .nothing :=
  ⟨⟨_, rfl⟩, by decide⟩

theorem witness_FieldsThatNoStepWrites :
    (∃ t, step (seeing (busy .slave .sRcvData 1#8 0#8 0#8 0#8) 0x3309#16) = .next t) ∧
    (∃ t, step (seeing (busy .master .mAck 2#8 0#8 0#8 0#8) 0x5A01#16) = .next t) ∧
    (∃ t, exec (.mOnEvent evNack) (busy .master .mAck 2#8 0#8 0#8 0#8) = .next t) := ⟨⟨_, rfl⟩, ⟨_, rfl⟩, ⟨_, rfl⟩⟩

theorem witness_BeginWrite :
    (0x91#8).getLsbD 0 = true ∧ (start .master).cfg.txCap < (List.replicate 9 0#8).length ∧
    (0x90#8).getLsbD 0 = false ∧ (List.replicate 8 0#8).length ≤ (start .master).cfg.txCap ∧
    inState (busy .master .mWriteData 0#8 0#8 0#8 0#8) .master .mWriteData = true ∧
    Status.mWriteData.code ≠ Status.idle.code ∧ inState (start .master) .master .idle = true := by decide

theorem witness_BeginRead :
    inState (start .master) .master .idle = true ∧ (start .master).cfg.rxCap < (9#8).toNat ∧
    8#8 ≠ 0#8 ∧ (8#8).toNat ≤ (start .master).cfg.rxCap ∧
    inState (busy .master .mAck 0#8 0#8 0#8 0#8) .master .mAck = true ∧ Status.mAck.code ≠ Status.idle.code := by decide

theorem witness_BeginReply :
    (start .slave).cfg.role = .slave ∧ (start .slave).cfg.txCap < 9 ∧ (start .slave).record.status ≠ Status.sSlaveSend.code ∧
    (busy .slave .sSlaveSend 0#8 0#8 0#8 0#8).record.awaitingReply = false ∧
    awaiting.cfg.role = .slave ∧ 1 ≤ (List.replicate 8 7#8).length ∧ (List.replicate 8 7#8).length ≤ awaiting.cfg.txCap ∧
    awaiting.record.status = Status.sSlaveSend.code ∧ awaiting.record.awaitingReply = true := by decide

theorem witness_CommandFrame :
    (∃ t, exec (.mBeginWrite 0x90#8 [1#8]) (start .master) = .next t) ∧ (∃ t, exec (.mBeginRead 1#8) (start .master) = .next t) ∧
    (∃ t, exec (.sBeginReply [1#8]) awaiting = .next t) ∧ Instr.isCommand (.sBeginReply [1#8]) = true :=
  ⟨⟨_, rfl⟩, ⟨_, rfl⟩, ⟨_, rfl⟩, rfl⟩

theorem witness_MasterIdleIgnoresEvents :
    (start .master).cfg.role = .master ∧ (start .master).record.status = Status.idle.code := by decide
theorem witness_MasterSendsTheAddress :
    (busy .master .mWriteAddr 0#8 0#8 0#8 0#8).cfg.role = .master ∧
    (busy .master .mWriteAddr 0#8 0#8 0#8 0#8).record.status = Status.mWriteAddr.code := by decide
theorem witness_MasterRetriesOnNack :
    (busy .master .mWriteData 0#8 0#8 2#8 1#8).cfg.role = .master ∧
    (busy .master .mWriteData 0#8 0#8 2#8 1#8).record.status = Status.mWriteData.code ∧ evNack.ackstat = true := by decide
theorem witness_MasterSendsTheNextByte :
    (busy .master .mWriteData 0#8 0#8 8#8 7#8).cfg.role = .master ∧
    (busy .master .mWriteData 0#8 0#8 8#8 7#8).record.status = Status.mWriteData.code ∧ evAck.ackstat = false ∧
    (7#8).toNat < (8#8).toNat ∧ (8#8).toNat ≤ (busy .master .mWriteData 0#8 0#8 8#8 7#8).cfg.txCap ∧
    Memory.read (busy .master .mWriteData 0#8 0#8 8#8 7#8).record.txb 7 = some 8#8 := by decide
theorem witness_MasterPivotsToTheRead :
    inState (busy .master .mWriteData 2#8 0#8 1#8 1#8) .master .mWriteData = true ∧ evAck.ackstat = false ∧
    (busy .master .mWriteData 2#8 0#8 1#8 1#8).record.transmitIndex =
      (busy .master .mWriteData 2#8 0#8 1#8 1#8).record.transmitLength ∧
    (busy .master .mWriteData 2#8 0#8 1#8 1#8).record.receiveLength ≠ 0#8 ∧
    inState (busy .master .mRepStart 2#8 0#8 1#8 0#8) .master .mRepStart = true ∧
    (busy .master .mRepStart 2#8 0#8 1#8 0#8).record.receiveLength ≠ 0#8 := by decide
theorem witness_MasterCompletesTheWrite :
    inState (busy .master .mWriteData 0#8 0#8 0#8 0#8) .master .mWriteData = true ∧ evAck.ackstat = false ∧
    (busy .master .mWriteData 0#8 0#8 0#8 0#8).record.transmitIndex =
      (busy .master .mWriteData 0#8 0#8 0#8 0#8).record.transmitLength ∧
    (busy .master .mWriteData 0#8 0#8 0#8 0#8).record.receiveLength = 0#8 ∧
    inState (busy .master .mRepStart 0#8 0#8 1#8 0#8) .master .mRepStart = true ∧
    (busy .master .mRepStart 0#8 0#8 1#8 0#8).record.receiveLength = 0#8 := by decide
theorem witness_MasterReportsAFailedRead :
    (busy .master .mRcvData 2#8 0#8 0#8 0#8).cfg.role = .master ∧
    (busy .master .mRcvData 2#8 0#8 0#8 0#8).record.status = Status.mRcvData.code ∧ evNack.ackstat = true := by decide
theorem witness_MasterArmsTheNextByte :
    (busy .master .mRcvData 2#8 0#8 0#8 0#8).cfg.role = .master ∧
    (busy .master .mRcvData 2#8 0#8 0#8 0#8).record.status = Status.mRcvData.code ∧ evAck.ackstat = false := by decide
theorem witness_MasterStoresAndAcks :
    inState (busy .master .mAck 8#8 6#8 0#8 0#8) .master .mAck = true ∧ (6#8).toNat + 1 < (8#8).toNat ∧
    (8#8).toNat ≤ (busy .master .mAck 8#8 6#8 0#8 0#8).cfg.rxCap := by decide
theorem witness_MasterReportsTheReadBytes :
    inState (busy .master .mAck 8#8 7#8 0#8 0#8) .master .mAck = true ∧ (7#8).toNat + 1 = (8#8).toNat ∧
    (8#8).toNat ≤ (busy .master .mAck 8#8 7#8 0#8 0#8).cfg.rxCap ∧
    (∀ j < 7, (Memory.read (busy .master .mAck 8#8 7#8 0#8 0#8).record.rxb j).isSome = true) ∧
    inState (busy .master .mAck 1#8 0#8 0#8 0#8) .master .mAck = true ∧ (0#8).toNat + 1 = (1#8).toNat := by decide
theorem witness_MasterIssuesTheStop :
    (busy .master .mEndWrite 2#8 2#8 0#8 0#8).cfg.role = .master ∧
    (busy .master .mEndWrite 2#8 2#8 0#8 0#8).record.status = Status.mEndWrite.code := by decide
/-- M-E18: two events that differ in everything but ACKSTAT and DATA. -/
theorem witness_MasterReadsOnlyAckstatAndData :
    (Event.ofWord 0x1227#16).ackstat = (Event.ofWord 0x1288#16).ackstat ∧
    (Event.ofWord 0x1227#16).data = (Event.ofWord 0x1288#16).data ∧ Event.ofWord 0x1227#16 ≠ Event.ofWord 0x1288#16 := by decide
theorem witness_SlaveIgnoresAckstatAndBit7 :
    (Event.ofWord 0x3300#16).bf = (Event.ofWord 0x33D8#16).bf ∧ (Event.ofWord 0x3300#16).data = (Event.ofWord 0x33D8#16).data ∧
    (Event.ofWord 0x3309#16).dA = (Event.ofWord 0x33C9#16).dA ∧ (Event.ofWord 0x3309#16).bf = true ∧
    (∃ t, exec (.sOnEvent (Event.ofWord 0x3309#16)) (busy .slave .sRcvData 1#8 0#8 0#8 0#8) = .next t) ∧
    (∃ t, exec (.sOnEvent (Event.ofWord 0x33C9#16)) (busy .slave .sRcvData 1#8 0#8 0#8 0#8) = .next t) :=
  ⟨rfl, rfl, rfl, rfl, ⟨_, rfl⟩, ⟨_, rfl⟩⟩
theorem witness_MasterEventFrame :
    (∃ t, exec (.mOnEvent (evRx 9#8)) (busy .master .mAck 2#8 0#8 0#8 0#8) = .next t) ∧
    (∃ t, exec (.mOnEvent evAck) (busy .master .mWriteData 0#8 0#8 2#8 0#8) = .next t) ∧
    (∃ t, exec (.mOnEvent evNack) (busy .master .idle 0#8 0#8 0#8 0#8) = .next t) := ⟨⟨_, rfl⟩, ⟨_, rfl⟩, ⟨_, rfl⟩⟩
theorem witness_EventsOutsideTheRoleFault :
    (inState (busy .master .sStarted 0#8 0#8 0#8 0#8) .master .sStarted = true ∧ 7 ≤ Status.sStarted.code.toNat ∧
      7 ≤ (0x7#4).toNat) ∧
    (inState (busy .slave .mWriteAddr 0#8 0#8 0#8 0#8) .slave .mWriteAddr = true ∧ 1 ≤ Status.mWriteAddr.code.toNat ∧
      (0x8#4).toNat ≤ 8 ∧ 12 ≤ (0xC#4).toNat) := by decide

theorem witness_SlaveOverrunAbandons :
    (busy .slave .sRcvData 3#8 0#8 0#8 0#8).cfg.role = .slave ∧
    statusOfRole .slave (busy .slave .sRcvData 3#8 0#8 0#8 0#8).record.status = true ∧ (evOv 0x44#8).ov = true := by decide
theorem witness_SlaveBeginsATransaction :
    inState (start .slave) .slave .idle = true ∧
    (evStart.ov = false ∧ evStart.s = true ∧ evStart.p = false ∧ evStart.bf = false) ∧
    ((evSaddrW 0x90#8).ov = false ∧ (evSaddrW 0x90#8).s = true ∧ (evSaddrW 0x90#8).p = false ∧
      (evSaddrW 0x90#8).bf = true ∧ (evSaddrW 0x90#8).dA = false ∧ (evSaddrW 0x90#8).rW = false) ∧
    (restart.ov = false ∧ restart.s = true ∧ restart.p = false ∧ restart.bf = true ∧ restart.dA = false ∧
      restart.rW = true) := by decide
theorem witness_SlaveIdleIgnoresEvents :
    inState (start .slave) .slave .idle = true ∧ (evData 0x33#8).ov = false ∧ (evData 0x33#8).s = false ∧
    (Event.ofWord 0x9007#16).ov = false ∧ (Event.ofWord 0x9007#16).s = true ∧ (Event.ofWord 0x9007#16).p = true := by decide
theorem witness_SlaveRejectsMisplacedBytes :
    (inState (start .slave) .slave .idle = true ∧ (Event.ofWord 0x000B#16).ov = false ∧ (Event.ofWord 0x000B#16).bf = true ∧
      (Event.ofWord 0x000B#16).s = true ∧ (Event.ofWord 0x000B#16).p = false ∧ (Event.ofWord 0x000B#16).dA = true) ∧
    (inState (busy .slave .sStarted 0#8 0#8 0#8 0#8) .slave .sStarted = true ∧
      (evData 1#8).ov = false ∧ (evData 1#8).bf = true ∧ (evData 1#8).dA = true) ∧
    (inState (busy .slave .sRcvData 1#8 0#8 0#8 0#8) .slave .sRcvData = true ∧
      (evSaddrW 0x90#8).ov = false ∧ (evSaddrW 0x90#8).bf = true ∧ (evSaddrW 0x90#8).dA = false ∧
      (evSaddrW 0x90#8).rW = false ∧ (Event.ofWord 0x9005#16).dA = false ∧ (Event.ofWord 0x9005#16).p = true) ∧
    (inState (busy .slave .sSlaveSend 0#8 0#8 3#8 1#8) .slave .sSlaveSend = true ∧
      (evAddrR 0x91#8).ov = false ∧ (evAddrR 0x91#8).bf = true ∧ (evAddrR 0x91#8).p = false) := by decide
theorem witness_SlaveStartedTakesTheAddress :
    inState (busy .slave .sStarted 0#8 0#8 0#8 0#8) .slave .sStarted = true ∧
    (evStop.ov = false ∧ evStop.p = true ∧ evStop.bf = false) ∧
    ((Event.ofWord 0x9005#16).ov = false ∧ (Event.ofWord 0x9005#16).p = true ∧ (Event.ofWord 0x9005#16).bf = true ∧
      (Event.ofWord 0x9005#16).dA = false) ∧
    ((evAddrW 0x90#8).ov = false ∧ (evAddrW 0x90#8).p = false ∧ (evAddrW 0x90#8).bf = true ∧ (evAddrW 0x90#8).dA = false ∧
      (evAddrW 0x90#8).rW = false) ∧
    ((evAddrR 0x91#8).ov = false ∧ (evAddrR 0x91#8).p = false ∧ (evAddrR 0x91#8).bf = true ∧ (evAddrR 0x91#8).dA = false ∧
      (evAddrR 0x91#8).rW = true) := by decide
theorem witness_SlaveCountsNoOps :
    (evTxDone.ov = false ∧ evTxDone.p = false ∧ evTxDone.bf = false) ∧
    inState (busy .slave .sStarted 0#8 0#8 0#8 0#8) .slave .sStarted = true ∧
    inState (busy .slave .sRcvData 3#8 0#8 0#8 0#8) .slave .sRcvData = true ∧
    inState awaiting .slave .sSlaveSend = true ∧ awaiting.record.awaitingReply = true := by decide
/-- S-E19 and S-E20: the last byte that fits and the first that does not. -/
theorem witness_SlaveAppendsDataBytes :
    ((evData 7#8).ov = false ∧ (evData 7#8).p = false ∧ (evData 7#8).bf = true ∧ (evData 7#8).dA = true) ∧
    inState (busy .slave .sRcvData 6#8 0#8 0#8 0#8) .slave .sRcvData = true ∧
    (busy .slave .sRcvData 6#8 0#8 0#8 0#8).record.receiveLength.toNat + 1 ≤ (start .slave).cfg.rxCap - 1 ∧
    inState (busy .slave .sRcvData 7#8 0#8 0#8 0#8) .slave .sRcvData = true ∧
    (start .slave).cfg.rxCap - 1 < (busy .slave .sRcvData 7#8 0#8 0#8 0#8).record.receiveLength.toNat + 1 := by decide
theorem witness_SlaveForwardsTheMessage :
    (evStop.ov = false ∧ evStop.p = true ∧ evStop.bf = false) ∧
    inState (busy .slave .sRcvData 7#8 0#8 0#8 0#8) .slave .sRcvData = true ∧
    (busy .slave .sRcvData 7#8 0#8 0#8 0#8).record.receiveLength.toNat < (start .slave).cfg.rxCap ∧
    (∀ j < 7, (Memory.read (busy .slave .sRcvData 7#8 0#8 0#8 0#8).record.rxb j).isSome = true) := by decide
/-- The longest message with a final byte, and S-E24. -/
theorem witness_SlaveForwardsWithTheFinalByte :
    ((evStopData 8#8).ov = false ∧ (evStopData 8#8).p = true ∧ (evStopData 8#8).bf = true ∧ (evStopData 8#8).dA = true) ∧
    inState (busy .slave .sRcvData 6#8 0#8 0#8 0#8) .slave .sRcvData = true ∧
    (busy .slave .sRcvData 6#8 0#8 0#8 0#8).record.receiveLength.toNat + 1 ≤ (start .slave).cfg.rxCap - 1 ∧
    (start .slave).cfg.rxCap ≤ 255 ∧
    (∀ j < 6, (Memory.read (busy .slave .sRcvData 6#8 0#8 0#8 0#8).record.rxb j).isSome = true) ∧
    inState (busy .slave .sRcvData 7#8 0#8 0#8 0#8) .slave .sRcvData = true ∧
    (start .slave).cfg.rxCap - 1 < (busy .slave .sRcvData 7#8 0#8 0#8 0#8).record.receiveLength.toNat + 1 := by decide

/-- The premises the four dispatcher statements share. -/
def atRestart (s : State) : Bool :=
  s.cfg.legal && decide (s.cfg.role = .slave) && decide (s.record.status = Status.sRcvData.code) &&
  !restart.ov && !restart.p && restart.bf && !restart.dA && restart.rW

theorem witness_DispatcherAnswersGather :
    atRestart (received 0xAA#8) = true ∧ (received 0xAA#8).record.receiveLength ≠ 0#8 ∧
    Memory.read (received 0xAA#8).record.rxb 0 = some 0xAA#8 := by decide
theorem witness_DispatcherAnswersCheck :
    atRestart (received 0xAB#8) = true ∧ (received 0xAB#8).record.receiveLength ≠ 0#8 ∧
    Memory.read (received 0xAB#8).record.rxb 0 = some 0xAB#8 := by decide
/-- The three forms of the sample: well typed, of another tag or length, absent. -/
theorem test_check_reply_forms :
    checkReply (some { tag := 0x09#8, payload := [1#8, 2#8, 3#8, 4#8, 5#8] }) = [1#8, 2#8, 3#8, 4#8, 5#8] ∧
    checkReply (some { tag := 0x08#8, payload := [1#8, 2#8, 3#8, 4#8, 5#8] }) = [0#8, 0#8, 0#8, 0#8, 0#8] ∧
    checkReply (some { tag := 0x09#8, payload := [1#8, 2#8, 3#8, 4#8] }) = [0#8, 0#8, 0#8, 0#8, 0#8] ∧
    checkReply none = [0#8, 0#8, 0#8, 0#8, 0#8] := by decide
theorem witness_DispatcherAnswersMove :
    atRestart (received 0xAC#8) = true ∧ (received 0xAC#8).record.receiveLength ≠ 0#8 ∧
    (received 0xAC#8).record.receiveLength.toNat ≤ (received 0xAC#8).cfg.rxCap ∧
    (∀ j < (received 0xAC#8).record.receiveLength.toNat, (Memory.read (received 0xAC#8).record.rxb j).isSome = true) ∧
    Memory.read (received 0xAC#8).record.rxb 0 = some (received 0xAC#8).cfg.tagMove := by decide
theorem witness_DispatcherIsSilentOnOtherTags :
    atRestart (busy .slave .sRcvData 0#8 0#8 0#8 0#8) = true ∧
    (busy .slave .sRcvData 0#8 0#8 0#8 0#8).record.receiveLength = 0#8 ∧
    atRestart (received 0x55#8) = true ∧ Memory.read (received 0x55#8).record.rxb 0 = some 0x55#8 ∧
    0x55#8 ≠ (received 0x55#8).cfg.tagMove := by decide
theorem witness_SlaveSendsTheReply :
    inState (busy .slave .sSlaveSend 0#8 0#8 8#8 7#8) .slave .sSlaveSend = true ∧ evStop.ov = false ∧ evStop.p = true ∧
    (evTxDone.ov = false ∧ evTxDone.p = false ∧ evTxDone.bf = false) ∧
    (busy .slave .sSlaveSend 0#8 0#8 8#8 7#8).record.awaitingReply = false ∧ (7#8).toNat < (8#8).toNat ∧
    (8#8).toNat ≤ (busy .slave .sSlaveSend 0#8 0#8 8#8 7#8).cfg.txCap ∧
    Memory.read (busy .slave .sSlaveSend 0#8 0#8 8#8 7#8).record.txb 7 = some 8#8 ∧
    inState (busy .slave .sSlaveSend 0#8 0#8 8#8 8#8) .slave .sSlaveSend = true ∧
    (busy .slave .sSlaveSend 0#8 0#8 8#8 8#8).record.transmitIndex =
      (busy .slave .sSlaveSend 0#8 0#8 8#8 8#8).record.transmitLength := by decide
theorem witness_SlaveEventFrame :
    (received 0xAA#8).cfg.legal = true ∧ (∃ t, exec (.sOnEvent restart) (received 0xAA#8) = .next t) ∧
    (∃ t, exec (.sOnEvent (evStopData 9#8)) (busy .slave .sRcvData 2#8 0#8 0#8 0#8) = .next t) := ⟨by decide, ⟨_, rfl⟩, ⟨_, rfl⟩⟩
theorem witness_ClockReleaseDiscipline :
    after (seeing (start .slave) 0x9113#16) (fun t => (t.actionOut, t.clockHeld, t.record.awaitingReply)) =
      some ([0#24], true, true) ∧
    after (seeing (busy .slave .sSlaveSend 0#8 0#8 8#8 7#8) 0x0000#16) (fun t => (t.actionOut, t.clockHeld)) =
      some ([0x080140#24], false) ∧
    held.record.awaitingReply = true ∧ evStop.bf = false ∧ evStop.p = true ∧ evTxDone.bf = false ∧ evTxDone.p = false := by decide
/-- S-E30, S-E33, S-E35 with ACKSTAT = 0 and S-E38: a stop ends the hold, EV{} keeps it, the exhausted reply holds nothing, and U7. -/
theorem witness_ClockReleaseDiscipline_noByte :
    after (seeing held 0x0004#16) (fun t => (t.clockHeld, t.record.awaitingReply)) = some (false, false) ∧
    after (seeing held 0x0000#16) (fun t => (t.clockHeld, t.record.awaitingReply)) = some (true, true) ∧
    after (seeing (busy .slave .sSlaveSend 0#8 0#8 3#8 3#8) 0x0000#16) (fun t => (t.clockHeld, t.record.status)) =
      some (false, 0#4) ∧
    after (seeing (busy .slave .sSlaveSend 0#8 0#8 3#8 3#8) 0x0002#16) (fun t => (t.clockHeld, t.record.status)) =
      some (false, 0#4) ∧
    after (seeing held 0x0020#16) (fun t => (t.clockHeld, t.record.awaitingReply)) = some (true, false) := by decide
/-- A reply accepted, one refused (R-4), and commands and events of the master. -/
theorem witness_ClockReleaseDiscipline_commands :
    after (giving held (bytesOfCommandWord 0x00010003#32 ++ [7#8])) (fun t => (t.clockHeld, t.resultOut)) =
      some (false, [.accepted]) ∧
    after (giving held (bytesOfCommandWord 0x00000003#32)) (fun t => (t.clockHeld, t.resultOut)) = some (true, [.invalid]) ∧
    after (giving (start .master) (bytesOfCommandWord 0x00009001#32)) (fun t => t.clockHeld) = some false ∧
    after (giving (start .master) (bytesOfCommandWord 0x00010002#32)) (fun t => t.clockHeld) = some false ∧
    after (seeing (start .master) 0x0004#16) (fun t => t.clockHeld) = some false := by decide
/-- P6, step 1: a conforming run in which the clock is held and a reply awaited. -/
theorem witness_ClockReleaseDiscipline_conforming :
    ∃ b s, Conforming b s ∧ s.clockHeld = true ∧ s.record.awaitingReply = true ∧ b.phase = .byteDue := by
  refine ⟨_, _, .event _ (evSaddrR 0x91#8) _ (start .slave) _ _ (.reset _ ?_) ?_ (.inr rfl) rfl rfl, ?_⟩ <;> decide

/-! ## The reference convention (R231): what may come next, in each phase and after each effect -/

theorem test_conforming_slave :
    slaveConforms .quiet evStart = true ∧ slaveConforms .quiet (evAddrW 0x90#8) = false ∧
    slaveConforms .started (evAddrR 0x91#8) = true ∧ slaveConforms .writing (evStopData 0x42#8) = true ∧
    slaveConforms .writing evTxDone = false ∧ slaveConforms .writing (evOv 0x44#8) = true ∧
    slaveConforms .byteSent evStop = false ∧
    slaveConforms .byteSent evTxDone = true ∧ slaveConforms .byteSent evNack = true ∧
    slaveConforms .nacked evStop = true ∧ slaveConforms .nacked evTxDone = false := by decide
/-- P6: the phases of a read that is NACKed after its last byte; R180: a restart while sending, answered by CKP_REL alone, has its byte
acknowledged too; and no event comes while the clock is held. -/
theorem test_conforming_phases :
    Phase.quiet.afterEvent (evSaddrR 0x91#8) = .byteDue ∧
    (Bus.afterWord ⟨.byteDue, none, false⟩ 0x070140#24).phase = .byteSent ∧ Phase.byteSent.afterEvent evTxDone = .byteDue ∧
    Phase.byteSent.afterEvent restart = .byteDue ∧
    (Bus.afterWord ⟨.byteDue, none, false⟩ 0x000040#24).phase = .byteSent ∧
    Phase.byteSent.afterEvent evNack = .nacked ∧ Phase.nacked.afterEvent evStop = .quiet ∧
    Bus.allows ⟨.byteDue, none, false⟩ held evStop = false := by decide
/-- P1: SEN is followed by EV_DONE, the address by EV_NACK, and RCEN by a byte that keeps ACKSTAT. -/
theorem test_conforming_master :
    Bus.allows (Bus.quiet.afterWord 0x000001#24) (start .master) evDone = true ∧
    Bus.allows (Bus.quiet.afterWord 0x900100#24) (start .master) evNack = true ∧
    Bus.allows (Bus.quiet.afterWord 0x000008#24) (start .master) (evRx 0x5A#8) = true ∧
    Bus.allows ((Bus.quiet.afterEvent evNack).afterWord 0x000008#24) (start .master) (evRx 0x5A#8) = false ∧
    Bus.allows Bus.quiet (start .master) evDone = false := by decide

theorem witness_ReplyRoundTrip :
    awaiting.cfg.legal = true ∧ awaiting.cfg.role = .slave ∧ awaiting.record.status = Status.sSlaveSend.code ∧
    awaiting.record.awaitingReply = true ∧ 1 ≤ (List.replicate 8 7#8).length ∧
    (List.replicate 8 7#8).length ≤ awaiting.cfg.txCap := by decide
theorem witness_WriteThenStopIsForwarded :
    (start .slave).cfg.legal = true ∧ (start .slave).cfg.role = .slave ∧ (start .slave).record.status = Status.idle.code ∧
    (List.replicate 7 1#8).length ≤ (start .slave).cfg.rxCap - 1 := by decide
theorem witness_OneDiagnosticPerThreshold :
    (start .slave).cfg.legal = true ∧ inState (start .slave) .slave .idle = true ∧
    (start .slave).record.errorCount = 0#8 := by decide
theorem witness_AcknowledgedWriteIsReported :
    (start .master).cfg.legal = true ∧ (start .master).cfg.role = .master ∧ (start .master).record.status = Status.idle.code ∧
    (start .master).record.receiveLength = 0#8 ∧ (0x90#8).getLsbD 0 = false ∧
    (List.replicate 8 1#8).length ≤ (start .master).cfg.txCap := by decide
theorem witness_AcknowledgedReadIsReported :
    (start .master).cfg.legal = true ∧ inState (start .master) .master .idle = true ∧
    1 ≤ (List.replicate 8 1#8).length ∧ (List.replicate 8 1#8).length ≤ (start .master).cfg.rxCap := by decide
theorem witness_NackedAddressesRetryForEver :
    (busy .master .mWriteData 0#8 0#8 2#8 1#8).cfg.role = .master ∧
    (busy .master .mWriteData 0#8 0#8 2#8 1#8).record.status = Status.mWriteData.code ∧
    (busy .master .mWriteData 0#8 0#8 2#8 1#8).record.slaveAddress.getLsbD 0 = false := by decide

end Sys2Proof.Tests
end

section
/-! PROOFS. What a step does before an instruction runs (00_scope.md R10, R13; 30_encoding.md R80): the check of the
configuration, and the input taken off the port whose turn it is. -/

namespace Sys2Proof.Machine

/-! ## The input taken -/

/-- R80: a whole command on the command port's turn. -/
theorem fetch_of_command {s : State} {later : List Port} {i : Instr} {rest : List Byte}
    (turn : s.schedule = .command :: later) (decodes : decodeCommand s.cfg.role s.commandIn = .instr i rest) :
    fetch s = .instr i { s with schedule := later, commandIn := rest } := by
  simp only [fetch, turn, decodes]

/-- R80: an event word on the event port's turn. -/
theorem fetch_of_event {s : State} {later : List Port} {w : EventWord} {rest : List EventWord}
    (turn : s.schedule = .event :: later) (stands : s.eventIn = w :: rest) :
    fetch s = .instr (decodeEvent s.cfg.role w) { s with schedule := later, eventIn := rest } := by
  simp only [fetch, turn, stands]

/-! ## The step around it -/

/-- R13: in a legal configuration and a launch state that meets R34, a step runs the instruction it took. -/
theorem step_of_fetch_instr {s t : State} {i : Instr} (legal : s.cfg.legal = true) (launch : launchFault s = none)
    (taken : fetch s = .instr i t) : step s = exec i t := by
  simp only [step, legal, if_true, launch, taken]

theorem step_of_not_legal {s : State} (illegal : ¬ s.cfg.legal = true) : step s = .refused .illegalConfiguration :=
  if_neg illegal

/-! ## The obligations -/

/-- Settles O6: the two kinds of input `fetch` can take give the instruction `step` runs. -/
theorem stepRunsTheDecodedInstruction : Obligations.StepRunsTheDecodedInstruction := by
  intro s legal launch
  constructor
  · intro later i rest turn decodes
    exact step_of_fetch_instr legal launch (fetch_of_command turn decodes)
  · intro later w rest turn stands
    exact step_of_fetch_instr legal launch (fetch_of_event turn stands)

/-- Settles O8: each violation contradicts the bound of R10 that a legal configuration meets. -/
theorem illegalConfigurationsAreRefused : Obligations.IllegalConfigurationsAreRefused := by
  intro s violation
  apply step_of_not_legal
  intro legal
  obtain ⟨rxCap, -, txCap, -, threshold, -, -, notGather, notCheck, -⟩ := legal_bounds legal
  rcases violation with small | small | small | gather | check
  · omega
  · omega
  · omega
  · exact notGather gather
  · exact notCheck check

end Sys2Proof.Machine
end

section
/-! PROOFS. The faults of a launch state, and the step that finds no whole input (10_state.md R34; 60_exceptions.md R237, R239). -/

namespace Sys2Proof.Machine

/-! ## The launch check -/

/-- R239 (a): the status is looked at first. -/
theorem launchFault_of_status {s : State} (outside : statusOfRole s.cfg.role s.record.status = false) :
    launchFault s = some .statusOutsideRole := by
  simp [launchFault, outside]

/-- R239 (d): a status of the role, and a broken R34. -/
theorem launchFault_of_broken {s : State} (ofRole : statusOfRole s.cfg.role s.record.status = true)
    (broken : ¬ invariantsR34 s.cfg s.record = true) : launchFault s = some .invariantBroken := by
  simp [launchFault, ofRole, broken]

/-! ## The step -/

theorem step_of_launchFault {s : State} {f : Fault} (legal : s.cfg.legal = true) (launch : launchFault s = some f) :
    step s = .fault f := by
  simp only [step, legal, if_true, launch]

/-- R237: with nothing to take the engine keeps its state. -/
theorem step_of_fetch_nothing {s : State} (legal : s.cfg.legal = true) (launch : launchFault s = none)
    (nothing : fetch s = .nothing) : step s = .next s := by
  simp only [step, legal, if_true, launch, nothing]

/-- No whole input stands on the port whose turn it is. -/
theorem fetch_of_noInput {s : State}
    (noInput : s.schedule = [] ∨
      (∃ later, s.schedule = .command :: later ∧ decodeCommand s.cfg.role s.commandIn = .incomplete) ∨
      (∃ later, s.schedule = .event :: later ∧ s.eventIn = [])) : fetch s = .nothing := by
  rcases noInput with idle | ⟨later, turn, partly⟩ | ⟨later, turn, empty⟩
  · simp only [fetch, idle]
  · simp only [fetch, turn, partly]
  · simp only [fetch, turn, empty]

/-- Settles O7: each ground of R34 contradicts the part of the invariant it breaks. -/
theorem stepWithoutAnInstruction : Obligations.StepWithoutAnInstruction := by
  intro s legal
  refine ⟨fun outside => step_of_launchFault legal (launchFault_of_status outside), fun ofRole violation => ?_,
    fun launch noInput => step_of_fetch_nothing legal launch (fetch_of_noInput noInput)⟩
  refine step_of_launchFault legal (launchFault_of_broken ofRole fun holds => ?_)
  obtain ⟨index, length, sent, staged, room, tally, awaiting⟩ := (invariantsR34_iff s.cfg s.record).mp holds
  rcases violation with broken | broken | broken | broken | ⟨role, broken⟩ | ⟨role, broken⟩ | ⟨awaits, broken⟩
  · omega
  · omega
  · omega
  · omega
  · exact absurd (room role) (by omega)
  · exact absurd (tally role) (by omega)
  · exact broken (awaiting awaits)

end Sys2Proof.Machine
end

section
/-! PROOFS. What one operation leaves of the Record when it answers a next state (10_state.md R42): commands, master events, slave events, and the step
around them. -/

namespace Sys2Proof.Machine

/-! ## The procedures, as they leave the working state -/

@[simp] theorem startRead_record (n : Byte) (w : Work) :
    (startRead n w).record = { w.record with
      slaveAddress := setRead w.record.slaveAddress, receiveLength := n, receiveIndex := 0#8,
      status := Status.mWriteAddr.code } := rfl

@[simp] theorem startRead_samples (n : Byte) (w : Work) : (startRead n w).samples = w.samples := rfl

@[simp] theorem startRead_sent (n : Byte) (w : Work) : (startRead n w).sent = w.sent := rfl

@[simp] theorem abandon_record (e : ErrorCode) (w : Work) :
    (abandon e w).record = { w.record with
      status := Status.idle.code, receiveLength := 0#8, awaitingReply := false,
      errorCount := w.record.errorCount + 1#8, lastErrorCode := e.code } := rfl

@[simp] theorem abandon_samples (e : ErrorCode) (w : Work) : (abandon e w).samples = w.samples := rfl

@[simp] theorem abandon_recordedError (e : ErrorCode) (w : Work) : (abandon e w).recordedError = true := rfl

@[simp] theorem enterSend_record (w : Work) :
    (enterSend w).record = { w.record with
      status := Status.sSlaveSend.code, transmitLength := 0#8, transmitIndex := 0#8, awaitingReply := true } := rfl

@[simp] theorem enterSend_samples (w : Work) : (enterSend w).samples = w.samples := rfl

@[simp] theorem enterSend_recordedError (w : Work) : (enterSend w).recordedError = w.recordedError := rfl

@[simp] theorem slaveBegin_record (w : Work) :
    (slaveBegin w).record = { w.record with eventCount := 1#8, receiveLength := 0#8 } := rfl

@[simp] theorem slaveBegin_samples (w : Work) : (slaveBegin w).samples = w.samples := rfl

@[simp] theorem slaveBegin_recordedError (w : Work) : (slaveBegin w).recordedError = w.recordedError := rfl

@[simp] theorem tryReceive_record (w : Work) : w.tryReceive.2.record = w.record := by
  unfold Work.tryReceive; split <;> rfl

@[simp] theorem tryReceive_recordedError (w : Work) : w.tryReceive.2.recordedError = w.recordedError := by
  unfold Work.tryReceive; split <;> rfl

/-- RepStart pivots to the read that is wanted, or ends the transaction (R120, R121). -/
theorem repStart_cases (w : Work) :
    (w.record.receiveLength ≠ 0#8 ∧ repStart w = startRead w.record.receiveLength (w.setStatus .idle)) ∨
    (w.record.receiveLength = 0#8 ∧ repStart w = ((w.act .pen).send .writeOk []).setStatus .idle) := by
  by_cases wanted : w.record.receiveLength = 0#8
  · exact .inr ⟨wanted, by simp [repStart, wanted]⟩
  · exact .inl ⟨wanted, by simp [repStart, wanted]⟩

/-- M_RCV_DATA records the NACK and ends, or arms the next byte (R123, R124). -/
theorem masterRcvData_cases (ev : Event) (w : Work) :
    (ev.ackstat = true ∧ masterRcvData ev w = ((w.recordError .busNack).send .readFail []).setStatus .idle) ∨
    (ev.ackstat = false ∧ masterRcvData ev w = (w.act .rcen).setStatus .mAck) := by
  cases nack : ev.ackstat <;> simp [masterRcvData, nack]

/-! ## Lengths as bytes, and reads beyond a store -/

/-- A length no capacity of R8 exceeds is its own byte. -/
theorem toNat_ofNat_of_le {n : Nat} (le : n ≤ 255) : (BitVec.ofNat 8 n).toNat = n := by
  rw [BitVec.toNat_ofNat]; omega

/-- A byte below 255 counts on without wrapping. -/
theorem toNat_add_one_of_lt {b : Byte} {n : Nat} (lt : b.toNat < n) (le : n ≤ 255) : (b + 1#8).toNat = b.toNat + 1 := by
  rw [BitVec.toNat_add]; simp; omega

theorem Memory.read_write_ne {m : Memory} {i j : Nat} (v : Byte) (ne : j ≠ i) :
    Memory.read (Memory.write m i v) j = Memory.read m j := by
  rw [Memory.read_write, if_neg ne]

/-- Bytes stored from index 0 on leave every index beyond them. -/
theorem Memory.read_writeList_beyond {m : Memory} {bs : List Byte} {j : Nat} (beyond : bs.length ≤ j) :
    Memory.read (Memory.writeList m 0 bs) j = Memory.read m j := by
  rw [Memory.read_writeList, if_neg (by omega)]

/-! ## Commands -/

/-- Settles O23: by what each accepted command writes; a refused one writes nothing of the Record. -/
theorem commandFrame : Obligations.CommandFrame := by
  intro i s t command h
  rcases command_cases command h with ⟨r, -, rfl⟩ | ⟨a, payload, rfl, -, -, -, -, rfl⟩ | ⟨n, rfl, -, -, -, -, rfl⟩ |
    ⟨first, rest, rfl, -, -, -, -, rfl⟩
  · simp
  · simpa using fun j => Memory.read_writeList_beyond
  · simp
  · simpa using fun j => Memory.read_writeList_beyond (bs := first :: rest)

/-! ## Master events -/

/-- Settles O37: by what each state of R114 writes. -/
theorem masterEventFrame : Obligations.MasterEventFrame := by
  intro ev s t h
  obtain ⟨-, w, hw, rfl⟩ := execMOnEvent_next h
  simp only [State.withWork_cfg, State.withWork_schedule, State.withWork_commandIn, State.withWork_eventIn,
    State.withWork_sampleIn, State.withWork_resultOut, State.withWork_record, true_and]
  rcases masterEvent_cases hw with ⟨st, rfl⟩ | ⟨st, rfl⟩ | ⟨st, nack, rfl⟩ | ⟨st, -, -, b, -, rfl⟩ | ⟨st, -, -, rfl⟩ |
    ⟨st, rfl⟩ | ⟨st, rfl⟩ | ⟨st, -, -, rfl⟩ | ⟨st, -, -, bytes, -, -, rfl⟩ | ⟨st, rfl⟩ <;>
    simp only [Work.start_record] at st
  · simp [st]
  · simp [st, masterWriteAddr]
  · simp [st, nack, masterRetry]
  · simp [st]
  · rcases repStart_cases ((Work.start s).counted.setStatus .mRepStart) with ⟨-, e⟩ | ⟨-, e⟩ <;>
      simp [st, masterExhausted, e]
  · rcases repStart_cases (Work.start s).counted with ⟨-, e⟩ | ⟨-, e⟩ <;> simp [st, e]
  · rcases masterRcvData_cases ev (Work.start s).counted with ⟨nack, e⟩ | ⟨-, e⟩
    · simp [st, e, nack]
    · simp [st, e]
  · simpa [st] using fun j => Memory.read_write_ne _
  · simpa [st] using fun j => Memory.read_write_ne _
  · simp [st, masterEndWrite]

/-! ## Slave events -/

theorem ackReply_fits {c : Config} (legal : c.legal = true) : c.ackReply.length ≤ c.txCap := by
  obtain ⟨-, -, txCap, -, -, -, -, -, -, length⟩ := legal_bounds legal
  omega

/-- Dispatch stages a reply of a length R8 lets TXB hold, or nothing; it consumes the message (R201 to R207). -/
theorem dispatch_record {c : Config} {w w' : Work} (h : dispatch c w = .ok w') :
    w'.recordedError = w.recordedError ∧
    (w'.record = { w.record with receiveLength := 0#8 } ∨
      ∃ first rest, (c.legal = true → (first :: rest).length ≤ c.txCap) ∧
        w'.record = { (w.staged first rest).record with receiveLength := 0#8 }) := by
  rcases dispatch_cases h with ⟨first, rest, reply, -, -, rfl⟩ | ⟨first, rest, reply, -, -, rfl⟩ |
    ⟨first, rest, bytes, reply, -, -, -, -, rfl⟩ | rfl
  · refine ⟨rfl, .inr ⟨first, rest, fun legal => reply ▸ ackReply_fits legal, rfl⟩⟩
  · refine ⟨by simp, .inr ⟨first, rest, fun legal => ?_, by simp⟩⟩
    obtain ⟨-, -, txCap, -⟩ := legal_bounds legal
    exact reply ▸ (checkReply_length _).trans_le txCap
  · refine ⟨rfl, .inr ⟨first, rest, fun legal => reply ▸ ackReply_fits legal, rfl⟩⟩
  · exact ⟨rfl, .inl rfl⟩

/-- What no slave event writes (R23, R26), and the tally, which an event that records no error keeps (R222). -/
structure SlaveKept (w w' : Work) : Prop where
  slaveAddress : w'.record.slaveAddress = w.record.slaveAddress
  receiveIndex : w'.record.receiveIndex = w.record.receiveIndex
  tally        : w'.recordedError = false → w'.record.errorCount = w.record.errorCount

theorem slaveRcvData_keeps {c : Config} {ev : Event} {w w' : Work} (h : slaveRcvData c ev w.counted = .ok w') :
    SlaveKept w w' := by
  rcases slaveRcvData_cases h with ⟨-, -, v, hv, rfl⟩ | ⟨-, -, -, -, v, hv, rfl⟩ | ⟨-, -, rfl⟩ | ⟨-, -, -, -, rfl⟩ |
    ⟨-, -, -, rfl⟩ | ⟨-, -, -, -, hd⟩ | ⟨-, -, -, rfl⟩
  · obtain ⟨-, bytes, -, -, rfl⟩ := messageComplete_inv hv
    constructor <;> simp
  · obtain ⟨-, bytes, -, -, rfl⟩ := messageComplete_inv hv
    constructor <;> simp
  · constructor <;> simp
  · constructor <;> simp
  · constructor <;> simp
  · obtain ⟨-, e | ⟨first, rest, -, e⟩⟩ := dispatch_record hd <;> constructor <;> simp [e]
  · constructor <;> simp

theorem slaveTransition_keeps {c : Config} {ev : Event} {w w' : Work} (h : slaveTransition c ev w = .ok w') :
    SlaveKept w w' := by
  rcases slaveTransition_cases h with ⟨-, -, rfl⟩ | ⟨-, -, rfl⟩ | ⟨-, -, rfl⟩ | ⟨-, -, hw⟩ | ⟨-, -, hw⟩
  · constructor <;> simp [slaveOverrun]
  · rcases slaveIdle_cases ev w with ⟨-, e⟩ | ⟨-, -, -, e⟩ | ⟨-, -, -, -, e⟩ | ⟨-, -, -, -, -, e⟩ | ⟨-, -, -, -, -, e⟩ <;>
      constructor <;> simp [e]
  · rcases slaveStarted_cases ev w.counted with ⟨-, -, e⟩ | ⟨-, -, e⟩ | ⟨-, -, e⟩ | ⟨-, -, -, -, e⟩ | ⟨-, -, -, -, e⟩ <;>
      constructor <;> simp [e]
  · exact slaveRcvData_keeps hw
  · rcases slaveSend_cases hw with ⟨-, rfl⟩ | ⟨-, -, rfl⟩ | ⟨-, -, -, rfl⟩ | ⟨-, -, -, -, b, -, rfl⟩ | ⟨-, -, -, -, rfl⟩ <;>
      constructor <;> simp

/-- A slave event runs the rules of S_RCV_DATA, whatever its flags but OV (R157). -/
abbrev receiving (ev : Event) (w : Work) : Prop := ev.ov = false ∧ w.record.status = Status.sRcvData.code

/-- What a slave event stores, and where: nothing; or, in S_RCV_DATA, the reply at a read restart (R176, R156), one byte at
receive_length (R152, R153), or a last byte and its trailer (R174). -/
inductive SlaveStores (c : Config) (ev : Event) (w w' : Work) : Prop where
  | nothing (channel : w'.samples = w.samples) (tx : w'.record.txb = w.record.txb) (rx : w'.record.rxb = w.record.rxb)
  | reply (on : receiving ev w) (stop : ev.p = false) (byte : ev.bf = true) (address : ev.dA = false) (read : ev.rW = true)
      (tx : ∀ j, w'.record.transmitLength.toNat ≤ j → Memory.read w'.record.txb j = Memory.read w.record.txb j)
      (rx : w'.record.rxb = w.record.rxb)
  | byte (on : receiving ev w) (v : Byte) (data : ev.bf = false ∨ ev.dA = true) (channel : w'.samples = w.samples)
      (tx : w'.record.txb = w.record.txb)
      (rx : w'.record.rxb = Memory.write w.record.rxb w.record.receiveLength.toNat v)
  | byteAndTrailer (on : receiving ev w) (trailer : Byte) (stop : ev.p = true) (byte : ev.bf = true) (data : ev.dA = true)
      (channel : w'.samples = w.samples) (tx : w'.record.txb = w.record.txb)
      (rx : w'.record.rxb = Memory.write (Memory.write w.record.rxb w.record.receiveLength.toNat ev.data)
        (w.record.receiveLength.toNat + 1) trailer)

theorem slaveRcvData_stores {c : Config} {ev : Event} {w w' : Work} (legal : c.legal = true) (on : receiving ev w)
    (h : slaveRcvData c ev w.counted = .ok w') : SlaveStores c ev w w' := by
  obtain ⟨-, rxCap, -, txCap, -⟩ := legal_bounds legal
  rcases slaveRcvData_cases h with ⟨-, noByte, v, hv, rfl⟩ | ⟨stop, byte, data, room, v, hv, rfl⟩ | ⟨-, -, rfl⟩ |
    ⟨-, -, data, -, rfl⟩ | ⟨-, -, -, rfl⟩ | ⟨stop, byte, data, read, hd⟩ | ⟨-, -, -, rfl⟩
  · obtain ⟨-, bytes, -, -, rfl⟩ := messageComplete_inv hv
    exact .byte on _ (.inl noByte) rfl rfl rfl
  · obtain ⟨-, bytes, -, -, rfl⟩ := messageComplete_inv hv
    have next : (w.record.receiveLength + 1#8).toNat = w.record.receiveLength.toNat + 1 :=
      toNat_add_one_of_lt room (by omega)
    exact .byteAndTrailer on _ stop byte data rfl rfl (congrArg (Memory.write _ · _) next)
  · exact .nothing rfl rfl rfl
  · exact .byte on _ (.inr data) rfl rfl rfl
  · exact .nothing rfl rfl rfl
  · obtain ⟨-, e | ⟨first, rest, fits, e⟩⟩ := dispatch_record hd
    · exact .reply on stop byte data read (by simp [e]) (by simp [e])
    · refine .reply on stop byte data read (fun j beyond => ?_) (by simp [e])
      simp only [e, Work.act_record, Work.setAwaitingReply_record, Work.setTransmitIndex_record, Work.actWr_record,
        Work.setTransmitLength_record, toNat_ofNat_of_le ((fits legal).trans txCap)] at beyond ⊢
      exact Memory.read_writeList_beyond beyond
  · exact .nothing rfl rfl rfl

theorem slaveTransition_stores {c : Config} {ev : Event} {w w' : Work} (legal : c.legal = true)
    (h : slaveTransition c ev w = .ok w') : SlaveStores c ev w w' := by
  rcases slaveTransition_cases h with ⟨-, -, rfl⟩ | ⟨-, -, rfl⟩ | ⟨-, -, rfl⟩ | ⟨ov, st, hw⟩ | ⟨-, -, hw⟩
  · apply SlaveStores.nothing <;> simp [slaveOverrun]
  · rcases slaveIdle_cases ev w with ⟨-, e⟩ | ⟨-, -, -, e⟩ | ⟨-, -, -, -, e⟩ | ⟨-, -, -, -, -, e⟩ | ⟨-, -, -, -, -, e⟩ <;>
      apply SlaveStores.nothing <;> simp [e]
  · rcases slaveStarted_cases ev w.counted with ⟨-, -, e⟩ | ⟨-, -, e⟩ | ⟨-, -, e⟩ | ⟨-, -, -, -, e⟩ | ⟨-, -, -, -, e⟩ <;>
      apply SlaveStores.nothing <;> simp [e]
  · exact slaveRcvData_stores legal ⟨ov, st⟩ hw
  · rcases slaveSend_cases hw with ⟨-, rfl⟩ | ⟨-, -, rfl⟩ | ⟨-, -, -, rfl⟩ | ⟨-, -, -, -, b, -, rfl⟩ | ⟨-, -, -, -, rfl⟩ <;>
      apply SlaveStores.nothing <;> simp

/-- Settles O53: the diagnostic check stores nothing, and each kind of store the rules make meets the frame. -/
theorem slaveEventFrame : Obligations.SlaveEventFrame := by
  intro ev s t legal h
  obtain ⟨-, w, hw, rfl⟩ := execSOnEvent_next h
  obtain ⟨channel, -, record⟩ := diagnosticCheck_frame s.cfg w
  generalize (diagnosticCheck s.cfg w).record.errorCount = tally at record
  obtain ⟨slaveAddress, receiveIndex, -⟩ := slaveTransition_keeps hw
  simp only [State.withWork_cfg, State.withWork_schedule, State.withWork_commandIn, State.withWork_eventIn,
    State.withWork_sampleIn, State.withWork_resultOut, State.withWork_record, channel, record, true_and]
  refine ⟨slaveAddress, receiveIndex, ?_⟩
  cases slaveTransition_stores legal hw with
  | nothing channel tx rx => simp [channel, tx, rx]
  | reply on stop byte address read tx rx =>
    obtain ⟨ov, st⟩ := on
    simp only [Work.start_record] at st tx rx
    simpa [ov, st, stop, byte, address, read, rx] using tx
  | byte on v data channel tx rx =>
    obtain ⟨ov, st⟩ := on
    simp only [Work.start_record] at st tx rx
    refine ⟨by simp [channel, tx], by simp [tx], by simp [ov, st], fun j ne _ => ?_, by grind⟩
    rw [rx, Memory.read_write_ne _ ne]
  | byteAndTrailer on trailer stop byte data channel tx rx =>
    obtain ⟨ov, st⟩ := on
    simp only [Work.start_record] at st tx rx
    refine ⟨by simp [channel, tx], by simp [tx], by simp [ov, st], fun j ne ne' => ?_, by simp [data]⟩
    have ne' : j ≠ s.record.receiveLength.toNat + 1 := by simpa [stop, byte] using ne'
    rw [rx, Memory.read_write_ne _ ne', Memory.read_write_ne _ ne]

/-! ## The step -/

/-- A step keeps what is not on a port, or runs one operation from a state that has it unchanged. -/
theorem step_keeps_or_runs {s t : State} (h : step s = .next t) :
    (t.cfg = s.cfg ∧ t.record = s.record ∧ t.clockHeld = s.clockHeld) ∨
    ∃ i u, u.cfg = s.cfg ∧ u.record = s.record ∧ u.clockHeld = s.clockHeld ∧ exec i u = .next t := by
  obtain ⟨-, -, ⟨-, rfl⟩ | ⟨why, u, taken, rfl⟩ | ⟨i, u, taken, runs⟩⟩ := step_cases h
  · exact .inl ⟨rfl, rfl, rfl⟩
  · obtain ⟨schedule, commandIn, rfl⟩ := (fetch_frame s).1 why u taken
    exact .inl ⟨rfl, rfl, by simp⟩
  · obtain ⟨schedule, commandIn, eventIn, rfl⟩ := (fetch_frame s).2 i u taken
    exact .inr ⟨i, { s with schedule, commandIn, eventIn }, rfl, rfl, rfl, runs⟩

/-- No operation writes the configuration (R35), nor in the slave role slave_address and receive_index (R23, R26), nor in the
master role awaiting_reply (R33). -/
theorem exec_frame {i : Instr} {s t : State} (h : exec i s = .next t) :
    t.cfg = s.cfg ∧
    (s.cfg.role = .slave → t.record.slaveAddress = s.record.slaveAddress ∧ t.record.receiveIndex = s.record.receiveIndex) ∧
    (s.cfg.role = .master → t.record.awaitingReply = s.record.awaitingReply) := by
  cases command : i.isCommand with
  | true =>
    rcases command_cases command h with ⟨r, -, rfl⟩ | ⟨a, payload, rfl, role, -, -, -, rfl⟩ | ⟨n, rfl, role, -, -, -, rfl⟩ |
      ⟨first, rest, rfl, role, -, -, -, rfl⟩
    · simp
    · simp [role]
    · simp [role]
    · simp [role]
  | false =>
    cases i with
    | mOnEvent ev =>
      obtain ⟨role, cfg, -, awaiting⟩ := masterEvent_clock h
      exact ⟨cfg, by simp [role], fun _ => awaiting⟩
    | sOnEvent ev =>
      obtain ⟨role, w, hw, rfl⟩ := execSOnEvent_next h
      obtain ⟨-, -, record⟩ := diagnosticCheck_frame s.cfg w
      obtain ⟨slaveAddress, receiveIndex, -⟩ := slaveTransition_keeps hw
      refine ⟨rfl, fun _ => ?_, by simp [role]⟩
      rw [State.withWork_record, record]
      exact ⟨slaveAddress, receiveIndex⟩
    | _ => simp [Instr.isCommand] at command

/-- Settles O19: the step by its operation, and receive_length by the frames of the commands and the master event. -/
theorem fieldsThatNoStepWrites : Obligations.FieldsThatNoStepWrites := by
  constructor
  · intro s t h
    obtain ⟨cfg, record, -⟩ | ⟨i, u, cfg, record, -, runs⟩ := step_keeps_or_runs h
    · simp [cfg, record]
    · exact record ▸ cfg ▸ exec_frame runs
  · intro i s t h role noRead
    cases command : i.isCommand with
    | true =>
      obtain ⟨-, -, -, -, -, -, -, -, -, read, -⟩ := commandFrame i s t command h
      exact (read noRead).1
    | false =>
      cases i with
      | mOnEvent ev =>
        obtain ⟨-, -, -, -, -, -, -, receiveLength, -⟩ := masterEventFrame ev s t h
        exact receiveLength
      | sOnEvent ev => simp [(execSOnEvent_next h).1] at role
      | _ => simp [Instr.isCommand] at command

end Sys2Proof.Machine
end

section
/-! PROOFS. The invariant of the machine (10_state.md R34): what it says of a Record in each role, that reset meets it, and that every step keeps it and
accounts for the clock hold (41_slave.md R184). -/

namespace Sys2Proof.Machine

/-! ## A buffer -/

/-- A buffer in canonical form inside its capacity, its first n bytes written. -/
structure Memory.Holds (cap : Nat) (m : Memory) (n : Nat) : Prop where
  wf      : Memory.wf m = true
  within  : Memory.within cap m = true
  written : ∀ i < n, (Memory.read m i).isSome = true

theorem Memory.Holds.shorten {cap n k : Nat} {m : Memory} (h : Memory.Holds cap m n) (le : k ≤ n) : Memory.Holds cap m k :=
  ⟨h.wf, h.within, fun i lt => h.written i (lt.trans_le le)⟩

theorem Memory.Holds.push {cap n : Nat} {m : Memory} (h : Memory.Holds cap m n) (lt : n < cap) (v : Byte) :
    Memory.Holds cap (Memory.write m n v) (n + 1) := by
  refine ⟨Memory.wf_write n v h.wf, Memory.within_write lt h.within, fun i hi => ?_⟩
  rw [Memory.read_write]
  split
  · rfl
  · exact h.written i (by omega)

theorem Memory.Holds.stage {cap n : Nat} {m : Memory} {bs : List Byte} (h : Memory.Holds cap m n) (fits : bs.length ≤ cap) :
    Memory.Holds cap (Memory.writeList m 0 bs) bs.length := by
  refine ⟨Memory.wf_writeList 0 bs h.wf, Memory.within_writeList (by omega) h.within, fun i hi => ?_⟩
  rw [Memory.read_writeList, if_pos (by omega)]
  simpa using hi

theorem Memory.Holds.empty (cap : Nat) : Memory.Holds cap [] 0 :=
  ⟨rfl, rfl, fun _ lt => absurd lt (Nat.not_lt_zero _)⟩

/-! ## The invariant in each role -/

/-- What `Record.Inv` says of a master's Record. -/
structure MasterInv (c : Config) (r : Record) : Prop where
  status   : statusOfRole .master r.status = true ∧ r.status ≠ Status.mRepStart.code
  rx       : Memory.Holds c.rxCap r.rxb r.receiveIndex.toNat
  receive  : r.receiveIndex.toNat ≤ r.receiveLength.toNat ∧ r.receiveLength.toNat ≤ c.rxCap
  tx       : Memory.Holds c.txCap r.txb r.transmitLength.toNat
  transmit : r.transmitIndex.toNat ≤ r.transmitLength.toNat ∧ r.transmitLength.toNat ≤ c.txCap
  wanted   : ReadWanted r
  noReply  : r.awaitingReply = false
  code     : r.lastErrorCode = 0x00#8 ∨ r.lastErrorCode = 0x05#8

/-- What `Record.Inv` says of a slave's Record, but for the tally, which a step completes only in its diagnostic check. -/
structure SlaveInv (c : Config) (r : Record) : Prop where
  status    : statusOfRole .slave r.status = true
  rx        : Memory.Holds c.rxCap r.rxb r.receiveLength.toNat
  receive   : r.receiveLength.toNat ≤ c.rxCap - 1
  tx        : Memory.Holds c.txCap r.txb r.transmitLength.toNat
  transmit  : r.transmitIndex.toNat ≤ r.transmitLength.toNat ∧ r.transmitLength.toNat ≤ c.txCap
  awaiting  : r.awaitingReply = true → r.status = Status.sSlaveSend.code
  constants : r.slaveAddress = c.ownAddr ∧ r.receiveIndex = 0#8
  code      : r.lastErrorCode.toNat ≤ 4

theorem statusOfRole_master_ne_sSlaveSend {v : BitVec 4} (h : statusOfRole .master v = true) :
    v ≠ Status.sSlaveSend.code := by
  revert v; decide

/-- No status of the slave role is one of the states ReadWanted speaks of. -/
theorem readWanted_of_slave {r : Record} (h : statusOfRole .slave r.status = true) : ReadWanted r := by
  rcases statusOfRole_slave h with e | e | e | e <;> simp [ReadWanted, e]

theorem recordInv_iff_masterInv {c : Config} {r : Record} (role : c.role = .master) : Record.Inv c r ↔ MasterInv c r := by
  simp only [Record.Inv, StatusHeld, BuffersCanonical, BuffersWritten, SlaveConstants, receivedExtent, errorCodeOfRole,
    invariantsR34_iff, role, reduceCtorEq, false_implies, true_and, Bool.or_eq_true, decide_eq_true_eq]
  constructor
  · rintro ⟨status, ⟨index, length, sent, staged, awaiting⟩, ⟨rxWf, txWf, rxIn, txIn⟩, ⟨txWritten, rxWritten⟩, wanted, code⟩
    exact ⟨status, ⟨rxWf, rxIn, rxWritten⟩, ⟨index, length⟩, ⟨txWf, txIn, txWritten⟩, ⟨sent, staged⟩, wanted,
      Bool.eq_false_iff.mpr fun awaits => statusOfRole_master_ne_sSlaveSend status.1 (awaiting awaits), code⟩
  · rintro ⟨status, rx, ⟨index, length⟩, tx, ⟨sent, staged⟩, wanted, noReply, code⟩
    exact ⟨status, ⟨index, length, sent, staged, by simp [noReply]⟩, ⟨rx.wf, tx.wf, rx.within, tx.within⟩,
      ⟨tx.written, rx.written⟩, wanted, code⟩

theorem recordInv_iff_slaveInv {c : Config} {r : Record} (role : c.role = .slave) :
    Record.Inv c r ↔ SlaveInv c r ∧ r.errorCount.toNat < c.errThreshold := by
  simp only [Record.Inv, StatusHeld, BuffersCanonical, BuffersWritten, SlaveConstants, receivedExtent, errorCodeOfRole,
    invariantsR34_iff, role, forall_const, decide_eq_true_eq]
  constructor
  · rintro ⟨⟨status, -⟩, ⟨-, -, sent, staged, length, tally, awaiting⟩, ⟨rxWf, txWf, rxIn, txIn⟩, ⟨txWritten, rxWritten⟩, -,
      constants, code⟩
    exact ⟨⟨status, ⟨rxWf, rxIn, rxWritten⟩, length, ⟨txWf, txIn, txWritten⟩, ⟨sent, staged⟩, awaiting, constants, code⟩,
      tally⟩
  · rintro ⟨⟨status, rx, length, tx, ⟨sent, staged⟩, awaiting, constants, code⟩, tally⟩
    refine ⟨⟨status, fun e => ?_⟩, ⟨?_, by omega, sent, staged, length, tally, awaiting⟩,
      ⟨rx.wf, tx.wf, rx.within, tx.within⟩, ⟨tx.written, rx.written⟩, readWanted_of_slave status, constants, code⟩
    · rw [e] at status; exact absurd status (by decide)
    · simp [constants.2]

/-! ## Reset -/

theorem masterInv_reset (c : Config) : MasterInv c (Record.reset c) where
  status   := by simp [Record.reset]
  rx       := .empty _
  receive  := ⟨Nat.le_refl _, Nat.zero_le _⟩
  tx       := .empty _
  transmit := ⟨Nat.le_refl _, Nat.zero_le _⟩
  wanted   := by simp [ReadWanted, Record.reset]
  noReply  := rfl
  code     := .inl rfl

theorem slaveInv_reset {c : Config} (role : c.role = .slave) : SlaveInv c (Record.reset c) where
  status    := statusOfRole_idle .slave
  rx        := .empty _
  receive   := Nat.zero_le _
  tx        := .empty _
  transmit  := ⟨Nat.le_refl _, Nat.zero_le _⟩
  awaiting  := nofun
  constants := by simp [Record.reset, role]
  code      := Nat.zero_le _

theorem resetOf_inv {c : Config} (legal : c.legal = true) : (State.resetOf c).Inv := by
  obtain ⟨-, -, -, -, threshold, -⟩ := legal_bounds legal
  cases role : c.role with
  | master => exact ⟨legal, (recordInv_iff_masterInv role).mpr (masterInv_reset c)⟩
  | slave => exact ⟨legal, (recordInv_iff_slaveInv role).mpr ⟨slaveInv_reset role, threshold⟩⟩

/-- Settles O10: the reset Record meets its role's invariant, and reset holds no clock. -/
theorem resetMeetsTheInvariant : Obligations.ResetMeetsTheInvariant :=
  ⟨fun _ legal => ⟨resetOf_inv legal, nofun⟩, resetOf_inv (by decide)⟩

/-! ## The slave's operations keep its invariant -/

section
variable {c : Config} {w w' : Work}

theorem SlaveInv.actIf (h : SlaveInv c w.record) (b : Bool) (x : Strobe) : SlaveInv c (w.actIf b x).record := by
  rwa [Work.actIf_record]

theorem SlaveInv.awaitingReply_false (h : SlaveInv c w.record) (ne : w.record.status ≠ Status.sSlaveSend.code) :
    w.record.awaitingReply = false :=
  Bool.eq_false_iff.mpr fun awaits => ne (h.awaiting awaits)

theorem SlaveInv.counted (h : SlaveInv c w.record) : SlaveInv c w.counted.record := { h with }

theorem SlaveInv.begin (h : SlaveInv c w.record) : SlaveInv c (slaveBegin w).record :=
  { h with rx := h.rx.shorten (Nat.zero_le _), receive := Nat.zero_le _ }

theorem SlaveInv.setStatus (h : SlaveInv c w.record) {st : Status} (ofRole : statusOfRole .slave st.code = true)
    (noReply : w.record.awaitingReply = false) : SlaveInv c (w.setStatus st).record :=
  { h with status := ofRole, awaiting := by simp [noReply] }

theorem SlaveInv.stop (h : SlaveInv c w.record) : SlaveInv c ((w.setStatus .idle).setAwaitingReply false).record :=
  { h with status := statusOfRole_idle .slave, awaiting := nofun }

theorem SlaveInv.abandon (h : SlaveInv c w.record) {e : ErrorCode} (ofRole : e.code.toNat ≤ 4) :
    SlaveInv c (abandon e w).record :=
  { h with
    status := statusOfRole_idle .slave, rx := h.rx.shorten (Nat.zero_le _), receive := Nat.zero_le _, awaiting := nofun,
    code := ofRole }

theorem SlaveInv.enterSend (h : SlaveInv c w.record) : SlaveInv c (enterSend w).record :=
  { h with
    status := statusOfRole_sSlaveSend, tx := h.tx.shorten (Nat.zero_le _), transmit := ⟨Nat.zero_le _, Nat.zero_le _⟩,
    awaiting := fun _ => rfl }

/-- R152, R174: a byte that leaves room for the trailer. -/
theorem SlaveInv.append (h : SlaveInv c w.record) (legal : c.legal = true)
    (room : w.record.receiveLength.toNat + 1 ≤ c.rxCap - 1) (d : Byte) :
    SlaveInv c ((w.storedRx w.record.receiveLength.toNat d).setReceiveLength (w.record.receiveLength + 1#8)).record := by
  obtain ⟨-, rxCap, -⟩ := legal_bounds legal
  have next := toNat_add_one_of_lt room (show c.rxCap - 1 ≤ 255 by omega)
  exact { h with rx := next ▸ h.rx.push (by omega) d, receive := next ▸ room }

/-- R153: the trailer is stored, and the message given up. -/
theorem SlaveInv.messageComplete (h : SlaveInv c w.record) (completes : messageComplete c w = .ok w') :
    SlaveInv c w'.record ∧ w'.record.awaitingReply = w.record.awaitingReply := by
  obtain ⟨lt, bytes, -, -, rfl⟩ := messageComplete_inv completes
  exact ⟨{ h with rx := (h.rx.push lt _).shorten (Nat.zero_le _), receive := Nat.zero_le _ }, rfl⟩

/-- R156: a reply that fits TXB. -/
theorem SlaveInv.staged (h : SlaveInv c w.record) (legal : c.legal = true) {first : Byte} {rest : List Byte}
    (fits : (first :: rest).length ≤ c.txCap) : SlaveInv c (w.staged first rest).record := by
  obtain ⟨-, -, -, txCap, -⟩ := legal_bounds legal
  have length := toNat_ofNat_of_le (fits.trans txCap)
  exact { h with
    tx := length.symm ▸ h.tx.stage fits
    transmit := length.symm ▸ ⟨Nat.succ_pos _, fits⟩
    awaiting := nofun }

/-- R201, R207. -/
theorem SlaveInv.dispatch (h : SlaveInv c w.record) (legal : c.legal = true) (dispatches : dispatch c w = .ok w') :
    SlaveInv c w'.record := by
  have consumed {r : Record} (h : SlaveInv c r) : SlaveInv c { r with receiveLength := 0#8 } :=
    { h with rx := h.rx.shorten (Nat.zero_le _), receive := Nat.zero_le _ }
  obtain ⟨-, e | ⟨first, rest, fits, e⟩⟩ := dispatch_record dispatches <;> rw [e]
  · exact consumed h
  · exact consumed (h.staged legal (fits legal))

end

/-! ## The slave's events keep its invariant -/

section
variable {c : Config} {ev : Event} {w w' : Work}

theorem slaveIdle_keeps_inv (h : SlaveInv c w.record) (idle : w.record.status = Status.idle.code) :
    SlaveInv c (slaveIdle ev w).record := by
  have noReply := h.awaitingReply_false (by simp [idle])
  rcases slaveIdle_cases ev w with ⟨-, e⟩ | ⟨-, -, -, e⟩ | ⟨-, -, -, -, e⟩ | ⟨-, -, -, -, -, e⟩ | ⟨-, -, -, -, -, e⟩ <;> rw [e]
  · exact h.actIf ..
  · exact h.begin.setStatus (by decide) noReply
  · exact h.begin.abandon (w := (slaveBegin w).act .ckpRel) (by decide)
  · exact h.begin.enterSend
  · exact h.begin.setStatus (w := (slaveBegin w).act .ckpRel) (by decide) noReply

theorem slaveStarted_keeps_inv (h : SlaveInv c w.record) (started : w.record.status = Status.sStarted.code) :
    SlaveInv c (slaveStarted ev w).record := by
  have noReply := h.awaitingReply_false (by simp [started])
  rcases slaveStarted_cases ev w with ⟨-, -, e⟩ | ⟨-, -, e⟩ | ⟨-, -, e⟩ | ⟨-, -, -, -, e⟩ | ⟨-, -, -, -, e⟩ <;> rw [e]
  · exact (h.actIf ev.bf .ckpRel).setStatus (by decide) (by simpa using noReply)
  · exact h.abandon (w := w.act .ckpRel) (by decide)
  · exact h
  · exact h.enterSend
  · exact h.setStatus (w := w.act .ckpRel) (by decide) noReply

theorem slaveRcvData_keeps_inv (h : SlaveInv c w.record) (legal : c.legal = true)
    (receives : w.record.status = Status.sRcvData.code) (hw : slaveRcvData c ev w = .ok w') : SlaveInv c w'.record := by
  have noReply := h.awaitingReply_false (by simp [receives])
  have released : SlaveInv c (w.act .ckpRel).record := h
  rcases slaveRcvData_cases hw with ⟨-, -, v, hv, rfl⟩ | ⟨-, -, -, room, v, hv, rfl⟩ | ⟨-, -, rfl⟩ | ⟨-, -, -, room, rfl⟩ |
    ⟨-, -, -, rfl⟩ | ⟨-, -, -, -, dispatches⟩ | ⟨-, -, -, rfl⟩
  · obtain ⟨complete, awaiting⟩ := h.messageComplete hv
    exact complete.setStatus (by decide) (awaiting.trans noReply)
  · obtain ⟨complete, awaiting⟩ := (released.append legal room ev.data).messageComplete hv
    exact complete.setStatus (by decide) (awaiting.trans noReply)
  · exact h
  · exact released.append legal room ev.data
  · exact released.abandon (by decide)
  · exact h.enterSend.dispatch legal dispatches
  · exact released.abandon (by decide)

theorem slaveSend_keeps_inv (h : SlaveInv c w.record) (legal : c.legal = true) (hw : slaveSend c ev w = .ok w') :
    SlaveInv c w'.record := by
  rcases slaveSend_cases hw with ⟨-, rfl⟩ | ⟨-, -, rfl⟩ | ⟨-, -, -, rfl⟩ | ⟨-, -, -, pending, b, -, rfl⟩ |
    ⟨-, -, noReply, -, rfl⟩
  · exact (h.actIf ev.bf .ckpRel).stop
  · exact h.abandon (w := w.act .ckpRel) (by decide)
  · exact h
  · obtain ⟨-, -, -, txCap, -⟩ := legal_bounds legal
    have next := toNat_add_one_of_lt pending (h.transmit.2.trans txCap)
    exact { h with transmit := ⟨next ▸ pending, h.transmit.2⟩ }
  · exact h.setStatus (by decide) noReply

theorem slaveTransition_keeps_inv (h : SlaveInv c w.record) (legal : c.legal = true)
    (hw : slaveTransition c ev w = .ok w') : SlaveInv c w'.record := by
  rcases slaveTransition_cases hw with ⟨-, -, rfl⟩ | ⟨-, st, rfl⟩ | ⟨-, st, rfl⟩ | ⟨-, st, hw⟩ | ⟨-, -, hw⟩
  · have cleared : SlaveInv c (w.act .ovClr).record := h
    exact (cleared.actIf ev.bf .ckpRel).abandon (by decide)
  · exact slaveIdle_keeps_inv h st
  · exact slaveStarted_keeps_inv h.counted st
  · exact slaveRcvData_keeps_inv h.counted legal st hw
  · exact slaveSend_keeps_inv h.counted legal hw

end

/-- R154, R34 (d): after the diagnostic check the tally is below the threshold, if only a recorded error moved it. -/
theorem diagnosticCheck_tally {c : Config} {w w' : Work} (legal : c.legal = true)
    (below : w.record.errorCount.toNat < c.errThreshold) (kept : SlaveKept w w') :
    (diagnosticCheck c w').record.errorCount.toNat < c.errThreshold := by
  obtain ⟨-, -, -, -, threshold, -⟩ := legal_bounds legal
  rcases diagnosticCheck_cases c w' with ⟨-, -, e⟩ | ⟨noError | below', e⟩ <;> rw [e]
  · exact threshold
  · rwa [kept.tally noError]
  · exact below'

theorem sOnEvent_keeps_inv {ev : Event} {s t : State} (h : s.Inv) (runs : exec (.sOnEvent ev) s = .next t) : t.Inv := by
  obtain ⟨legal, inv⟩ := h
  obtain ⟨role, w, hw, rfl⟩ := execSOnEvent_next runs
  obtain ⟨shape, below⟩ := (recordInv_iff_slaveInv role).mp inv
  have kept := slaveTransition_keeps_inv (w := Work.start s) shape legal hw
  refine ⟨legal, (recordInv_iff_slaveInv role).mpr
    ⟨?_, diagnosticCheck_tally (w := Work.start s) legal below (slaveTransition_keeps hw)⟩⟩
  obtain ⟨-, -, record⟩ := diagnosticCheck_frame s.cfg w
  rw [State.withWork_record, record]
  exact { kept with }

/-! ## The master's operations keep its invariant -/

section
variable {c : Config} {w : Work}

theorem MasterInv.counted (h : MasterInv c w.record) : MasterInv c w.counted.record := { h with }

/-- IDLE and M_END_WRITE want nothing. -/
theorem MasterInv.setStatus (h : MasterInv c w.record) {st : Status} (rest : st = .idle ∨ st = .mEndWrite) :
    MasterInv c (w.setStatus st).record := by
  rcases rest with rfl | rfl <;> exact { h with status := by simp, wanted := by simp [ReadWanted] }

/-- R113: a read of 1 to RX_CAP bytes. -/
theorem MasterInv.startRead (h : MasterInv c w.record) {n : Byte} (pos : 0 < n.toNat) (fits : n.toNat ≤ c.rxCap) :
    MasterInv c (startRead n w).record :=
  { h with
    status := by simp, rx := h.rx.shorten (Nat.zero_le _), receive := ⟨Nat.zero_le _, fits⟩,
    wanted := by simpa [ReadWanted] using fun _ => pos }

/-- R119, R120, R121: M_REP_START is left within the step. -/
theorem MasterInv.exhausted (h : MasterInv c w.record) : MasterInv c (masterExhausted w).record := by
  rcases repStart_cases (w.setStatus .mRepStart) with ⟨wanted, e⟩ | ⟨-, e⟩ <;> rw [masterExhausted, e]
  · have pos : 0 < w.record.receiveLength.toNat :=
      Nat.pos_of_ne_zero fun zero => wanted (BitVec.eq_of_toNat_eq zero)
    exact h.startRead (w := w) pos h.receive.2
  · exact h.setStatus (.inl rfl)

/-- R125, R126: the byte that was still wanted. -/
theorem MasterInv.stored (h : MasterInv c w.record) (legal : c.legal = true) (fits : w.record.receiveIndex.toNat < c.rxCap)
    (wants : w.record.receiveIndex.toNat < w.record.receiveLength.toNat) (d : Byte) {st : Status}
    (next : st = .mRcvData ∧ w.record.receiveIndex.toNat + 1 < w.record.receiveLength.toNat ∨ st = .mEndWrite) :
    MasterInv c { w.record with
      rxb          := Memory.write w.record.rxb w.record.receiveIndex.toNat d
      receiveIndex := w.record.receiveIndex + 1#8
      status       := st.code } := by
  obtain ⟨-, rxCap, -⟩ := legal_bounds legal
  have index := toNat_add_one_of_lt fits rxCap
  refine { h with
    status := ?_, rx := index ▸ h.rx.push fits d, receive := ⟨index ▸ wants, h.receive.2⟩, wanted := ?_ }
  · rcases next with ⟨rfl, -⟩ | rfl <;> simp
  · rcases next with ⟨rfl, more⟩ | rfl
    · simpa only [ReadWanted, index] using ⟨fun _ => more, by simp, by simp⟩
    · simp [ReadWanted]

end

theorem masterEvent_keeps_inv {c : Config} {ev : Event} {w w' : Work} (h : MasterInv c w.record) (legal : c.legal = true)
    (hw : masterEvent c ev w = .ok w') : MasterInv c w'.record := by
  obtain ⟨wanted, addressed, writes⟩ := h.wanted
  rcases masterEvent_cases hw with ⟨-, rfl⟩ | ⟨st, rfl⟩ | ⟨st, -, rfl⟩ | ⟨st, -, pending, b, -, rfl⟩ | ⟨st, -, -, rfl⟩ |
    ⟨st, -⟩ | ⟨st, rfl⟩ | ⟨st, more, fits, rfl⟩ | ⟨st, -, fits, bytes, -, -, rfl⟩ | ⟨st, rfl⟩
  · exact h
  · cases read : isRead w.record.slaveAddress <;>
      simp only [masterWriteAddr, Work.setEventCount_record, read, if_true, Bool.false_eq_true, if_false]
    · exact { h with status := by simp, wanted := by simpa [ReadWanted] using read }
    · exact { h with status := by simp, wanted := by simpa [ReadWanted] using addressed st read }
  · exact { h with
      status := by simp [masterRetry], transmit := ⟨Nat.zero_le _, h.transmit.2⟩
      wanted := by simp [ReadWanted, masterRetry, writes st], code := .inr rfl }
  · obtain ⟨-, -, -, txCap, -⟩ := legal_bounds legal
    have next := toNat_add_one_of_lt pending (h.transmit.2.trans txCap)
    exact { h with transmit := ⟨next ▸ pending, h.transmit.2⟩ }
  · exact h.counted.exhausted
  · exact absurd st h.status.2
  · rcases masterRcvData_cases ev w.counted with ⟨-, e⟩ | ⟨-, e⟩ <;> rw [e]
    · exact { h with status := by simp, wanted := by simp [ReadWanted], code := .inr rfl }
    · exact { h with status := by simp, wanted := by simpa [ReadWanted] using wanted (.inl st) }
  · exact h.counted.stored legal fits (wanted (.inr st)) ev.data (.inl ⟨rfl, more⟩)
  · exact h.counted.stored legal fits (wanted (.inr st)) ev.data (.inr rfl)
  · exact MasterInv.setStatus (w := w.counted.act .pen) h.counted (.inl rfl)

theorem mOnEvent_keeps_inv {ev : Event} {s t : State} (h : s.Inv) (runs : exec (.mOnEvent ev) s = .next t) : t.Inv := by
  obtain ⟨legal, inv⟩ := h
  obtain ⟨role, w, hw, rfl⟩ := execMOnEvent_next runs
  have inv := (recordInv_iff_masterInv role).mp inv
  exact ⟨legal, (recordInv_iff_masterInv role).mpr (masterEvent_keeps_inv (w := Work.start s) inv legal hw)⟩

/-! ## Commands -/

/-- R111: a write address, and a payload that fits TXB. -/
theorem MasterInv.beginWrite {c : Config} {w : Work} (h : MasterInv c w.record) (legal : c.legal = true) {a : Byte}
    {payload : List Byte} (write : isRead a = false) (fits : payload.length ≤ c.txCap) :
    MasterInv c ((((((w.storedTx payload).setTransmitLength (BitVec.ofNat 8 payload.length)).setTransmitIndex
      0#8).setSlaveAddress a).setEventCount 0#8).setStatus .mWriteAddr).record := by
  obtain ⟨-, -, -, txCap, -⟩ := legal_bounds legal
  have length := toNat_ofNat_of_le (fits.trans txCap)
  exact { h with
    status := by simp
    tx := length.symm ▸ h.tx.stage fits
    transmit := length.symm ▸ ⟨Nat.zero_le _, fits⟩
    wanted := by simp [ReadWanted, write] }

theorem command_keeps_inv {i : Instr} {s t : State} (command : i.isCommand = true) (h : s.Inv)
    (runs : exec i s = .next t) : t.Inv := by
  obtain ⟨legal, inv⟩ := h
  rcases command_cases command runs with ⟨r, -, rfl⟩ | ⟨a, payload, -, role, write, fits, -, rfl⟩ |
    ⟨n, -, role, pos, fits, -, rfl⟩ | ⟨first, rest, -, role, fits, -, -, rfl⟩
  · exact ⟨legal, inv⟩
  · have inv := (recordInv_iff_masterInv role).mp inv
    exact ⟨legal, (recordInv_iff_masterInv role).mpr (inv.beginWrite (w := Work.start s) legal write fits)⟩
  · have inv := (recordInv_iff_masterInv role).mp inv
    exact ⟨legal, (recordInv_iff_masterInv role).mpr
      (MasterInv.startRead (w := (Work.start s).setEventCount 0#8) { inv with } pos fits)⟩
  · obtain ⟨inv, below⟩ := (recordInv_iff_slaveInv role).mp inv
    exact ⟨legal, (recordInv_iff_slaveInv role).mpr ⟨inv.staged (w := Work.start s) legal fits, below⟩⟩

/-! ## The step -/

theorem exec_keeps_inv {i : Instr} {s t : State} (h : s.Inv) (runs : exec i s = .next t) : t.Inv := by
  cases i with
  | mOnEvent ev => exact mOnEvent_keeps_inv h runs
  | sOnEvent ev => exact sOnEvent_keeps_inv h runs
  | mBeginWrite a payload => exact command_keeps_inv rfl h runs
  | mBeginRead n => exact command_keeps_inv rfl h runs
  | sBeginReply payload => exact command_keeps_inv rfl h runs

/-- R184: a slave event leaves the clock held only where it was held before and is still accounted for, or where it leaves a reply
awaited. -/
theorem sOnEvent_keeps_holdAccounted {ev : Event} {s t : State} (h : s.HoldAccounted)
    (runs : exec (.sOnEvent ev) s = .next t) : t.HoldAccounted := by
  obtain ⟨role, cfg, w, release, -, clock, -, awaiting, code⟩ := slaveEvent_clock runs
  intro held
  refine ⟨cfg ▸ role, ?_⟩
  rw [awaiting, code]
  obtain ⟨found, kept⟩ : holdAtEvent s ev = true ∧ w.actions.ckpRel = false := by
    simpa [clock, clockAfter] using held
  cases bf : ev.bf with
  | true =>
    obtain released | ⟨-, -, -, -, -, awaits⟩ := release.byte bf
    · simp [kept] at released
    · exact .inl awaits
  | false =>
    have unasked : ¬ (isTxDone ev = true ∧ replyByteDue s.record = true) := fun ⟨done, due⟩ => by
      simp [release.due done due] at kept
    obtain ⟨before, noStop⟩ : s.clockHeld = true ∧ (ev.p = false ∨ ev.ov = true) := by
      simpa [holdAtEvent_noByte role bf, unasked] using found
    obtain ⟨-, awaits | overrun⟩ := h before
    · obtain same | ⟨stop, noOverrun⟩ | ⟨-, overrun⟩ := release.awaiting bf
      · exact .inl (same.trans awaits)
      · simp [stop, noOverrun] at noStop
      · exact .inr overrun
    · obtain same | overrun' := release.code bf
      · exact .inr (same.trans overrun)
      · exact .inr overrun'

/-- R184, R225: a command keeps the hold and what accounts for it, or releases the clock. -/
theorem command_keeps_holdAccounted {i : Instr} {s t : State} (command : i.isCommand = true) (h : s.HoldAccounted)
    (runs : exec i s = .next t) : t.HoldAccounted := by
  obtain ⟨code, cfg, ⟨held, awaiting, -⟩ | ⟨released, -⟩⟩ := command_clock command runs
  · simpa [State.HoldAccounted, code, cfg, held, awaiting] using h
  · simp [State.HoldAccounted, released]

theorem exec_keeps_holdAccounted {i : Instr} {s t : State} (h : s.HoldAccounted) (runs : exec i s = .next t) :
    t.HoldAccounted := by
  cases i with
  | mOnEvent ev =>
    obtain ⟨role, -, clock, -⟩ := masterEvent_clock runs
    intro held
    obtain ⟨slave, -⟩ := h (clock ▸ held)
    simp [role] at slave
  | sOnEvent ev => exact sOnEvent_keeps_holdAccounted h runs
  | mBeginWrite a payload => exact command_keeps_holdAccounted rfl h runs
  | mBeginRead n => exact command_keeps_holdAccounted rfl h runs
  | sBeginReply payload => exact command_keeps_holdAccounted rfl h runs

/-- Settles O11: a step keeps all that either invariant speaks of, or runs an operation, and every operation keeps both. -/
theorem everyStepKeepsTheInvariant : Obligations.EveryStepKeepsTheInvariant := by
  constructor
  · intro s t h steps
    obtain ⟨cfg, record, -⟩ | ⟨i, u, cfg, record, -, runs⟩ := step_keeps_or_runs steps
    · simpa only [State.Inv, cfg, record] using h
    · exact exec_keeps_inv (by simpa only [State.Inv, cfg, record] using h) runs
  · intro s t h steps
    obtain ⟨cfg, record, clock⟩ | ⟨i, u, cfg, record, clock, runs⟩ := step_keeps_or_runs steps
    · simpa only [State.HoldAccounted, cfg, record, clock] using h
    · exact exec_keeps_holdAccounted (by simpa only [State.HoldAccounted, cfg, record, clock] using h) runs

end Sys2Proof.Machine
end

section
/-! PROOFS. MemRead and MemWrite: what one access sees and changes, and when it faults (20_memory.md R60 to R62). -/

namespace Sys2Proof.Machine

section
variable {c : Config} {sp : Space} {i : Nat} {w : Work}

/-- R61, R239 (b). -/
theorem memRead_outOfRange (beyond : capacity c sp ≤ i) : memRead c sp i w = .error (.indexOutOfRange sp i) :=
  if_neg (Nat.not_lt.mpr beyond)

/-- R61, R239 (b). -/
theorem memWrite_outOfRange (beyond : capacity c sp ≤ i) (v : Byte) :
    memWrite c sp i v w = .error (.indexOutOfRange sp i) :=
  if_neg (Nat.not_lt.mpr beyond)

/-- R62, R239 (c): no value is chosen for a byte that no step has written. -/
theorem memRead_unwritten (inRange : i < capacity c sp) (absent : Memory.read (w.record.space sp) i = none) :
    memRead c sp i w = .error (.readUnwritten sp i) := by
  simp [memRead, inRange, absent]

end

/-- The two spaces of R60 share no byte. -/
theorem Record.space_setSpace_ne {sp other : Space} (ne : other ≠ sp) (r : Record) (m : Memory) :
    (r.setSpace m sp).space other = r.space other := by
  cases sp <;> cases other
  · exact absurd rfl ne
  · rfl
  · rfl
  · exact absurd rfl ne

/-- Settles O14: the state MemWrite answers holds the written list in its own space and the other space as it was. -/
theorem bufferAccess : Obligations.BufferAccess := by
  intro c sp other i v w
  constructor
  · intro inRange
    refine ⟨fun b written => memRead_ok inRange written, _, memWrite_ok inRange, fun j => ?_, fun ne => ?_, fun wf => ?_⟩
    · rw [Record.space_setSpace, Memory.read_write]
    · exact Record.space_setSpace_ne ne ..
    · rw [Record.space_setSpace]
      exact Memory.wf_write i v wf
  · intro beyond
    exact ⟨memRead_outOfRange beyond, memWrite_outOfRange beyond v⟩

/-- Settles O15, by the rule for a byte in range that the space does not list. -/
theorem unwrittenBytesFault : Obligations.UnwrittenBytesFault := by
  intro c sp i w inRange absent
  exact memRead_unwritten inRange absent

end Sys2Proof.Machine
end

section
/-! PROOFS. What a step drives on the output ports: one action word, and at most one message and one result code (20_memory.md R70; 30_encoding.md R80;
60_exceptions.md R225, R228). -/

namespace Sys2Proof.Machine

/-! ## The messages of the procedures -/

@[simp] theorem abandon_sent (e : ErrorCode) (w : Work) : (abandon e w).sent = w.sent := rfl

@[simp] theorem enterSend_sent (w : Work) : (enterSend w).sent = w.sent := rfl

@[simp] theorem slaveBegin_sent (w : Work) : (slaveBegin w).sent = w.sent := rfl

@[simp] theorem tryReceive_sent (w : Work) : w.tryReceive.2.sent = w.sent := by
  unfold Work.tryReceive; split <;> rfl

/-! ## Events -/

/-- R228: what each state of R114 sends. -/
theorem masterEvent_sent {c : Config} {ev : Event} {w w' : Work} (h : masterEvent c ev w = .ok w') (fresh : w.sent = []) :
    w'.sent.length ≤ 1 := by
  rcases masterEvent_cases h with ⟨-, rfl⟩ | ⟨-, rfl⟩ | ⟨-, -, rfl⟩ | ⟨-, -, -, b, -, rfl⟩ | ⟨-, -, -, rfl⟩ | ⟨-, rfl⟩ |
    ⟨-, rfl⟩ | ⟨-, -, -, rfl⟩ | ⟨-, -, -, bytes, -, -, rfl⟩ | ⟨-, rfl⟩
  · simp [fresh]
  · simp [fresh, masterWriteAddr]
  · simp [fresh, masterRetry]
  · simp [fresh]
  · rcases repStart_cases (w.counted.setStatus .mRepStart) with ⟨-, e⟩ | ⟨-, e⟩ <;> simp [fresh, masterExhausted, e]
  · rcases repStart_cases w.counted with ⟨-, e⟩ | ⟨-, e⟩ <;> simp [fresh, e]
  · rcases masterRcvData_cases ev w.counted with ⟨-, e⟩ | ⟨-, e⟩ <;> simp [fresh, e]
  · simp [fresh]
  · simp [fresh]
  · simp [fresh, masterEndWrite]

/-- The rules of a slave event have sent nothing, or one message in a step that records no error: a message leaves no room for the
diagnostic only where none is due (R154, R228). -/
inductive SentBeforeCheck (w : Work) : Prop where
  | nothing (sent : w.sent = [])
  | message (sent : w.sent.length = 1) (noError : w.recordedError = false)

theorem diagnosticCheck_sent {c : Config} {w : Work} (h : SentBeforeCheck w) : (diagnosticCheck c w).sent.length ≤ 1 := by
  rcases diagnosticCheck_cases c w with ⟨error, -, e⟩ | ⟨-, e⟩ <;> rw [e]
  · cases h with
    | nothing sent => simp [sent]
    | message _ noError => simp [noError] at error
  · cases h with
    | nothing sent => simp [sent]
    | message sent _ => exact sent.le

section
variable {c : Config} {ev : Event} {w w' : Work}

theorem messageComplete_sent (h : messageComplete c w = .ok w') (fresh : w.sent = []) :
    w'.sent.length = 1 ∧ w'.recordedError = w.recordedError := by
  obtain ⟨-, bytes, -, -, rfl⟩ := messageComplete_inv h
  simp [fresh]

theorem dispatch_sent (h : dispatch c w = .ok w') (fresh : w.sent = []) : w'.sent = [] ∨ w'.sent.length = 1 := by
  rcases dispatch_cases h with ⟨first, rest, -, -, -, rfl⟩ | ⟨first, rest, -, -, -, rfl⟩ |
    ⟨first, rest, bytes, -, -, -, -, -, rfl⟩ | rfl
  · simp [fresh]
  · simp [fresh]
  · simp [fresh]
  · simp [fresh]

theorem slaveRcvData_sent (h : slaveRcvData c ev w = .ok w') (fresh : w.sent = []) (noError : w.recordedError = false) :
    SentBeforeCheck w' := by
  rcases slaveRcvData_cases h with ⟨-, -, v, hv, rfl⟩ | ⟨-, -, -, -, v, hv, rfl⟩ | ⟨-, -, rfl⟩ | ⟨-, -, -, -, rfl⟩ |
    ⟨-, -, -, rfl⟩ | ⟨-, -, -, -, hd⟩ | ⟨-, -, -, rfl⟩
  · obtain ⟨one, error⟩ := messageComplete_sent hv fresh
    exact .message one (error.trans noError)
  · obtain ⟨one, error⟩ := messageComplete_sent hv fresh
    exact .message one (error.trans noError)
  · exact .nothing fresh
  · exact .nothing fresh
  · exact .nothing fresh
  · obtain ⟨error, -⟩ := dispatch_record hd
    obtain nothing | one := dispatch_sent hd fresh
    · exact .nothing nothing
    · exact .message one (error.trans noError)
  · exact .nothing fresh

theorem slaveTransition_sent (h : slaveTransition c ev w = .ok w') (fresh : w.sent = []) (noError : w.recordedError = false) :
    SentBeforeCheck w' := by
  rcases slaveTransition_cases h with ⟨-, -, rfl⟩ | ⟨-, -, rfl⟩ | ⟨-, -, rfl⟩ | ⟨-, -, hw⟩ | ⟨-, -, hw⟩
  · exact .nothing (by simp [slaveOverrun, fresh])
  · rcases slaveIdle_cases ev w with ⟨-, e⟩ | ⟨-, -, -, e⟩ | ⟨-, -, -, -, e⟩ | ⟨-, -, -, -, -, e⟩ | ⟨-, -, -, -, -, e⟩ <;>
      exact .nothing (by simp [e, fresh])
  · rcases slaveStarted_cases ev w.counted with ⟨-, -, e⟩ | ⟨-, -, e⟩ | ⟨-, -, e⟩ | ⟨-, -, -, -, e⟩ | ⟨-, -, -, -, e⟩ <;>
      exact .nothing (by simp [e, fresh])
  · exact slaveRcvData_sent hw fresh noError
  · rcases slaveSend_cases hw with ⟨-, rfl⟩ | ⟨-, -, rfl⟩ | ⟨-, -, -, rfl⟩ | ⟨-, -, -, -, b, -, rfl⟩ | ⟨-, -, -, -, rfl⟩ <;>
      exact .nothing (by simp [fresh])

end

/-! ## Operations and steps -/

/-- What one operation drives on the output ports. -/
structure Driven (s t : State) (action : ActionWord) (messages : List Message) (results : List ResultCode) : Prop where
  actionOut  : t.actionOut = s.actionOut ++ [action]
  messageOut : t.messageOut = s.messageOut ++ messages
  resultOut  : t.resultOut = s.resultOut ++ results
  oneMessage : messages.length ≤ 1
  oneResult  : results.length ≤ 1

/-- An event step returns no result code (R114). -/
theorem driven_withWork {s : State} {held : Bool} {w : Work} (one : w.sent.length ≤ 1) :
    Driven s (s.withWork held w) w.actions.word w.sent [] :=
  ⟨rfl, rfl, (List.append_nil _).symm, one, Nat.zero_le _⟩

/-- A command step returns one (R82). -/
theorem driven_command {s : State} {held : Bool} {w : Work} (one : w.sent.length ≤ 1) (r : ResultCode) :
    Driven s { s.withWork held w with resultOut := s.resultOut ++ [r] } w.actions.word w.sent [r] :=
  ⟨rfl, rfl, rfl, one, Nat.le_refl _⟩

theorem exec_drives {i : Instr} {s t : State} (h : exec i s = .next t) :
    ∃ action messages results, Driven s t action messages results := by
  cases command : i.isCommand with
  | true =>
    rcases command_cases command h with ⟨r, -, rfl⟩ | ⟨a, payload, -, -, -, -, -, rfl⟩ | ⟨n, -, -, -, -, -, rfl⟩ |
      ⟨first, rest, -, -, -, -, -, rfl⟩ <;>
      exact ⟨_, _, _, driven_command (by simp) _⟩
  | false =>
    cases i with
    | mOnEvent ev =>
      obtain ⟨-, w, hw, rfl⟩ := execMOnEvent_next h
      exact ⟨_, _, _, driven_withWork (masterEvent_sent hw rfl)⟩
    | sOnEvent ev =>
      obtain ⟨-, w, hw, rfl⟩ := execSOnEvent_next h
      exact ⟨_, _, _, driven_withWork (diagnosticCheck_sent (slaveTransition_sent hw rfl rfl))⟩
    | _ => simp [Instr.isCommand] at command

/-- Taking an input drives nothing, so what the operation drives is what the step drives. -/
theorem Driven.of_outputs {s u t : State} {action : ActionWord} {messages : List Message} {results : List ResultCode}
    (h : Driven u t action messages results) (actionOut : u.actionOut = s.actionOut) (messageOut : u.messageOut = s.messageOut)
    (resultOut : u.resultOut = s.resultOut) : Driven s t action messages results :=
  ⟨actionOut ▸ h.actionOut, messageOut ▸ h.messageOut, resultOut ▸ h.resultOut, h.oneMessage, h.oneResult⟩

theorem step_drives {s t : State} (h : step s = .next t) :
    (fetch s = .nothing ∧ t = s) ∨ ∃ action messages results, Driven s t action messages results := by
  obtain ⟨-, -, idle | ⟨why, u, taken, rfl⟩ | ⟨i, u, taken, runs⟩⟩ := step_cases h
  · exact .inl idle
  · obtain ⟨schedule, commandIn, rfl⟩ := (fetch_frame s).1 why u taken
    exact .inr ⟨_, _, _, (driven_command (Nat.zero_le _) _).of_outputs rfl rfl rfl⟩
  · obtain ⟨schedule, commandIn, eventIn, rfl⟩ := (fetch_frame s).2 i u taken
    obtain ⟨action, messages, results, driven⟩ := exec_drives runs
    exact .inr ⟨action, messages, results, driven.of_outputs rfl rfl rfl⟩

/-- Settles O18: a step with an input drives what its operation does, and one without drives nothing. -/
theorem oneMessageAtMostPerStep : Obligations.OneMessageAtMostPerStep := by
  intro s t h
  obtain ⟨nothing, rfl⟩ | ⟨action, messages, results, driven⟩ := step_drives h
  · exact ⟨[], [], [], by simp [nothing]⟩
  · obtain ⟨actionOut, messageOut, resultOut, oneMessage, oneResult⟩ := driven
    exact ⟨[action], messages, results, actionOut, messageOut, resultOut, oneMessage, oneResult, fun _ => rfl⟩

end Sys2Proof.Machine
end

section
/-! PROOFS. Under the invariant every operation has an outcome: no index is out of range, no unwritten byte is read and no event finds a state of no rule
(20_memory.md R61, R62; 30_encoding.md R85; 60_exceptions.md R239). -/

namespace Sys2Proof.Machine

/-! ## The buffers, and the count of events -/

section
variable {c : Config} {w : Work} {n i : Nat}

/-- A byte among the first n of a buffer that holds n is read. -/
theorem memRead_answers {sp : Space} (h : Memory.Holds (capacity c sp) (w.record.space sp) n) (lt : i < n)
    (fits : n ≤ capacity c sp) : ∃ b, memRead c sp i w = .ok b := by
  obtain ⟨b, written⟩ := Option.isSome_iff_exists.mp (h.written i lt)
  exact ⟨b, memRead_ok (lt.trans_le fits) written⟩

/-- So are all its first n bytes. -/
theorem memReadFrom_answers {sp : Space} (h : Memory.Holds (capacity c sp) (w.record.space sp) n)
    (fits : n ≤ capacity c sp) : ∃ bytes, memReadFrom c sp 0 n w = .ok bytes := by
  obtain ⟨bytes, e, -⟩ := memReadFrom_ok (c := c) (sp := sp) (i := 0) (n := n) (w := w) (by omega)
    fun k lt => by simpa using h.written k lt
  exact ⟨bytes, e⟩

end

/-- An event found in a state but IDLE is counted (R114, R159). -/
theorem Work.countEvent_of_status {w : Work} {st : Status} (busy : st ≠ .idle) (e : w.record.status = st.code) :
    w.countEvent = w.counted :=
  w.countEvent_busy (by simpa [e] using busy)

/-! ## Commands -/

/-- R225: a refusal is an answer. -/
theorem refuseCommand_answers (s : State) (r : ResultCode) : ∃ t, refuseCommand s r = .next t := ⟨_, rfl⟩

theorem finishCommand_answers {s : State} (r : ResultCode) {e : Except Fault Work} (h : ∃ w, e = .ok w) :
    ∃ t, finishCommand s r e = .next t := by
  obtain ⟨w, rfl⟩ := h
  exact ⟨_, rfl⟩

/-- R111: a payload that fits TXB is stored. -/
theorem beginWrite_answers {c : Config} {a : Byte} {payload : List Byte} {w : Work} (fits : payload.length ≤ c.txCap) :
    ∃ w', beginWrite c a payload w = .ok w' := by
  simp [beginWrite, memWriteFrom_ok (c := c) (sp := .tx) (i := 0) (bs := payload) (w := w) (by simpa using fits), bind,
    Except.bind]

/-- R156: so is a reply of at least one byte. -/
theorem stageReply_answers {c : Config} {q : List Byte} {w : Work} (nonempty : 1 ≤ q.length) (fits : q.length ≤ c.txCap) :
    ∃ first rest, stageReply c q w = .ok (w.staged first rest) := by
  cases q with
  | nil => exact absurd nonempty (by simp)
  | cons first rest => exact ⟨first, rest, stageReply_ok fits⟩

/-- A check that may refuse answers if what comes after it does (R112, R225). -/
theorem check_answers {p : Prop} [Decidable p] {s : State} {r : ResultCode} {o : Host.Outcome State Fault Refusal}
    (h : ¬ p → ∃ t, o = .next t) : ∃ t, (if p then refuseCommand s r else o) = .next t := by
  split
  · exact refuseCommand_answers ..
  · rename_i passed
    exact h passed

/-- R225: every command is answered, in any state. -/
theorem command_answers {i : Instr} (command : i.isCommand = true) (s : State) : ∃ t, exec i s = .next t := by
  cases i with
  | mBeginWrite a payload =>
    refine check_answers fun _ => check_answers fun operands => check_answers fun _ => ?_
    obtain ⟨-, fits⟩ : isRead a = false ∧ payload.length ≤ s.cfg.txCap := by simpa [writeOperandsOk] using operands
    exact finishCommand_answers _ (beginWrite_answers fits)
  | mBeginRead n =>
    refine check_answers fun _ => check_answers fun _ => check_answers fun _ => ?_
    exact finishCommand_answers _ ⟨_, rfl⟩
  | sBeginReply payload =>
    refine check_answers fun _ => check_answers fun operand => check_answers fun _ => ?_
    obtain ⟨nonempty, fits⟩ : 1 ≤ payload.length ∧ payload.length ≤ s.cfg.txCap := by
      simpa only [replyOperandOk, Bool.not_eq_true, Bool.not_eq_false', Bool.and_eq_true, decide_eq_true_eq] using operand
    obtain ⟨first, rest, staged⟩ := stageReply_answers (w := Work.start s) nonempty fits
    exact finishCommand_answers _ ⟨_, staged⟩
  | mOnEvent ev => simp [Instr.isCommand] at command
  | sOnEvent ev => simp [Instr.isCommand] at command

/-! ## Master events -/

section
variable {c : Config} {ev : Event} {w : Work}

/-- R117 to R119: bytes pending are written, and transmit_index is never above transmit_length. -/
theorem masterWriteData_answers (h : MasterInv c w.record) : ∃ w', masterWriteData c ev w = .ok w' := by
  obtain ⟨sent, staged⟩ := h.transmit
  simp only [masterWriteData]
  split
  · exact ⟨_, rfl⟩
  split
  · rename_i pending
    obtain ⟨b, read⟩ := memRead_answers (c := c) (sp := .tx) (w := w) h.tx pending staged
    simp [masterSendNext, read, bind, Except.bind]
  split
  · exact ⟨_, rfl⟩
  · omega

theorem masterStore_ok (inRange : w.record.receiveIndex.toNat < c.rxCap) :
    masterStore c ev w =
      .ok ((w.storedRx w.record.receiveIndex.toNat ev.data).setReceiveIndex (w.record.receiveIndex + 1#8)) := by
  simp only [masterStore, bind, Except.bind,
    memWrite_ok (c := c) (sp := .rx) (v := ev.data) (w := w) inRange]
  rfl

/-- R125, R126: the byte that is still wanted fits RXB, and after the last one all the bytes read are written. -/
theorem masterAck_answers (h : MasterInv c w.record) (st : w.record.status = Status.mAck.code) :
    ∃ w', masterAck c ev w = .ok w' := by
  have wants : w.record.receiveIndex.toNat < w.record.receiveLength.toNat := h.wanted.1 (.inr st)
  have inRange := wants.trans_le h.receive.2
  simp only [masterAck]
  split
  · simp [masterAckMore, masterStore_ok inRange, bind, Except.bind]
  · rename_i last
    have holds := h.rx.push inRange ev.data
    rw [show w.record.receiveIndex.toNat + 1 = w.record.receiveLength.toNat by omega] at holds
    obtain ⟨bytes, read⟩ := memReadFrom_answers (c := c) (sp := .rx)
      (w := (w.storedRx w.record.receiveIndex.toNat ev.data).setReceiveIndex (w.record.receiveIndex + 1#8))
      holds h.receive.2
    simp [masterAckLast, masterStore_ok inRange, bind, Except.bind, read]

theorem masterEvent_answers (h : MasterInv c w.record) : ∃ w', masterEvent c ev w = .ok w' := by
  rcases statusOfRole_master h.status.1 with e | e | e | e | e | e | e
  · simp [masterEvent, masterCase, Work.countEvent_idle _ e, e]
  · simp [masterEvent, masterCase, Work.countEvent_of_status (by decide) e, e]
  · simpa [masterEvent, masterCase, Work.countEvent_of_status (by decide) e, e] using masterWriteData_answers h.counted
  · simp [masterEvent, masterCase, Work.countEvent_of_status (by decide) e, e]
  · simpa [masterEvent, masterCase, Work.countEvent_of_status (by decide) e, e] using masterAck_answers h.counted e
  · exact absurd e h.status.2
  · simp [masterEvent, masterCase, Work.countEvent_of_status (by decide) e, e]

end

/-! ## Slave events -/

section
variable {c : Config} {ev : Event} {w : Work}

/-- R152: a byte with no room is given up, any other fits RXB. -/
theorem append_answers (d : Byte) : ∃ stored w', append c d w = .ok (stored, w') := by
  simp only [append]
  split
  · exact ⟨_, _, rfl⟩
  · rename_i room
    have inRange : w.record.receiveLength.toNat < c.rxCap := by omega
    simp [memWrite_ok (c := c) (sp := .rx) (v := d) (w := w) inRange, bind, Except.bind]

/-- R153: RXB keeps room for the trailer, and the whole message is written. -/
theorem messageComplete_answers (h : SlaveInv c w.record) (legal : c.legal = true) :
    ∃ w', messageComplete c w = .ok w' := by
  obtain ⟨rxCap, -⟩ := legal_bounds legal
  have length := h.receive
  have inRange : w.record.receiveLength.toNat < c.rxCap := by omega
  obtain ⟨bytes, read⟩ := memReadFrom_answers (c := c) (sp := .rx)
    (w := w.storedRx w.record.receiveLength.toNat w.record.eventCount) (h.rx.push inRange _) inRange
  simp [messageComplete, memWrite_ok (c := c) (sp := .rx) (w := w) inRange, bind, Except.bind, read]

/-- R174: the final byte, and the message if the byte was stored. -/
theorem slaveStopData_answers (h : SlaveInv c w.record) (legal : c.legal = true) : ∃ w', slaveStopData c ev w = .ok w' := by
  have released : SlaveInv c (w.act .ckpRel).record := h
  obtain ⟨stored, v, appends⟩ := append_answers (c := c) (w := w.act .ckpRel) ev.data
  rcases append_cases appends with ⟨rfl, -, -⟩ | ⟨rfl, room, e⟩
  · simp [slaveStopData, appends, bind, Except.bind]
  · obtain ⟨u, completes⟩ := messageComplete_answers (e ▸ released.append legal room ev.data) legal
    simp [slaveStopData, appends, completes, bind, Except.bind]

/-- R201: the first byte of a message is written. -/
theorem commandTag_answers (h : SlaveInv c w.record) : ∃ tag, commandTag c w = .ok tag := by
  simp only [commandTag]
  split
  · exact ⟨_, rfl⟩
  · rename_i message
    have pos : 0 < w.record.receiveLength.toNat := Nat.pos_of_ne_zero fun zero => message (BitVec.eq_of_toNat_eq zero)
    obtain ⟨b, read⟩ := memRead_answers (c := c) (sp := .rx) (w := w) h.rx pos (h.receive.trans (Nat.sub_le ..))
    simp [read, bind, Except.bind]

/-- R202 to R206: both replies have a length R8 lets TXB hold, and staging one leaves the message to be read. -/
theorem dispatchTag_answers (h : SlaveInv c w.record) (legal : c.legal = true) (tag : Option Byte) :
    ∃ w', dispatchTag c tag w = .ok w' := by
  obtain ⟨-, -, txCap, -, -, -, -, -, -, ackLength⟩ := legal_bounds legal
  obtain ⟨first, rest, acks⟩ := stageReply_answers (c := c) (q := c.ackReply) (w := w) (by omega) (by omega)
  simp only [dispatchTag]
  split
  · simp [dispatchGather, acks, bind, Except.bind]
  split
  · have length := checkReply_length w.tryReceive.1
    obtain ⟨first, rest, replies⟩ := stageReply_answers (c := c) (w := w.tryReceive.2) (by omega) (length.trans_le txCap)
    exact ⟨_, replies⟩
  split
  · obtain ⟨bytes, read⟩ := memReadFrom_answers (c := c) (sp := .rx) (w := w.staged first rest) h.rx
      (h.receive.trans (Nat.sub_le ..))
    simp [dispatchMove, acks, bind, Except.bind, read]
  · exact ⟨_, rfl⟩

theorem dispatch_answers (h : SlaveInv c w.record) (legal : c.legal = true) : ∃ w', dispatch c w = .ok w' := by
  obtain ⟨tag, reads⟩ := commandTag_answers h
  obtain ⟨v, runs⟩ := dispatchTag_answers h legal tag
  simp [dispatch, reads, runs, bind, Except.bind]

theorem slaveRcvData_answers (h : SlaveInv c w.record) (legal : c.legal = true) : ∃ w', slaveRcvData c ev w = .ok w' := by
  simp only [slaveRcvData]
  split
  · split
    · obtain ⟨v, completes⟩ := messageComplete_answers h legal
      simp [completes, bind, Except.bind]
    split
    · exact slaveStopData_answers h legal
    · exact ⟨_, rfl⟩
  split
  · exact ⟨_, rfl⟩
  split
  · obtain ⟨stored, v, appends⟩ := append_answers (c := c) (w := w.act .ckpRel) ev.data
    simp [appends, bind, Except.bind]
  split
  · exact dispatch_answers h.enterSend legal
  · exact ⟨_, rfl⟩

/-- R179 to R183: a byte due is staged, and transmit_index is never above transmit_length. -/
theorem slaveSend_answers (h : SlaveInv c w.record) : ∃ w', slaveSend c ev w = .ok w' := by
  obtain ⟨sent, staged⟩ := h.transmit
  simp only [slaveSend]
  split
  · exact ⟨_, rfl⟩
  split
  · exact ⟨_, rfl⟩
  split
  · exact ⟨_, rfl⟩
  split
  · rename_i due
    obtain ⟨b, read⟩ := memRead_answers (c := c) (sp := .tx) (w := w) h.tx due staged
    simp [slaveSendNext, read, bind, Except.bind]
  split
  · exact ⟨_, rfl⟩
  · omega

theorem slaveTransition_answers (h : SlaveInv c w.record) (legal : c.legal = true) :
    ∃ w', slaveTransition c ev w = .ok w' := by
  simp only [slaveTransition, h.status, Bool.not_true, Bool.false_eq_true, if_false]
  split
  · exact ⟨_, rfl⟩
  rcases statusOfRole_slave h.status with e | e | e | e
  · simp [slaveCase, Work.countEvent_idle _ e, e]
  · simp [slaveCase, Work.countEvent_of_status (by decide) e, e]
  · simpa [slaveCase, Work.countEvent_of_status (by decide) e, e] using slaveRcvData_answers h.counted legal
  · simpa [slaveCase, Work.countEvent_of_status (by decide) e, e] using slaveSend_answers h.counted

end

/-! ## Operations and steps -/

theorem mOnEvent_answers {s : State} (h : s.Inv) (role : s.cfg.role = .master) (ev : Event) :
    ∃ t, exec (.mOnEvent ev) s = .next t := by
  obtain ⟨-, inv⟩ := h
  obtain ⟨w, runs⟩ := masterEvent_answers (ev := ev) (w := Work.start s) ((recordInv_iff_masterInv role).mp inv)
  simp [exec, execMOnEvent, role, runs, finishEvent]

theorem sOnEvent_answers {s : State} (h : s.Inv) (role : s.cfg.role = .slave) (ev : Event) :
    ∃ t, exec (.sOnEvent ev) s = .next t := by
  obtain ⟨legal, inv⟩ := h
  obtain ⟨shape, -⟩ := (recordInv_iff_slaveInv role).mp inv
  obtain ⟨w, runs⟩ := slaveTransition_answers (ev := ev) (w := Work.start s) shape legal
  simp [exec, execSOnEvent, slaveEvent, role, runs, finishEvent, bind, Except.bind]

/-- R85: the event operation of the engine's own role answers every event. -/
theorem decodeEvent_answers {s : State} (h : s.Inv) (v : EventWord) : ∃ t, exec (decodeEvent s.cfg.role v) s = .next t := by
  cases role : s.cfg.role with
  | master => exact mOnEvent_answers h role _
  | slave => exact sOnEvent_answers h role _

theorem commandOf_isCommand (w : CommandWord) (payload : List Byte) : (commandOf w payload).isCommand = true := by
  simp only [commandOf]
  split
  · rfl
  split <;> rfl

/-- R89: the command port gives commands only. -/
theorem decodeCommand_isCommand {role : Role} {bytes rest : List Byte} {i : Instr}
    (h : decodeCommand role bytes = .instr i rest) : i.isCommand = true := by
  unfold decodeCommand at h
  split at h
  · dsimp only at h
    split at h
    · cases h
    split at h <;> cases h
    exact commandOf_isCommand ..
  · cases h

/-- An instruction taken is a command, or the event operation of the role (R89). -/
theorem fetch_instr_kind {s u : State} {i : Instr} (h : fetch s = .instr i u) :
    i.isCommand = true ∨ ∃ v, i = decodeEvent s.cfg.role v := by
  unfold fetch at h
  split at h
  · cases h
  · split at h <;> cases h
    rename_i decodes
    exact .inl (decodeCommand_isCommand decodes)
  · split at h <;> cases h
    exact .inr ⟨_, rfl⟩

/-- R34, R239: a state that meets the invariant passes the launch check. -/
theorem launchFault_of_inv {s : State} (h : s.Inv) : launchFault s = none := by
  obtain ⟨-, ⟨ofRole, -⟩, holds, -⟩ := h
  simp [launchFault, ofRole, holds]

/-- R90: an illegal command is answered INVALID. -/
theorem step_of_fetch_illegal {s u : State} {why : Illegal} (legal : s.cfg.legal = true) (launch : launchFault s = none)
    (taken : fetch s = .illegal why u) : step s = refuseCommand u .invalid := by
  simp only [step, legal, if_true, launch, taken, rejectCommand]

/-- Settles O12: the launch check passes, and whatever the ports give is a command, which every state answers, or an event of the
role, whose reads and stores the invariant keeps inside the written part of the buffers. -/
theorem noStepStopsUnderTheInvariant : Obligations.NoStepStopsUnderTheInvariant := by
  intro s h
  have legal := h.1
  have launch := launchFault_of_inv h
  cases taken : fetch s with
  | nothing => exact ⟨s, step_of_fetch_nothing legal launch taken⟩
  | illegal why u =>
    rw [step_of_fetch_illegal legal launch taken]
    exact refuseCommand_answers u .invalid
  | instr i u =>
    rw [step_of_fetch_instr legal launch taken]
    obtain command | ⟨v, rfl⟩ := fetch_instr_kind taken
    · exact command_answers command u
    · obtain ⟨schedule, commandIn, eventIn, rfl⟩ := (fetch_frame s).2 _ u taken
      exact decodeEvent_answers (s := { s with schedule, commandIn, eventIn }) h v

end Sys2Proof.Machine
end

section
/-! PROOFS. The command and event words: decoder and encoder invert each other, and what the word alone decides (30_encoding.md R81, R84, R88 to R90, R98). -/

namespace Sys2Proof

/-! ## The word and its data phase -/

/-- R88: OP and N alone give the length of the data phase. -/
theorem dataPhaseLength_eq (w : CommandWord) :
    dataPhaseLength w = if (opField w).toNat = 1 ∨ (opField w).toNat = 3 then (nField w).toNat else 0 := by
  simp only [dataPhaseLength, ← BitVec.toNat_inj, opBeginWrite, opBeginReply]
  rfl

theorem dataPhaseLength_le (w : CommandWord) : dataPhaseLength w ≤ 255 := by
  have := (nField w).isLt
  unfold dataPhaseLength
  split <;> omega

theorem bytesOfCommandWord_injective {v w : CommandWord} (h : bytesOfCommandWord v = bytesOfCommandWord w) : v = w := by
  simp only [bytesOfCommandWord, List.cons.injEq, and_true] at h
  obtain ⟨b0, b1, b2, b3⟩ := h
  rw [← commandWordOfBytes_bytes v, b0, b1, b2, b3, commandWordOfBytes_bytes]

/-- A command stream has one reading as a word and what follows it. -/
theorem word_and_data_unique {v w : CommandWord} {data tail : List Byte}
    (h : bytesOfCommandWord v ++ data = bytesOfCommandWord w ++ tail) : v = w ∧ data = tail := by
  obtain ⟨word, rest⟩ := List.append_inj h rfl
  exact ⟨bytesOfCommandWord_injective word, rest⟩

section
variable {role : Role} {w : CommandWord} {data : List Byte}

/-- A legal word with its data phase is the command it stands for, and what follows is left (R81, R89). -/
theorem decodeCommand_legal (length : data.length = dataPhaseLength w) (legal : illegalWord role w = none)
    (rest : List Byte) : decodeCommand role (bytesOfCommandWord w ++ data ++ rest) = .instr (commandOf w data) rest := by
  simp [List.append_assoc, decodeCommand_bytes, ← length, legal]

/-- An illegal one is named, and takes its data phase with it (R88, R90). -/
theorem decodeCommand_illegal {why : Illegal} (length : data.length = dataPhaseLength w)
    (illegal : illegalWord role w = some why) (rest : List Byte) :
    decodeCommand role (bytesOfCommandWord w ++ data ++ rest) = .illegal why rest := by
  simp [List.append_assoc, decodeCommand_bytes, ← length, illegal]

/-- What decodes is a legal word, its whole data phase, and the rest. -/
theorem decodeCommand_instr {bytes rest : List Byte} {i : Instr} (h : decodeCommand role bytes = .instr i rest) :
    ∃ w data, bytes = bytesOfCommandWord w ++ data ++ rest ∧ data.length = dataPhaseLength w ∧
      illegalWord role w = none ∧ i = commandOf w data := by
  match bytes with
  | b0 :: b1 :: b2 :: b3 :: tail =>
    rw [stream_eq_word, decodeCommand_bytes] at h
    split at h
    · cases h
    rename_i whole
    split at h
    · cases h
    rename_i legal
    cases h
    refine ⟨_, _, ?_, List.length_take_of_le (Nat.le_of_not_lt whole), legal, rfl⟩
    rw [List.append_assoc, List.take_append_drop, stream_eq_word]
  | [] | [_] | [_, _] | [_, _, _] => simp [decodeCommand] at h

/-! ## Encoding and decoding -/

/-- R81, R89: the command of a legal word is well formed, of the role, and encodes to that word and its data phase. -/
theorem encode_commandOf (length : data.length = dataPhaseLength w) (legal : illegalWord role w = none) :
    (commandOf w data).wf = true ∧ (commandOf w data).role = role ∧
    encode (commandOf w data) = .command (bytesOfCommandWord w ++ data) := by
  obtain ⟨op, ⟨ofSlave, ofMaster⟩, low, high, address⟩ := illegalWord_none legal
  have fits : payloadFits data = true := decide_eq_true (length ▸ dataPhaseLength_le w)
  have fields := commandWord_fields w low high
  rcases op with op | op | op
  · have n : BitVec.ofNat 8 data.length = nField w := by simp [length, dataPhaseLength, op]
    have e : commandOf w data = .mBeginWrite (aField w) data := if_pos op
    rw [op, ← n] at fields
    exact e ▸ ⟨fits, (ofMaster (by simp [op, opBeginWrite, opBeginReply])).symm, by rw [encode, fields]⟩
  · have none : data = [] := by simpa [dataPhaseLength, op, opBeginRead, opBeginWrite, opBeginReply] using length
    have e : commandOf w data = .mBeginRead (nField w) := by simp [commandOf, op, opBeginRead, opBeginWrite]
    rw [op, address (by simp [op, opBeginRead, opBeginWrite])] at fields
    exact e ▸ ⟨rfl, (ofMaster (by simp [op, opBeginRead, opBeginReply])).symm, by rw [encode, fields, none, List.append_nil]⟩
  · have n : BitVec.ofNat 8 data.length = nField w := by simp [length, dataPhaseLength, op]
    have e : commandOf w data = .sBeginReply data := by simp [commandOf, op, opBeginRead, opBeginWrite, opBeginReply]
    rw [op, ← n, address (by simp [op, opBeginReply, opBeginWrite])] at fields
    exact e ▸ ⟨fits, (ofSlave op).symm, by rw [encode, fields]⟩

/-- The word and the data that a command encodes to stand for that command (R81, R88). -/
theorem commandOf_of_encode {i : Instr} (h : encode i = .command (bytesOfCommandWord w ++ data)) : commandOf w data = i := by
  cases i with
  | mBeginWrite a payload =>
    obtain ⟨rfl, rfl⟩ := word_and_data_unique (Encoded.command.inj h)
    simp [commandOf]
  | mBeginRead n =>
    obtain ⟨rfl, rfl⟩ := word_and_data_unique ((List.append_nil _).trans (Encoded.command.inj h))
    simp [commandOf, opBeginRead, opBeginWrite]
  | sBeginReply payload =>
    obtain ⟨rfl, rfl⟩ := word_and_data_unique (Encoded.command.inj h)
    simp [commandOf, opBeginRead, opBeginWrite, opBeginReply]
  | mOnEvent ev => cases h
  | sOnEvent ev => cases h

end

/-- A well-formed command is framed: a legal word of its role and the data phase that word announces (R81, R88). -/
theorem encode_framed {i : Instr} {bytes : List Byte} (wf : i.wf = true) (h : encode i = .command bytes) :
    ∃ w data, bytes = bytesOfCommandWord w ++ data ∧ data.length = dataPhaseLength w ∧ illegalWord i.role w = none := by
  cases i with
  | mBeginWrite a payload => cases h; exact (Laws.Framing.mBeginWrite a payload wf).2
  | mBeginRead n => cases h; exact (Laws.Framing.mBeginRead n wf).2
  | sBeginReply payload => cases h; exact (Laws.Framing.sBeginReply payload wf).2
  | mOnEvent ev => cases h
  | sOnEvent ev => cases h

theorem decodeCommand_encode {i : Instr} {bytes : List Byte} (wf : i.wf = true) (h : encode i = .command bytes)
    (rest : List Byte) : decodeCommand i.role (bytes ++ rest) = .instr i rest := by
  obtain ⟨w, data, rfl, length, legal⟩ := encode_framed wf h
  rw [decodeCommand_legal length legal, commandOf_of_encode h]

/-- R84: an event word reads back as the event it was built from. -/
theorem decode_encode_event {i : Instr} {w : EventWord} (h : encode i = .event w) : decodeEvent i.role w = i := by
  cases i with
  | mOnEvent ev => cases h; exact (Laws.Framing.mOnEvent ev rfl).2
  | sOnEvent ev => cases h; exact (Laws.Framing.sOnEvent ev rfl).2
  | _ => cases h

/-- Settles O1: a command by the framing of its encoding, an event by its word. -/
theorem decodingAnEncodingGivesTheInstruction : Obligations.DecodingAnEncodingGivesTheInstruction := by
  intro i rest wf
  refine ⟨?_, fun bytes h => decodeCommand_encode wf h rest⟩
  cases h : encode i with
  | command bytes => simpa [decode] using decodeCommand_encode wf h []
  | event w => rw [decode, decode_encode_event h]

/-- Settles O2: what the command decoder reads is a legal word with its data phase, which encodes back to itself; an event word is
its own event's word. -/
theorem encodingsAreUnique : Obligations.EncodingsAreUnique := by
  constructor
  · intro role bytes rest i h
    obtain ⟨w, data, rfl, length, legal, rfl⟩ := decodeCommand_instr h
    obtain ⟨wf, ofRole, encodes⟩ := encode_commandOf length legal
    exact ⟨wf, ofRole, _, encodes, rfl⟩
  · intro role w
    cases role with
    | master => exact ⟨.mOnEvent (Event.ofWord w), rfl, rfl, congrArg Encoded.event (event_toWord_ofWord w)⟩
    | slave => exact ⟨.sOnEvent (Event.ofWord w), rfl, rfl, congrArg Encoded.event (event_toWord_ofWord w)⟩

/-! ## The length of a command -/

/-- Settles O4: the decoder asks for the data phase before it looks at the word's legality. -/
theorem commandLengthFollowsFromTheWord : Obligations.CommandLengthFollowsFromTheWord := by
  intro role w tail op n
  have e : n = dataPhaseLength w := (dataPhaseLength_eq w).symm
  rw [e, decodeCommand_bytes]
  constructor
  · intro short
    exact if_pos short
  · intro whole
    rw [if_neg (Nat.not_lt.mpr whole)]
    cases illegalWord role w with
    | none => exact .inl ⟨_, rfl⟩
    | some why => exact .inr ⟨why, rfl⟩

/-! ## Words and codes the spec writes out -/

/-- Settles O3, on the words and tables themselves. -/
theorem specWordsDecode : Obligations.SpecWordsDecode := by
  unfold Obligations.SpecWordsDecode
  decide

end Sys2Proof
end

section
/-! PROOFS. The step that finds an illegal command (30_encoding.md R88, R90; 60_exceptions.md R225). -/

namespace Sys2Proof.Machine

/-- R225: a refusal changes nothing, and drives an all-zero action word beside its result code. -/
theorem refuseCommand_eq (s : State) (r : ResultCode) :
    refuseCommand s r = .next { s with actionOut := s.actionOut ++ [0#24], resultOut := s.resultOut ++ [r] } := by
  have word : ({} : Actions).word = 0#24 := by decide
  simp [refuseCommand, finishCommand, State.withWork, Work.start, clockAfter, word]

/-- R88, R90: an illegal command on the command port's turn is taken with its data phase. -/
theorem fetch_of_illegal {s : State} {later : List Port} {why : Illegal} {rest : List Byte}
    (turn : s.schedule = .command :: later) (decodes : decodeCommand s.cfg.role s.commandIn = .illegal why rest) :
    fetch s = .illegal why { s with schedule := later, commandIn := rest } := by
  simp only [fetch, turn, decodes]

/-- Settles O5: a legal word meets none of R90's grounds, so the decoder names one, and the step refuses. -/
theorem illegalCommandsAreInvalid : Obligations.IllegalCommandsAreInvalid := by
  intro s w data rest later op legal launch turn stands length ground
  cases word : illegalWord s.cfg.role w with
  | none =>
    obtain ⟨known, ⟨ofSlave, ofMaster⟩, low, high, address⟩ := illegalWord_none word
    have opOf (v : BitVec 4) : opField w = v ↔ op = v.toNat := BitVec.toNat_inj.symm
    simp only [ne_eq, opOf, opBeginWrite, opBeginRead, opBeginReply] at known ofSlave ofMaster address
    rcases ground with g | g | ⟨g, role⟩ | ⟨g, role⟩ | g | g | ⟨g, g'⟩
    · simp [g] at known
    · simp at known; omega
    · rcases g with g | g <;> simp [g, role] at ofMaster
    · simp [g, role] at ofSlave
    · exact absurd low g
    · exact absurd high g
    · exact absurd (address g) g'
  | some why =>
    have decodes := stands ▸ decodeCommand_illegal length word rest
    rw [step_of_fetch_illegal legal launch (fetch_of_illegal turn decodes), refuseCommand_eq]

end Sys2Proof.Machine
end

section
/-! PROOFS. What the engine reads of an event (30_encoding.md R84; 40_master.md R114; 41_slave.md R157). -/

namespace Sys2Proof.Machine

section
variable {ev ev' : Event}

/-- R114: the states of the master read only ACKSTAT and DATA. -/
theorem masterEvent_congr (ackstat : ev.ackstat = ev'.ackstat) (data : ev.data = ev'.data) (c : Config) (w : Work) :
    masterEvent c ev w = masterEvent c ev' w := by
  simp only [masterEvent, masterCase, masterWriteData, masterRcvData, masterAck, masterAckMore, masterAckLast, masterStore,
    ackstat, data]

/-- R157: the states of the slave read no ACKSTAT and no bit 7, and D_A and R_W only behind BF = 1. -/
theorem slaveTransition_congr (bf : ev.bf = ev'.bf) (s : ev.s = ev'.s) (p : ev.p = ev'.p) (ov : ev.ov = ev'.ov)
    (data : ev.data = ev'.data) (address : ev.bf = true → ev.dA = ev'.dA ∧ ev.rW = ev'.rW) (c : Config) (w : Work) :
    slaveTransition c ev w = slaveTransition c ev' w := by
  cases byte : ev'.bf with
  | false =>
    simp [slaveTransition, slaveCase, slaveOverrun, slaveIdle, slaveStarted, slaveRcvData, slaveSend, s, p, ov, bf, byte]
  | true =>
    obtain ⟨dA, rW⟩ := address (bf.trans byte)
    simp only [slaveTransition, slaveCase, slaveOverrun, slaveIdle, slaveStarted, slaveRcvData, slaveStopData, slaveSend,
      s, p, ov, bf, data, dA, rW]

/-- ACKSTAT alone can tell whether the peripheral took up the hold for a reply byte; where one is due the slave sends it and
releases the clock, so no hold is left either way (R182, R231). -/
theorem clockAfter_congr {s : State} {w : Work} (bf : ev.bf = ev'.bf) (p : ev.p = ev'.p) (ov : ev.ov = ev'.ov)
    (release : Release ev (Work.start s) w) (release' : Release ev' (Work.start s) w) :
    clockAfter (holdAtEvent s ev) w.actions = clockAfter (holdAtEvent s ev') w.actions := by
  by_cases due : replyByteDue s.record = true
  · by_cases asked : isTxDone ev = true
    · rw [clockAfter_released (release.due asked due), clockAfter_released (release.due asked due)]
    by_cases asked' : isTxDone ev' = true
    · rw [clockAfter_released (release'.due asked' due), clockAfter_released (release'.due asked' due)]
    simp [holdAtEvent, eventHoldsClock, eventEndsHold, asked, asked', bf, p, ov]
  · simp [holdAtEvent, eventHoldsClock, eventEndsHold, due, bf, p, ov]

end

/-- Settles O35: the rules of R114 agree, and no master event touches the clock hold. -/
theorem masterReadsOnlyAckstatAndData : Obligations.MasterReadsOnlyAckstatAndData := by
  intro ev ev' s ackstat data
  by_cases role : s.cfg.role = .master
  · simp only [exec, execMOnEvent, role, if_true, masterEvent_congr ackstat data]
    cases masterEvent s.cfg ev' (Work.start s) with
    | error f => rfl
    | ok w => simp only [finishEvent, holdAtEvent_master role]
  · simp only [exec, execMOnEvent, role, if_false]

/-- Settles O36: the rules of R157 agree, and so does the clock hold that is left. -/
theorem slaveIgnoresAckstatAndBit7 : Obligations.SlaveIgnoresAckstatAndBit7 := by
  intro ev ev' s bf start p ov data address
  by_cases role : s.cfg.role = .slave
  · have same := slaveTransition_congr bf start p ov data address s.cfg (Work.start s)
    simp only [exec, execSOnEvent, role, if_true, slaveEvent, same]
    cases runs : slaveTransition s.cfg ev' (Work.start s) with
    | error f => rfl
    | ok w =>
      have clock := clockAfter_congr bf p ov (slaveTransition_release (same.trans runs) rfl) (slaveTransition_release runs rfl)
      obtain ⟨-, actions, -⟩ := diagnosticCheck_frame s.cfg w
      simp only [bind, Except.bind, finishEvent, State.withWork, actions, clock]
  · simp only [exec, execSOnEvent, role, if_false]

end Sys2Proof.Machine
end

section
/-! PROOFS. The action word: its bits (30_encoding.md R86), the order in which the peripheral applies it (R87), and what an operation may assert in it (R37). -/

namespace Sys2Proof.Machine

/-! ## The bits of the word -/

/-- Settles O16: bit by bit. -/
theorem actionWordLayout : Obligations.ActionWordLayout := by
  intro a
  have padding : a.word.extractLsb' 9 7 = 0#7 := by
    apply BitVec.eq_of_getLsbD_eq
    intro i lt
    simp only [BitVec.getLsbD_extractLsb', a.getLsbD_word, BitVec.getLsbD_zero]
    interval_cases i <;> rfl
  have written : a.word.extractLsb' 16 8 = a.wr.getD 0#8 := by
    apply BitVec.eq_of_getLsbD_eq
    intro i lt
    simp only [BitVec.getLsbD_extractLsb', a.getLsbD_word, lt]
    interval_cases i <;> rfl
  exact ⟨a.getLsbD_word 0, a.getLsbD_word 1, a.getLsbD_word 2, a.getLsbD_word 3, a.getLsbD_word 4, a.getLsbD_word 5,
    a.getLsbD_word 6, a.getLsbD_word 7, a.getLsbD_word 8, padding, written, a.ofWord_word⟩

/-! ## The order at the peripheral -/

/-- The effects of a word with every output asserted, in the order of R87; it writes the bytes and sends the ACKDT given. -/
def Actions.everyEffect (written : List Byte) (ackdt : Bool) : List Effect :=
  .ovClr :: (written.map .wr ++ [.ackdt ackdt, .acken, .rcen, .sen, .rsen, .pen, .ckpRel])

theorem asserted_sublist (b : Bool) (x : Effect) : List.Sublist (if b then [x] else []) [x] := by
  cases b <;> simp

/-- A word's effects are some of all of them, in the same order. -/
theorem Actions.effects_sublist (a : Actions) : List.Sublist a.effects (Actions.everyEffect a.wr.toList a.ackdt) := by
  have h := ((asserted_sublist a.ovClr .ovClr).append (List.Sublist.refl (a.wr.toList.map Effect.wr))).append
    ((asserted_sublist a.acken (.ackdt a.ackdt)).append ((asserted_sublist a.acken .acken).append
      ((asserted_sublist a.rcen .rcen).append ((asserted_sublist a.sen .sen).append
        ((asserted_sublist a.rsen .rsen).append ((asserted_sublist a.pen .pen).append (asserted_sublist a.ckpRel .ckpRel)))))))
  simpa [Actions.effects, Actions.everyEffect] using h

theorem Actions.everyEffect_ordered (w : Option Byte) (ackdt : Bool) :
    ((Actions.everyEffect w.toList ackdt).map Effect.rank).Pairwise (· ≤ ·) := by
  cases w <;> simp [Actions.everyEffect, Effect.rank]

theorem Actions.everyEffect_nodup (w : Option Byte) (ackdt : Bool) : (Actions.everyEffect w.toList ackdt).Nodup := by
  cases w <;> simp [Actions.everyEffect]

/-! ## What an operation asserts -/

/-- What R37 and R87 let the word of an operation assert: one bus strobe at most, CKP_REL in the slave role only, ACKDT with
ACKEN only. -/
structure Actions.Permitted (role : Role) (a : Actions) : Prop where
  oneStrobe : a.busStrobes ≤ 1
  release   : role = .master → a.ckpRel = false
  ackdt     : a.ackdt = true → a.acken = true

/-- No bus strobe and no ACKDT: all that the slave ever asserts is WR, CKP_REL and OV_CLR. -/
structure Actions.Passive (a : Actions) : Prop where
  noStrobe : a.busStrobes = 0
  noAckdt  : a.ackdt = false

theorem Actions.Passive.permitted {a : Actions} (h : a.Passive) : a.Permitted .slave :=
  ⟨h.noStrobe.trans_le (Nat.zero_le 1), by simp, by simp [h.noAckdt]⟩

theorem Actions.passive_nothing : ({} : Actions).Passive := ⟨rfl, rfl⟩

theorem Actions.Passive.release {a : Actions} (h : a.Passive) : (a.assert .ckpRel).Passive := ⟨h.noStrobe, h.noAckdt⟩

theorem Actions.Passive.clearOverrun {a : Actions} (h : a.Passive) : (a.assert .ovClr).Passive := ⟨h.noStrobe, h.noAckdt⟩

theorem Actions.Passive.write {a : Actions} (h : a.Passive) (v : Byte) : Actions.Passive { a with wr := some v } :=
  ⟨h.noStrobe, h.noAckdt⟩

theorem Actions.Passive.releaseIf {w : Work} (h : w.actions.Passive) (b : Bool) : (w.actIf b .ckpRel).actions.Passive := by
  cases b
  · exact h
  · exact h.release

theorem startRead_permitted {n : Byte} {w : Work} (fresh : w.actions = {}) :
    (startRead n w).actions.Permitted .master := by
  simp only [startRead, Work.act_actions, Work.setStatus_actions, Work.setReceiveIndex_actions, Work.setReceiveLength_actions,
    Work.setSlaveAddress_actions, fresh]
  constructor <;> decide

theorem repStart_permitted {w : Work} (fresh : w.actions = {}) : (repStart w).actions.Permitted .master := by
  rcases repStart_cases w with ⟨-, e⟩ | ⟨-, e⟩ <;> rw [e]
  · exact startRead_permitted fresh
  · simp only [Work.setStatus_actions, Work.send_actions, Work.act_actions, fresh]
    constructor <;> decide

/-- What each state of R114 asserts. -/
theorem masterEvent_permitted {c : Config} {ev : Event} {w w' : Work} (h : masterEvent c ev w = .ok w')
    (fresh : w.actions = {}) : w'.actions.Permitted .master := by
  rcases masterEvent_cases h with ⟨-, rfl⟩ | ⟨-, rfl⟩ | ⟨-, -, rfl⟩ | ⟨-, -, -, b, -, rfl⟩ | ⟨-, -, -, rfl⟩ | ⟨-, rfl⟩ |
    ⟨-, rfl⟩ | ⟨-, -, -, rfl⟩ | ⟨-, -, -, bytes, -, -, rfl⟩ | ⟨-, rfl⟩
  · constructor <;> simp [fresh, Actions.busStrobes]
  · constructor <;> simp [fresh, masterWriteAddr, Actions.busStrobes]
  · constructor <;> simp [fresh, masterRetry, Actions.busStrobes]
  · constructor <;> simp [fresh, Actions.busStrobes]
  · exact repStart_permitted fresh
  · exact repStart_permitted fresh
  · rcases masterRcvData_cases ev w.counted with ⟨-, e⟩ | ⟨-, e⟩ <;> constructor <;> simp [fresh, e, Actions.busStrobes]
  · constructor <;> simp [fresh, Actions.busStrobes]
  · constructor <;> simp [fresh, Actions.busStrobes]
  · constructor <;> simp [fresh, masterEndWrite, Actions.busStrobes]

section
variable {c : Config} {ev : Event} {w w' : Work}

theorem messageComplete_actions (h : messageComplete c w = .ok w') : w'.actions = w.actions := by
  obtain ⟨-, bytes, -, -, rfl⟩ := messageComplete_inv h
  rfl

@[simp] theorem tryReceive_actions (w : Work) : w.tryReceive.2.actions = w.actions := by
  unfold Work.tryReceive; split <;> rfl

/-- A reply staged is written and the clock released (R156, R202 to R206). -/
theorem dispatch_passive (h : dispatch c w = .ok w') (passive : w.actions.Passive) : w'.actions.Passive := by
  rcases dispatch_cases h with ⟨first, rest, -, -, -, rfl⟩ | ⟨first, rest, -, -, -, rfl⟩ |
    ⟨first, rest, bytes, -, -, -, -, -, rfl⟩ | rfl
  · exact (passive.write first).release
  · exact Actions.Passive.release (Actions.Passive.write (by simpa using passive) first)
  · exact (passive.write first).release
  · exact passive

theorem slaveRcvData_passive (h : slaveRcvData c ev w = .ok w') (passive : w.actions.Passive) : w'.actions.Passive := by
  rcases slaveRcvData_cases h with ⟨-, -, v, hv, rfl⟩ | ⟨-, -, -, -, v, hv, rfl⟩ | ⟨-, -, rfl⟩ | ⟨-, -, -, -, rfl⟩ |
    ⟨-, -, -, rfl⟩ | ⟨-, -, -, -, hd⟩ | ⟨-, -, -, rfl⟩
  · exact (messageComplete_actions hv).symm ▸ passive
  · exact (messageComplete_actions hv).symm ▸ passive.release
  · exact passive
  · exact passive.release
  · exact passive.release
  · exact dispatch_passive hd passive
  · exact passive.release

theorem slaveTransition_passive (h : slaveTransition c ev w = .ok w') (passive : w.actions.Passive) : w'.actions.Passive := by
  rcases slaveTransition_cases h with ⟨-, -, rfl⟩ | ⟨-, -, rfl⟩ | ⟨-, -, rfl⟩ | ⟨-, -, hw⟩ | ⟨-, -, hw⟩
  · exact Actions.Passive.releaseIf (w := w.act .ovClr) passive.clearOverrun ev.bf
  · rcases slaveIdle_cases ev w with ⟨-, e⟩ | ⟨-, -, -, e⟩ | ⟨-, -, -, -, e⟩ | ⟨-, -, -, -, -, e⟩ | ⟨-, -, -, -, -, e⟩ <;> rw [e]
    · exact passive.releaseIf ev.bf
    · exact passive
    · exact passive.release
    · exact passive
    · exact passive.release
  · rcases slaveStarted_cases ev w.counted with ⟨-, -, e⟩ | ⟨-, -, e⟩ | ⟨-, -, e⟩ | ⟨-, -, -, -, e⟩ | ⟨-, -, -, -, e⟩ <;> rw [e]
    · exact Actions.Passive.releaseIf (w := w.counted) passive ev.bf
    · exact passive.release
    · exact passive
    · exact passive
    · exact passive.release
  · exact slaveRcvData_passive hw passive
  · rcases slaveSend_cases hw with ⟨-, rfl⟩ | ⟨-, -, rfl⟩ | ⟨-, -, -, rfl⟩ | ⟨-, -, -, -, b, -, rfl⟩ | ⟨-, -, -, -, rfl⟩
    · exact Actions.Passive.releaseIf (w := w.counted) passive ev.bf
    · exact passive.release
    · exact passive
    · exact (passive.write b).release
    · exact passive

end

/-- Every operation drives one word, and asserts in it what its role may. -/
theorem exec_permitted {i : Instr} {s t : State} (h : exec i s = .next t) :
    ∃ a : Actions, t.actionOut = s.actionOut ++ [a.word] ∧ a.Permitted s.cfg.role := by
  cases command : i.isCommand with
  | true =>
    rcases command_cases command h with ⟨r, -, rfl⟩ | ⟨a, payload, -, role, -, -, -, rfl⟩ | ⟨n, -, role, -, -, -, rfl⟩ |
      ⟨first, rest, -, role, -, -, -, rfl⟩
    · exact ⟨_, rfl, by constructor <;> simp [Actions.busStrobes]⟩
    · exact ⟨_, rfl, by constructor <;> simp [Actions.busStrobes]⟩
    · exact ⟨_, rfl, role ▸ startRead_permitted rfl⟩
    · exact ⟨_, rfl, role ▸ ((Actions.passive_nothing.write first).release).permitted⟩
  | false =>
    cases i with
    | mOnEvent ev =>
      obtain ⟨role, w, hw, rfl⟩ := execMOnEvent_next h
      exact ⟨_, rfl, role ▸ masterEvent_permitted hw rfl⟩
    | sOnEvent ev =>
      obtain ⟨role, w, hw, rfl⟩ := execSOnEvent_next h
      obtain ⟨-, actions, -⟩ := diagnosticCheck_frame s.cfg w
      refine ⟨w.actions, by simp [actions], ?_⟩
      exact role ▸ (slaveTransition_passive hw Actions.passive_nothing).permitted
    | _ => simp [Instr.isCommand] at command

/-- Settles O17: the effects of any word are in R87's order as part of the whole list, and the word of an operation is permitted. -/
theorem actionsFollowThePortOrder : Obligations.ActionsFollowThePortOrder := by
  constructor
  · intro a
    have sublist := a.effects_sublist
    refine ⟨(Actions.everyEffect_ordered a.wr a.ackdt).sublist (sublist.map _),
      (Actions.everyEffect_nodup a.wr a.ackdt).sublist sublist, ?_⟩
    simp [Actions.effects]
  · intro i s t h
    obtain ⟨a, drives, oneStrobe, release, ackdt⟩ := exec_permitted h
    exact ⟨a, drives, oneStrobe, release, ackdt⟩

end Sys2Proof.Machine
end

section
/-! PROOFS. The effect of a command and of a master event that runs, from the working state its rule leaves (30_encoding.md R80), and the master's commands
(40_master.md R111 to R113). -/

namespace Sys2Proof.Machine

/-! ## From the working state to the effect -/

section
variable {s t : State} {w : Work}

theorem StepEffect.cfg_eq {r : Record} {a : Actions} {m : List Message} {res : List ResultCode}
    (h : StepEffect s t r a m res) : t.cfg = s.cfg := by
  obtain ⟨cfg, -⟩ := h
  exact cfg

theorem StepEffect.record_eq {r : Record} {a : Actions} {m : List Message} {res : List ResultCode}
    (h : StepEffect s t r a m res) : t.record = r := by
  obtain ⟨-, -, -, -, -, record, -⟩ := h
  exact record

/-- R80: the state with an event's work written back shows that work, and no result code (R114). -/
theorem stepEffect_withWork (held : Bool) (samples : w.samples = s.sampleIn) :
    StepEffect s (s.withWork held w) w.record w.actions w.sent [] :=
  ⟨rfl, rfl, rfl, rfl, samples, rfl, rfl, rfl, (List.append_nil _).symm⟩

/-- R82: the state a command ends in shows its work and its result code. -/
theorem stepEffect_finished (r : ResultCode) (samples : w.samples = s.sampleIn) :
    StepEffect s { s.withWork s.clockHeld w with resultOut := s.resultOut ++ [r] } w.record w.actions w.sent [r] :=
  ⟨rfl, rfl, rfl, rfl, samples, rfl, rfl, rfl, rfl⟩

/-- R225: a refused command has its result code for its only effect. -/
theorem refuseCommand_effect (s : State) (r : ResultCode) :
    ∃ t, refuseCommand s r = .next t ∧ StepEffect s t s.record {} [] [r] :=
  ⟨_, rfl, stepEffect_finished (w := Work.start s) r rfl⟩

/-- A master event runs the rule of the state it finds on the counted Record (R114), and leaves the clock hold as it was. -/
theorem mOnEvent_runs {ev : Event} {st : Status} (role : s.cfg.role = .master) (status : s.record.status = st.code)
    (busy : st ≠ .idle) (rule : masterCase s.cfg ev (Work.start s).counted = .ok w) :
    exec (.mOnEvent ev) s = .next (s.withWork s.clockHeld w) := by
  simp only [exec, execMOnEvent, role, if_true, masterEvent, Work.countEvent_of_status (w := Work.start s) busy status, rule,
    finishEvent, holdAtEvent_master role]

/-- The effect of a master event, field by field of what its rule leaves. -/
theorem mOnEvent_effect {ev : Event} {st : Status} (role : s.cfg.role = .master) (status : s.record.status = st.code)
    (busy : st ≠ .idle) (rule : masterCase s.cfg ev (Work.start s).counted = .ok w) (samples : w.samples = s.sampleIn) :
    ∃ t, exec (.mOnEvent ev) s = .next t ∧ StepEffect s t w.record w.actions w.sent [] :=
  ⟨_, mOnEvent_runs role status busy rule, stepEffect_withWork _ samples⟩

end

/-! ## M.BEGIN_WRITE and M.BEGIN_READ -/

/-- R83, R111: what an acceptable write asks of its operands. -/
theorem writeOperandsOk_iff (c : Config) (a : Byte) (payload : List Byte) :
    writeOperandsOk c a payload = true ↔ a.getLsbD 0 = false ∧ payload.length ≤ c.txCap := by
  simp [writeOperandsOk, isRead]

/-- R112: the lengths a read may ask for. -/
theorem readOperandOk_iff (c : Config) (n : Byte) : readOperandOk c n = true ↔ n ≠ 0#8 ∧ n.toNat ≤ c.rxCap := by
  simp [readOperandOk, Nat.one_le_iff_ne_zero, BitVec.toNat_eq]

theorem beginWrite_ok {c : Config} {payload : List Byte} {w : Work} (fits : payload.length ≤ c.txCap) (a : Byte) :
    beginWrite c a payload w = .ok (((((((w.storedTx payload).setTransmitLength
      (BitVec.ofNat 8 payload.length)).setTransmitIndex 0#8).setSlaveAddress a).setEventCount 0#8).setStatus
      .mWriteAddr).act .sen) := by
  simp only [beginWrite, memWriteFrom_ok (c := c) (sp := .tx) (i := 0) (w := w) (by simpa using fits), bind, Except.bind]
  rfl

/-- Settles O21: the checks one after the other, and StartRead. -/
theorem beginRead : Obligations.BeginRead := by
  intro n s role
  refine ⟨fun bad => ?_, fun nonzero fits busy => ?_, fun nonzero fits idle => ?_⟩
  · have refused : readOperandOk s.cfg n = false := by
      rw [Bool.eq_false_iff, Ne, readOperandOk_iff]
      rintro ⟨nonzero, fits⟩
      exact bad.elim nonzero (Nat.not_lt.mpr fits)
    simpa [exec, execMBeginRead, role, refused] using refuseCommand_effect s .invalid
  · have operand := (readOperandOk_iff s.cfg n).mpr ⟨nonzero, fits⟩
    simpa [exec, execMBeginRead, role, operand, busy] using refuseCommand_effect s .busy
  · have operand := (readOperandOk_iff s.cfg n).mpr ⟨nonzero, fits⟩
    have accepted : exec (.mBeginRead n) s =
        finishCommand s .accepted (.ok (startRead n ((Work.start s).setEventCount 0#8))) := by
      simp [exec, execMBeginRead, role, operand, idle]
    exact ⟨_, accepted, stepEffect_finished .accepted rfl⟩

end Sys2Proof.Machine

namespace Sys2Proof

open Machine

/-- Settles O20: the checks one after the other, and the payload stored from TXB[0] on. (In `Sys2Proof.Machine` the name is the
model's own procedure.) -/
theorem beginWrite : Obligations.BeginWrite := by
  intro a payload s role
  refine ⟨fun bad => ?_, fun write fits busy => ?_, fun write fits idle => ?_⟩
  · have refused : writeOperandsOk s.cfg a payload = false := by
      rw [Bool.eq_false_iff, Ne, writeOperandsOk_iff]
      rintro ⟨write, fits⟩
      exact bad.elim (Bool.eq_false_iff.mp write) (Nat.not_lt.mpr fits)
    simpa [exec, execMBeginWrite, role, refused] using refuseCommand_effect s .invalid
  · have operands := (writeOperandsOk_iff s.cfg a payload).mpr ⟨write, fits⟩
    simpa [exec, execMBeginWrite, role, operands, busy] using refuseCommand_effect s .busy
  · have operands := (writeOperandsOk_iff s.cfg a payload).mpr ⟨write, fits⟩
    have accepted : exec (.mBeginWrite a payload) s =
        finishCommand s .accepted (Machine.beginWrite s.cfg a payload (Work.start s)) := by
      simp [exec, execMBeginWrite, role, operands, idle]
    rw [beginWrite_ok fits] at accepted
    refine ⟨_, accepted, stepEffect_finished .accepted rfl, fun i => ?_⟩
    simpa using Memory.read_writeList s.record.txb 0 payload i

end Sys2Proof
end

section
/-! PROOFS. M.ON_EVENT, one state of R114 after the other: what the event writes, drives and sends (40_master.md R115 to R127). -/

namespace Sys2Proof.Machine

/-- Settles O24: in IDLE the event is not counted, and its rule leaves the working state as it began. -/
theorem masterIdleIgnoresEvents : Obligations.MasterIdleIgnoresEvents := by
  intro ev s role idle
  refine ⟨s.withWork (holdAtEvent s ev) (Work.start s), ?_, stepEffect_withWork _ rfl⟩
  simp only [exec, execMOnEvent, role, if_true, masterEvent, Work.countEvent_idle (Work.start s) idle, masterCase,
    Work.start_record, idle, Status.ofCode_code, finishEvent]

/-! ## The address -/

/-- Settles O25: bit 0 of the address chooses the code of the next state. -/
theorem masterSendsTheAddress : Obligations.MasterSendsTheAddress := by
  intro ev s role status
  have rule : masterCase s.cfg ev (Work.start s).counted = .ok (masterWriteAddr (Work.start s).counted) := by
    simp [masterCase, status]
  simpa [masterWriteAddr, isRead, apply_ite Status.code, countAfter] using mOnEvent_effect role status (by decide) rule rfl

/-! ## M_WRITE_DATA and M_REP_START -/

/-- Settles O26: the NACK is looked at before the buffer. -/
theorem masterRetriesOnNack : Obligations.MasterRetriesOnNack := by
  intro ev s role status nack
  have rule : masterCase s.cfg ev (Work.start s).counted = .ok (masterRetry (Work.start s).counted) := by
    simp [masterCase, status, masterWriteData, nack]
  exact mOnEvent_effect role status (by decide) rule rfl

/-- Settles O27: transmit_index lies inside TXB, so its byte is read. -/
theorem masterSendsTheNextByte : Obligations.MasterSendsTheNextByte := by
  intro ev s b role status ack pending fits stands
  have read : memRead s.cfg .tx s.record.transmitIndex.toNat (Work.start s).counted = .ok b :=
    memRead_ok (pending.trans_le fits) stands
  have rule : masterCase s.cfg ev (Work.start s).counted =
      .ok (((Work.start s).counted.actWr b).setTransmitIndex (s.record.transmitIndex + 1#8)) := by
    simp [masterCase, status, masterWriteData, ack, pending, masterSendNext, read, bind, Except.bind]
  exact mOnEvent_effect role status (by decide) rule rfl

/-- The two ways into RepStart (R119, R122). -/
abbrev EntersRepStart (ev : Event) (r : Record) : Prop :=
  (r.status = Status.mWriteData.code ∧ ev.ackstat = false ∧ r.transmitIndex = r.transmitLength) ∨
    r.status = Status.mRepStart.code

/-- R119, R122: an exhausted buffer sets M_REP_START first, and an event that finds it runs the same RepStart. -/
theorem mOnEvent_repStart {ev : Event} {s : State} {w : Work} (role : s.cfg.role = .master)
    (enters : EntersRepStart ev s.record) (rule : repStart ((Work.start s).counted.setStatus .mRepStart) = w)
    (samples : w.samples = s.sampleIn) :
    ∃ t, exec (.mOnEvent ev) s = .next t ∧ StepEffect s t w.record w.actions w.sent [] := by
  rcases enters with ⟨status, ack, exhausted⟩ | status
  · refine mOnEvent_effect role status (by decide) ?_ samples
    simp [masterCase, status, masterWriteData, ack, exhausted, masterExhausted, rule]
  · refine mOnEvent_effect role status (by decide) ?_ samples
    have same : (Work.start s).counted.setStatus .mRepStart = (Work.start s).counted := by
      simp [Work.setStatus, ← status, Work.setEventCount]
    simp [masterCase, status, ← rule, same]

/-- Settles O28: RepStart with a read length runs StartRead. -/
theorem masterPivotsToTheRead : Obligations.MasterPivotsToTheRead := by
  intro ev s role enters wanted
  rcases repStart_cases ((Work.start s).counted.setStatus .mRepStart) with ⟨-, rule⟩ | ⟨none, -⟩
  · exact mOnEvent_repStart role enters rule rfl
  · exact absurd none wanted

/-- Settles O29: RepStart without a read length stops. -/
theorem masterCompletesTheWrite : Obligations.MasterCompletesTheWrite := by
  intro ev s role enters none
  rcases repStart_cases ((Work.start s).counted.setStatus .mRepStart) with ⟨wanted, -⟩ | ⟨-, rule⟩
  · exact absurd none wanted
  · exact mOnEvent_repStart role enters rule rfl

/-! ## M_RCV_DATA -/

/-- Settles O30: the rule asserts no strobe, so the action word is zero. -/
theorem masterReportsAFailedRead : Obligations.MasterReportsAFailedRead := by
  intro ev s role status nack
  have rule : masterCase s.cfg ev (Work.start s).counted =
      .ok ((((Work.start s).counted.recordError .busNack).send .readFail []).setStatus .idle) := by
    simp [masterCase, status, masterRcvData, nack]
  exact mOnEvent_effect role status (by decide) rule rfl

/-- Settles O31, by the other branch of the same rule. -/
theorem masterArmsTheNextByte : Obligations.MasterArmsTheNextByte := by
  intro ev s role status ack
  have rule : masterCase s.cfg ev (Work.start s).counted = .ok (((Work.start s).counted.act .rcen).setStatus .mAck) := by
    simp [masterCase, status, masterRcvData, ack]
  exact mOnEvent_effect role status (by decide) rule rfl

/-! ## M_ACK and M_END_WRITE -/

/-- The working state in which the byte of an event in M_ACK has been stored, and receive_index advanced (R125, R126). -/
abbrev Work.receivedByte (w : Work) (d : Byte) : Work :=
  (w.storedRx w.record.receiveIndex.toNat d).setReceiveIndex (w.record.receiveIndex + 1#8)

section
variable {c : Config} {ev : Event} {w : Work}

/-- R125: the byte is stored and ACKed. -/
theorem masterAck_more (more : w.record.receiveIndex.toNat + 1 < w.record.receiveLength.toNat)
    (fits : w.record.receiveLength.toNat ≤ c.rxCap) :
    masterAck c ev w = .ok ((((w.receivedByte ev.data).actAckdt false).act .acken).setStatus .mRcvData) := by
  simp only [masterAck, more, if_true, masterAckMore, masterStore_ok (c := c) (ev := ev) (w := w) (by omega), bind, Except.bind]

/-- R126: with the last byte stored RXB[0..receive_length-1] is written throughout, so READ_OK reads it back. -/
theorem masterAck_last (last : w.record.receiveIndex.toNat + 1 = w.record.receiveLength.toNat)
    (fits : w.record.receiveLength.toNat ≤ c.rxCap)
    (earlier : ∀ j < w.record.receiveIndex.toNat, (Memory.read w.record.rxb j).isSome = true) :
    ∃ bytes, masterAck c ev w =
        .ok (((((w.receivedByte ev.data).actAckdt true).act .acken).send .readOk bytes).setStatus .mEndWrite) ∧
      bytes.length = w.record.receiveLength.toNat ∧
      ∀ j < w.record.receiveLength.toNat, bytes[j]? = Memory.read (w.receivedByte ev.data).record.rxb j := by
  have written (j : Nat) (lt : j < w.record.receiveLength.toNat) :
      (Memory.read (w.receivedByte ev.data).record.rxb j).isSome = true := by
    simp only [Work.setReceiveIndex_record, Memory.read_write]
    split
    · rfl
    · exact earlier j (by omega)
  obtain ⟨bytes, read, length, inOrder⟩ := memReadFrom_ok (c := c) (sp := .rx) (i := 0)
    (n := w.record.receiveLength.toNat) (w := w.receivedByte ev.data) (by simpa using fits) (by simpa using written)
  refine ⟨bytes, ?_, length, by simpa using inOrder⟩
  simp [masterAck, last, masterAckLast, masterStore_ok (c := c) (ev := ev) (w := w) (by omega), read, bind, Except.bind]

end

/-- Settles O32: receive_index lies inside RXB, so the byte is stored there. -/
theorem masterStoresAndAcks : Obligations.MasterStoresAndAcks := by
  intro ev s role status more fits
  have rule : masterCase s.cfg ev (Work.start s).counted =
      .ok (((((Work.start s).counted.receivedByte ev.data).actAckdt false).act .acken).setStatus .mRcvData) := by
    simpa [masterCase, status] using masterAck_more (w := (Work.start s).counted) more fits
  exact ⟨_, mOnEvent_runs role status (by decide) rule, stepEffect_withWork _ rfl, fun j => Memory.read_write ..⟩

/-- Settles O33: receive_index ends at receive_length, and the message is the bytes read back. -/
theorem masterReportsTheReadBytes : Obligations.MasterReportsTheReadBytes := by
  intro ev s role status last fits earlier
  obtain ⟨bytes, stored, length, inOrder⟩ := masterAck_last (ev := ev) (w := (Work.start s).counted) last fits earlier
  have rule : masterCase s.cfg ev (Work.start s).counted =
      .ok ((((((Work.start s).counted.receivedByte ev.data).actAckdt true).act .acken).send .readOk bytes).setStatus
        .mEndWrite) := by
    simpa [masterCase, status] using stored
  have advanced : s.record.receiveIndex + 1#8 = s.record.receiveLength := by bv_omega
  refine ⟨_, bytes, mOnEvent_runs role status (by decide) rule, ?_, fun j => Memory.read_write .., length, fun j lt => ?_⟩
  · rw [← advanced]
    exact stepEffect_withWork _ rfl
  · exact inOrder j (length ▸ lt)

/-- Settles O34: the rule reads nothing but the status. -/
theorem masterIssuesTheStop : Obligations.MasterIssuesTheStop := by
  intro ev s role status
  have rule : masterCase s.cfg ev (Work.start s).counted = .ok (masterEndWrite (Work.start s).counted) := by
    simp [masterCase, status]
  exact mOnEvent_effect role status (by decide) rule rfl

end Sys2Proof.Machine
end

section
/-! PROOFS. An event that finds a status of no state of its role (40_master.md R128; 41_slave.md R186; 60_exceptions.md R239). -/

namespace Sys2Proof.Machine

/-- R128: no rule of the master stands for the statuses above M_END_WRITE. -/
theorem masterCase_outside {c : Config} {ev : Event} {w : Work} (outside : 7 ≤ w.record.status.toNat) :
    masterCase c ev w = .error .statusOutsideRole := by
  cases named : Status.ofCode w.record.status with
  | none => simp only [masterCase, named]
  | some st =>
    rw [Status.ofCode_eq_some named] at outside
    cases st with
    | sStarted | sRcvData | sSlaveSend => simp only [masterCase, named]
    | idle | mWriteAddr | mWriteData | mRcvData | mAck | mRepStart | mEndWrite => exact absurd outside (by decide)

/-- R21: the statuses of the slave role, by number. -/
theorem statusOfRole_slave_outside {v : BitVec 4} (outside : (1 ≤ v.toNat ∧ v.toNat ≤ 8) ∨ 12 ≤ v.toNat) :
    statusOfRole .slave v = false := by
  revert v; decide

/-- Settles O38: the master has no rule for the status, and the slave looks at it before the overrun. -/
theorem eventsOutsideTheRoleFault : Obligations.EventsOutsideTheRoleFault := by
  intro ev s
  constructor
  · intro role outside
    have busy : s.record.status ≠ Status.idle.code := fun idle => absurd (idle ▸ outside) (by decide)
    simp only [exec, execMOnEvent, role, if_true, masterEvent, Work.countEvent_busy (Work.start s) busy,
      masterCase_outside (w := (Work.start s).counted) outside, finishEvent]
  · intro role outside
    simp [exec, execSOnEvent, role, slaveEvent, slaveTransition, statusOfRole_slave_outside outside, bind, Except.bind,
      finishEvent]

end Sys2Proof.Machine
end

section
/-! PROOFS. Whole transactions of the master: runs of operations composed from the effect of each (40_master.md R129; 95_test_vectors.md §1 S1). -/

namespace Sys2Proof.Machine

/-! ## What a run puts out -/

section
variable {s t u : State}

/-- The operations run from s to t, write the bytes given to the data register and send the messages given. -/
structure RunsTo (is : List Instr) (s t : State) (written : List Byte) (sent : List Message) : Prop where
  runs  : runInstrs is s = .next t
  words : ∃ words, t.actionOut = s.actionOut ++ words ∧ writtenBytes words = written
  trace : t.messageOut = s.messageOut ++ sent

theorem RunsTo.nil (s : State) : RunsTo [] s s [] [] :=
  ⟨rfl, ⟨[], (List.append_nil _).symm, rfl⟩, (List.append_nil _).symm⟩

theorem RunsTo.single {i : Instr} {r : Record} {a : Actions} {m : List Message} {res : List ResultCode}
    (runs : exec i s = .next t) (effect : StepEffect s t r a m res) : RunsTo [i] s t a.wr.toList m := by
  obtain ⟨-, -, -, -, -, -, actions, messages, -⟩ := effect
  exact ⟨runInstrs_cons runs, ⟨[a.word], actions, writtenBytes_word a⟩, messages⟩

theorem RunsTo.append {is js : List Instr} {bytes bytes' : List Byte} {m m' : List Message}
    (first : RunsTo is s t bytes m) (second : RunsTo js t u bytes' m') :
    RunsTo (is ++ js) s u (bytes ++ bytes') (m ++ m') := by
  obtain ⟨runs, ⟨words, out, written⟩, trace⟩ := first
  obtain ⟨runs', ⟨words', out', written'⟩, trace'⟩ := second
  exact ⟨(runInstrs_append runs).trans runs', ⟨words ++ words', by simp [out', out], by simp [written, written']⟩,
    by simp [trace', trace]⟩

end

/-- An index below a length counts on without wrapping. -/
theorem toNat_index_succ {index length : Byte} (lt : index.toNat < length.toNat) : (index + 1#8).toNat = index.toNat + 1 :=
  toNat_add_one_of_lt lt (Nat.le_of_lt_succ length.isLt)

/-! ## A write acknowledged at every byte -/

/-- A write-only transaction in M_WRITE_DATA with the bytes given still to be sent. -/
structure WriteUnderWay (s : State) (pending : List Byte) : Prop where
  role   : s.cfg.role = .master
  status : s.record.status = Status.mWriteData.code
  noRead : s.record.receiveLength = 0#8
  fits   : s.record.transmitLength.toNat ≤ s.cfg.txCap
  left   : s.record.transmitIndex.toNat + pending.length = s.record.transmitLength.toNat
  stands : ∀ j < pending.length, Memory.read s.record.txb (s.record.transmitIndex.toNat + j) = pending[j]?

/-- R111, R116: an accepted write and its start condition put the address on the bus, and leave the whole payload to be sent. -/
theorem writeUnderWay_of_beginWrite {s : State} {a : Byte} {payload : List Byte} (legal : s.cfg.legal = true)
    (role : s.cfg.role = .master) (idle : s.record.status = Status.idle.code) (noRead : s.record.receiveLength = 0#8)
    (write : a.getLsbD 0 = false) (fits : payload.length ≤ s.cfg.txCap) :
    ∃ u, RunsTo [.mBeginWrite a payload, .mOnEvent evDone] s u [a] [] ∧ WriteUnderWay u payload := by
  obtain ⟨-, -, accepted⟩ := Sys2Proof.beginWrite a payload s role
  obtain ⟨t, begins, begun, stored⟩ := accepted write fits idle
  have cfg := begun.cfg_eq
  have record := begun.record_eq
  obtain ⟨u, sends, sent⟩ := masterSendsTheAddress evDone t (cfg ▸ role) (by rw [record])
  have cfg' := sent.cfg_eq.trans cfg
  have record' := sent.record_eq
  have address : t.record.slaveAddress = a := by rw [record]
  rw [address] at sent
  obtain ⟨-, -, -, txCap, -⟩ := legal_bounds legal
  have length := toNat_ofNat_of_le (fits.trans txCap)
  refine ⟨u, (RunsTo.single begins begun).append (RunsTo.single sends sent), ?_⟩
  refine ⟨cfg' ▸ role, ?_, ?_, ?_, ?_, ?_⟩
  · simp only [record', address, write, Bool.false_eq_true, if_false]
  · rw [record', record]; exact noRead
  · rw [record', record, cfg']; exact length.trans_le fits
  · rw [record', record]; simpa using length.symm
  · intro j lt
    have index : u.record.transmitIndex = 0#8 := by rw [record', record]
    have txb : u.record.txb = t.record.txb := by rw [record']
    simpa [index, txb, lt] using stored j

/-- R118: an acknowledge sends the next byte. -/
theorem WriteUnderWay.next {s : State} {b : Byte} {rest : List Byte} (h : WriteUnderWay s (b :: rest)) :
    ∃ u, RunsTo [.mOnEvent evAck] s u [b] [] ∧ WriteUnderWay u rest := by
  have left := h.left
  rw [List.length_cons] at left
  have byte : Memory.read s.record.txb s.record.transmitIndex.toNat = some b := h.stands 0 (by simp)
  obtain ⟨u, runs, effect⟩ := masterSendsTheNextByte evAck s b h.role h.status rfl (by omega) h.fits byte
  have record := effect.record_eq
  have index : u.record.transmitIndex.toNat = s.record.transmitIndex.toNat + 1 := by
    rw [record]
    exact toNat_index_succ (length := s.record.transmitLength) (by omega)
  refine ⟨u, RunsTo.single runs effect, effect.cfg_eq ▸ h.role, ?_, ?_, ?_, ?_, fun j lt => ?_⟩
  · rw [record]; exact h.status
  · rw [record]; exact h.noRead
  · rw [record, effect.cfg_eq]; exact h.fits
  · rw [index, record]; simpa [Nat.add_assoc, Nat.add_comm 1] using left
  · have next := h.stands (j + 1) (by simpa using lt)
    rw [index, record, Nat.add_assoc, Nat.add_comm 1]
    simpa using next

/-- R118, R121: one acknowledge for each byte, and one more to end the write. -/
theorem WriteUnderWay.completes {s : State} {pending : List Byte} (h : WriteUnderWay s pending) :
    ∃ t, RunsTo (List.replicate (pending.length + 1) (.mOnEvent evAck)) s t pending [msg .writeOk []] ∧
      t.record.status = Status.idle.code := by
  induction pending generalizing s with
  | nil =>
    have exhausted := BitVec.eq_of_toNat_eq h.left
    obtain ⟨t, runs, effect⟩ := masterCompletesTheWrite evAck s h.role (.inl ⟨h.status, rfl, exhausted⟩) h.noRead
    exact ⟨t, RunsTo.single runs effect, by rw [effect.record_eq]⟩
  | cons b rest ih =>
    obtain ⟨u, first, underWay⟩ := h.next
    obtain ⟨t, others, idle⟩ := ih underWay
    exact ⟨t, first.append others, idle⟩

/-- Settles O58: the write begins, and its payload is sent byte by byte. -/
theorem acknowledgedWriteIsReported : Obligations.AcknowledgedWriteIsReported := by
  intro s address payload legal role idle noRead write fits
  obtain ⟨u, begins, underWay⟩ := writeUnderWay_of_beginWrite legal role idle noRead write fits
  obtain ⟨t, sends, ended⟩ := underWay.completes
  obtain ⟨runs, ⟨words, out, written⟩, trace⟩ := begins.append sends
  exact ⟨t, words, runs, ended, out, written, trace⟩

/-! ## A read whose address is acknowledged -/

/-- A read in M_ACK: the bytes it has received, and how many it still wants. -/
structure ReadUnderWay (s : State) (got : List Byte) (wanted : Nat) : Prop where
  role   : s.cfg.role = .master
  status : s.record.status = Status.mAck.code
  index  : s.record.receiveIndex.toNat = got.length
  length : s.record.receiveLength.toNat = got.length + wanted
  fits   : s.record.receiveLength.toNat ≤ s.cfg.rxCap
  stands : ∀ j < got.length, Memory.read s.record.rxb j = got[j]?

/-- R112, R116, R124: an accepted read, its repeated start and the acknowledge of its address. -/
theorem readUnderWay_of_beginRead {s : State} {n : Nat} (legal : s.cfg.legal = true) (role : s.cfg.role = .master)
    (idle : s.record.status = Status.idle.code) (pos : 1 ≤ n) (fits : n ≤ s.cfg.rxCap) :
    ∃ u written, RunsTo [.mBeginRead (BitVec.ofNat 8 n), .mOnEvent evDone, .mOnEvent evAck] s u written [] ∧
      ReadUnderWay u [] n := by
  obtain ⟨-, rxCap, -⟩ := legal_bounds legal
  have length := toNat_ofNat_of_le (fits.trans rxCap)
  have nonzero : BitVec.ofNat 8 n ≠ 0#8 := fun zero => by simp [zero] at length; omega
  obtain ⟨-, -, accepted⟩ := beginRead (BitVec.ofNat 8 n) s role
  obtain ⟨t, begins, begun⟩ := accepted nonzero (length.trans_le fits) idle
  obtain ⟨u, sends, sent⟩ := masterSendsTheAddress evDone t (begun.cfg_eq ▸ role) (by rw [begun.record_eq])
  have read : t.record.slaveAddress.getLsbD 0 = true := by rw [begun.record_eq]; simp
  obtain ⟨v, arms, armed⟩ := masterArmsTheNextByte evAck u (sent.cfg_eq ▸ begun.cfg_eq ▸ role)
    (by rw [sent.record_eq, read]; rfl) rfl
  have cfg := armed.cfg_eq.trans (sent.cfg_eq.trans begun.cfg_eq)
  have record := armed.record_eq
  rw [sent.record_eq, begun.record_eq] at record
  refine ⟨v, _, (RunsTo.single begins begun).append ((RunsTo.single sends sent).append (RunsTo.single arms armed)),
    cfg ▸ role, ?_, ?_, ?_, ?_, by simp⟩ <;> rw [record]
  · rfl
  · simpa using length
  · rw [cfg]; exact length.trans_le fits

/-- What the peripheral raises for one byte of a read: the byte, and the end of its acknowledge. -/
abbrev receiveByte (d : Byte) : List Instr := [.mOnEvent (evRx d), .mOnEvent evDone]

/-- RXB after one more byte has been stored behind those received. -/
theorem Memory.read_received {m m' : Memory} {got : List Byte} {d : Byte}
    (stands : ∀ j < got.length, Memory.read m j = got[j]?)
    (stored : ∀ j, Memory.read m' j = if j = got.length then some d else Memory.read m j) :
    ∀ j < got.length + 1, Memory.read m' j = (got ++ [d])[j]? := by
  intro j lt
  rw [stored]
  split
  · rename_i e; simp [e]
  · rw [stands j (by omega), List.getElem?_append_left (by omega)]

/-- R125, R124: a byte with more wanted is stored, and the next one armed. -/
theorem ReadUnderWay.next {s : State} {got : List Byte} {k : Nat} (h : ReadUnderWay s got (k + 2)) (d : Byte) :
    ∃ u, RunsTo (receiveByte d) s u [] [] ∧ ReadUnderWay u (got ++ [d]) (k + 1) := by
  have length := h.length
  have index := h.index
  obtain ⟨t, stores, effect, stored⟩ := masterStoresAndAcks (evRx d) s h.role h.status (by omega) h.fits
  obtain ⟨u, arms, armed⟩ := masterArmsTheNextByte evDone t (effect.cfg_eq ▸ h.role) (by rw [effect.record_eq]) rfl
  have cfg := armed.cfg_eq.trans effect.cfg_eq
  have record := armed.record_eq
  have advanced : (s.record.receiveIndex + 1#8).toNat = got.length + 1 :=
    h.index ▸ toNat_index_succ (length := s.record.receiveLength) (by omega)
  refine ⟨u, (RunsTo.single stores effect).append (RunsTo.single arms armed), cfg ▸ h.role, ?_, ?_, ?_, ?_, ?_⟩
  · rw [record]
  · rw [record, effect.record_eq]; simpa using advanced
  · rw [record, effect.record_eq]; simp; omega
  · rw [record, effect.record_eq, cfg]; exact h.fits
  · rw [record]
    simpa using Memory.read_received h.stands (h.index ▸ stored)

/-- R126, R127: the last byte is stored, the bytes are reported, and the stop is issued. -/
theorem ReadUnderWay.last {s : State} {got : List Byte} (h : ReadUnderWay s got 1) (d : Byte) :
    ∃ u, RunsTo (receiveByte d) s u [] [msg .readOk (got ++ [d])] ∧ u.record.status = Status.idle.code := by
  have length := h.length
  have index := h.index
  obtain ⟨t, bytes, stores, effect, stored, count, inOrder⟩ := masterReportsTheReadBytes (evRx d) s h.role h.status (by omega)
    h.fits (fun j lt => by rw [h.stands j (by omega)]; simp; omega)
  have received : bytes = got ++ [d] := by
    refine List.ext_getElem? fun j => ?_
    by_cases lt : j < got.length + 1
    · exact (inOrder j (by omega)).trans (Memory.read_received h.stands (h.index ▸ stored) j lt)
    · rw [List.getElem?_eq_none (by omega), List.getElem?_eq_none (by simp; omega)]
  obtain ⟨u, stops, stopped⟩ := masterIssuesTheStop evDone t (effect.cfg_eq ▸ h.role) (by rw [effect.record_eq])
  exact ⟨u, received ▸ (RunsTo.single stores effect).append (RunsTo.single stops stopped), by rw [stopped.record_eq]⟩

/-- The bytes still wanted arrive one after the other, and all are reported. -/
theorem ReadUnderWay.completes {s : State} {got rest : List Byte} {d : Byte} (h : ReadUnderWay s got (rest.length + 1)) :
    ∃ t, RunsTo ((d :: rest).flatMap receiveByte) s t [] [msg .readOk (got ++ d :: rest)] ∧
      t.record.status = Status.idle.code := by
  induction rest generalizing s got d with
  | nil => exact h.last d
  | cons e rest ih =>
    obtain ⟨u, first, underWay⟩ := h.next d
    obtain ⟨t, others, idle⟩ := ih (d := e) underWay
    exact ⟨t, by simpa using first.append others, idle⟩

/-- Settles O59: the read begins, and its bytes arrive one by one. -/
theorem acknowledgedReadIsReported : Obligations.AcknowledgedReadIsReported := by
  intro s bytes legal role idle pos fits
  obtain ⟨u, written, begins, underWay⟩ := readUnderWay_of_beginRead legal role idle pos fits
  cases bytes with
  | nil => exact absurd pos (by decide)
  | cons d rest =>
    obtain ⟨t, receives, ended⟩ := underWay.completes (d := d)
    obtain ⟨runs, -, trace⟩ := begins.append receives
    exact ⟨t, runs, ended, trace⟩

/-! ## A peer that acknowledges no address -/

/-- R117, R116: one round sends the address again, and ends where it began. -/
theorem retry_round {s : State} (role : s.cfg.role = .master) (status : s.record.status = Status.mWriteData.code)
    (write : s.record.slaveAddress.getLsbD 0 = false) :
    ∃ u, RunsTo [.mOnEvent evNack, .mOnEvent evDone] s u [s.record.slaveAddress] [] ∧ u.cfg.role = .master ∧
      u.record.status = Status.mWriteData.code ∧ u.record.slaveAddress = s.record.slaveAddress := by
  obtain ⟨t, retries, retried⟩ := masterRetriesOnNack evNack s role status rfl
  have address : t.record.slaveAddress = s.record.slaveAddress := by rw [retried.record_eq]
  obtain ⟨u, sends, sent⟩ := masterSendsTheAddress evDone t (retried.cfg_eq ▸ role) (by rw [retried.record_eq])
  rw [address, write] at sent
  refine ⟨u, (RunsTo.single retries retried).append (RunsTo.single sends sent), ?_, ?_, ?_⟩
  · rw [sent.cfg_eq, retried.cfg_eq, role]
  · rw [sent.record_eq]; rfl
  · rw [sent.record_eq]; exact address

/-- Settles O60, by induction on the number of rounds. -/
theorem nackedAddressesRetryForEver : Obligations.NackedAddressesRetryForEver := by
  intro s n role status write
  suffices rounds : ∃ t, RunsTo (List.replicate n [Instr.mOnEvent evNack, Instr.mOnEvent evDone]).flatten s t
      (List.replicate n s.record.slaveAddress) [] ∧ t.record.status = Status.mWriteData.code by
    obtain ⟨t, ⟨runs, ⟨words, out, written⟩, trace⟩, ended⟩ := rounds
    exact ⟨t, words, runs, ended, by simpa using trace, out, written⟩
  induction n generalizing s with
  | zero => exact ⟨s, RunsTo.nil s, status⟩
  | succ n ih =>
    obtain ⟨u, first, role', status', address⟩ := retry_round role status write
    obtain ⟨t, others, ended⟩ := ih u role' status' (address ▸ write)
    rw [address] at others
    exact ⟨t, first.append others, ended⟩

end Sys2Proof.Machine
end

section
/-! PROOFS. The effect of a slave event that runs, from the working state its rule leaves (30_encoding.md R80; 41_slave.md R151, R154,
R157). -/

namespace Sys2Proof.Machine

/-! ## The rule an event runs -/

section
variable {c : Config} {ev : Event} {w : Work}

/-- R158: an overrun, in any state of the role. -/
theorem slaveTransition_of_overrun (ofRole : statusOfRole .slave w.record.status = true) (ov : ev.ov = true) :
    slaveTransition c ev w = .ok (slaveOverrun ev w) := by
  simp [slaveTransition, ofRole, ov]

/-- R157, R159: in IDLE the event is not counted. -/
theorem slaveTransition_of_idle (idle : w.record.status = Status.idle.code) (ov : ev.ov = false) :
    slaveTransition c ev w = .ok (slaveIdle ev w) := by
  simp [slaveTransition, slaveCase, w.countEvent_idle idle, idle, ov]

/-- R157, R159: in the other states of the role it is. -/
theorem slaveTransition_of_started (status : w.record.status = Status.sStarted.code) (ov : ev.ov = false) :
    slaveTransition c ev w = .ok (slaveStarted ev w.counted) := by
  simp [slaveTransition, slaveCase, Work.countEvent_of_status (by decide) status, status, ov]

theorem slaveTransition_of_rcvData (status : w.record.status = Status.sRcvData.code) (ov : ev.ov = false) :
    slaveTransition c ev w = slaveRcvData c ev w.counted := by
  simp [slaveTransition, slaveCase, Work.countEvent_of_status (by decide) status, status, ov]

theorem slaveTransition_of_slaveSend (status : w.record.status = Status.sSlaveSend.code) (ov : ev.ov = false) :
    slaveTransition c ev w = slaveSend c ev w.counted := by
  simp [slaveTransition, slaveCase, Work.countEvent_of_status (by decide) status, status, ov]

end

/-! ## From the working state to the effect -/

/-- R154: a step that records no error has nothing to report. -/
theorem diagnosticCheck_noError {c : Config} {w : Work} (noError : w.recordedError = false) : diagnosticCheck c w = w := by
  simp [diagnosticCheck, noError]

/-- `if b: act(CKP_REL)`. -/
theorem Work.actIf_ckpRel_actions (w : Work) (b : Bool) :
    (w.actIf b .ckpRel).actions = { w.actions with ckpRel := w.actions.ckpRel || b } := by
  cases b <;> simp

section
variable {ev : Event} {s : State} {w : Work}

/-- A slave event runs the rule of the state it finds, and then the diagnostic check. -/
theorem sOnEvent_runs (role : s.cfg.role = .slave) (rule : slaveTransition s.cfg ev (Work.start s) = .ok w) :
    exec (.sOnEvent ev) s = .next (s.withWork (holdAtEvent s ev) (diagnosticCheck s.cfg w)) := by
  simp [exec, execSOnEvent, role, slaveEvent, rule, finishEvent, bind, Except.bind]

/-- Without an error the state after the event is what its rule leaves. -/
theorem sOnEvent_runs_noError (role : s.cfg.role = .slave) (rule : slaveTransition s.cfg ev (Work.start s) = .ok w)
    (noError : w.recordedError = false) : exec (.sOnEvent ev) s = .next (s.withWork (holdAtEvent s ev) w) :=
  diagnosticCheck_noError (c := s.cfg) noError ▸ sOnEvent_runs role rule

/-- The effect of a slave event without an error, field by field of what its rule leaves. -/
theorem sOnEvent_effect (role : s.cfg.role = .slave) (rule : slaveTransition s.cfg ev (Work.start s) = .ok w)
    (noError : w.recordedError = false) (samples : w.samples = s.sampleIn) :
    ∃ t, exec (.sOnEvent ev) s = .next t ∧ StepEffect s t w.record w.actions w.sent [] :=
  ⟨_, sOnEvent_runs_noError role rule noError, stepEffect_withWork _ samples⟩

/-- R151, R154, R222: the effect of a slave event whose rule abandons the transaction. The check finds the tally one higher, and
clears it if it reports it. -/
theorem sOnEvent_abandons {e : ErrorCode} {eventCount : Byte} {a : Actions} (role : s.cfg.role = .slave)
    (rule : slaveTransition s.cfg ev (Work.start s) = .ok w) (error : w.recordedError = true)
    (record : w.record = { abandonedRecord s e eventCount with errorCount := tallyAfter s })
    (samples : w.samples = s.sampleIn) (actions : w.actions = a) (silent : w.sent = []) :
    ∃ t, exec (.sOnEvent ev) s = .next t ∧
      StepEffect s t (abandonedRecord s e eventCount) a (diagnosticOf s e eventCount) [] := by
  subst actions
  refine ⟨_, sOnEvent_runs role rule, ?_⟩
  obtain ⟨samples', -⟩ := diagnosticCheck_frame s.cfg w
  have effect := stepEffect_withWork (holdAtEvent s ev) (samples'.trans samples)
  rcases diagnosticCheck_cases s.cfg w with ⟨-, reached, check⟩ | ⟨noError | below, check⟩
  · rw [record] at reached
    simpa [check, record, silent, abandonedRecord, diagnosticOf, reached, msg] using effect
  · simp [error] at noError
  · rw [record] at below
    simpa [check, record, silent, abandonedRecord, diagnosticOf, Nat.not_le.mpr below] using effect

end

end Sys2Proof.Machine
end

section
/-! PROOFS. S.ON_EVENT, one state of R157 after the other: what the event writes, drives and sends (41_slave.md R158 to R183). -/

namespace Sys2Proof.Machine

/-- Settles O39: the rule is the same in every state of the role, and does not count the event. -/
theorem slaveOverrunAbandons : Obligations.SlaveOverrunAbandons := by
  intro ev s role ofRole ov
  have rule := slaveTransition_of_overrun (c := s.cfg) (ev := ev) (w := Work.start s) ofRole ov
  have actions : (slaveOverrun ev (Work.start s)).actions = { ovClr := true, ckpRel := ev.bf } := by
    simp [slaveOverrun, abandon, Work.actIf_ckpRel_actions]
  exact sOnEvent_abandons role rule rfl (by simp [slaveOverrun, abandonedRecord, tallyAfter]) (by simp [slaveOverrun])
    actions (by simp [slaveOverrun])

/-! ## IDLE -/

/-- Settles O40: a start opens the transaction, and its byte, if it has one, is the address. -/
theorem slaveBeginsATransaction : Obligations.SlaveBeginsATransaction := by
  intro ev s role idle ov start noStop
  have rule := slaveTransition_of_idle (c := s.cfg) (w := Work.start s) idle ov
  refine ⟨fun noByte => ?_, fun byte address write => ?_, fun byte address read => ?_⟩
  · have begins : slaveIdle ev (Work.start s) = (slaveBegin (Work.start s)).setStatus .sStarted := by
      simp [slaveIdle, start, noStop, noByte]
    exact sOnEvent_effect role (begins ▸ rule) rfl rfl
  · have begins : slaveIdle ev (Work.start s) = ((slaveBegin (Work.start s)).act .ckpRel).setStatus .sRcvData := by
      simp [slaveIdle, start, noStop, byte, address, write]
    exact sOnEvent_effect role (begins ▸ rule) rfl rfl
  · have begins : slaveIdle ev (Work.start s) = enterSend (slaveBegin (Work.start s)) := by
      simp [slaveIdle, start, noStop, byte, address, read]
    exact sOnEvent_effect role (begins ▸ rule) rfl rfl

/-- Settles O41: no start is seen, or the stop that came with it ended it. -/
theorem slaveIdleIgnoresEvents : Obligations.SlaveIdleIgnoresEvents := by
  intro ev s role idle ov noStart
  have ignores : slaveIdle ev (Work.start s) = (Work.start s).actIf ev.bf .ckpRel := by
    rcases noStart with noStart | stop
    · simp [slaveIdle, noStart]
    · simp [slaveIdle, stop]
  have rule := slaveTransition_of_idle (c := s.cfg) (w := Work.start s) idle ov
  rw [ignores] at rule
  simpa [Work.actIf_ckpRel_actions] using sOnEvent_effect role rule (by simp) (by simp)

/-! ## A byte where none is valid -/

/-- Settles O42: each state's rule releases the byte and abandons. -/
theorem slaveRejectsMisplacedBytes : Obligations.SlaveRejectsMisplacedBytes := by
  intro ev s role ov byte
  refine ⟨fun idle start noStop data => ?_, fun status data => ?_, fun status address misplaced => ?_,
    fun status noStop => ?_⟩
  · have rule : slaveTransition s.cfg ev (Work.start s) =
        .ok (abandon .noData ((slaveBegin (Work.start s)).act .ckpRel)) := by
      simp [slaveTransition_of_idle, idle, ov, slaveIdle, start, noStop, byte, data]
    exact sOnEvent_abandons role rule rfl rfl rfl rfl rfl
  · have rule : slaveTransition s.cfg ev (Work.start s) = .ok (abandon .noData ((Work.start s).counted.act .ckpRel)) := by
      simp [slaveTransition_of_started, status, ov, slaveStarted, byte, data]
    exact sOnEvent_abandons role rule rfl rfl rfl rfl rfl
  · have rule : slaveTransition s.cfg ev (Work.start s) =
        .ok (abandon .addrWithoutData ((Work.start s).counted.act .ckpRel)) := by
      rcases misplaced with stop | write
      · simp [slaveTransition_of_rcvData, status, ov, slaveRcvData, byte, address, stop]
      · simp [slaveTransition_of_rcvData, status, ov, slaveRcvData, byte, address, write]
    exact sOnEvent_abandons role rule rfl rfl rfl rfl rfl
  · have rule : slaveTransition s.cfg ev (Work.start s) =
        .ok (abandon .addrWithoutData ((Work.start s).counted.act .ckpRel)) := by
      simp [slaveTransition_of_slaveSend, status, ov, slaveSend, byte, noStop]
    exact sOnEvent_abandons role rule rfl rfl rfl rfl rfl

/-! ## S_STARTED, and the events that only count -/

/-- Settles O43: a stop ends the transaction whether or not it came with an address. -/
theorem slaveStartedTakesTheAddress : Obligations.SlaveStartedTakesTheAddress := by
  intro ev s role status ov
  have rule := slaveTransition_of_started (c := s.cfg) (w := Work.start s) status ov
  refine ⟨fun stop noData => ?_, fun noStop byte address write => ?_, fun noStop byte address read => ?_⟩
  · have ends : slaveStarted ev (Work.start s).counted = ((Work.start s).counted.actIf ev.bf .ckpRel).setStatus .idle := by
      cases byte : ev.bf
      · simp [slaveStarted, stop, byte]
      · simp [slaveStarted, stop, byte, noData.resolve_left (by simp [byte])]
    rw [ends] at rule
    simpa [Work.actIf_ckpRel_actions, countAfter] using sOnEvent_effect role rule (by simp) (by simp)
  · have takes : slaveStarted ev (Work.start s).counted = ((Work.start s).counted.act .ckpRel).setStatus .sRcvData := by
      simp [slaveStarted, noStop, byte, address, write]
    exact sOnEvent_effect role (takes ▸ rule) rfl rfl
  · have takes : slaveStarted ev (Work.start s).counted = enterSend (Work.start s).counted := by
      simp [slaveStarted, noStop, byte, address, read]
    exact sOnEvent_effect role (takes ▸ rule) rfl rfl

/-- Settles O44: each of the three rules leaves the counted working state. -/
theorem slaveCountsNoOps : Obligations.SlaveCountsNoOps := by
  intro ev s role ov noStop noByte inState
  have rule : slaveTransition s.cfg ev (Work.start s) = .ok (Work.start s).counted := by
    rcases inState with status | status | ⟨status, awaits⟩
    · simp [slaveTransition_of_started, status, ov, slaveStarted, noStop, noByte]
    · simp [slaveTransition_of_rcvData, status, ov, slaveRcvData, noStop, noByte]
    · simp [slaveTransition_of_slaveSend, status, ov, slaveSend, noStop, noByte, awaits]
  exact sOnEvent_effect role rule rfl rfl

/-! ## S_RCV_DATA -/

section
variable {c : Config} {w : Work}

/-- The working state in which a data byte has been appended (R152). -/
abbrev Work.appended (w : Work) (d : Byte) : Work :=
  (w.storedRx w.record.receiveLength.toNat d).setReceiveLength (w.record.receiveLength + 1#8)

/-- RXB with its first n bytes written has one more after a store behind them. -/
theorem Memory.written_write {m : Memory} {n : Nat} (written : ∀ j < n, (Memory.read m j).isSome = true) (v : Byte) :
    ∀ j < n + 1, (Memory.read (Memory.write m n v) j).isSome = true := by
  intro j lt
  rw [Memory.read_write]
  split
  · rfl
  · exact written j (by omega)

/-- R152: a byte that leaves room for the trailer is stored. -/
theorem append_room (room : w.record.receiveLength.toNat + 1 ≤ c.rxCap - 1) (d : Byte) :
    append c d w = .ok (true, w.appended d) := by
  simp only [append, Nat.not_lt.mpr room, if_false, bind, Except.bind,
    memWrite_ok (c := c) (sp := .rx) (v := d) (w := w) (show w.record.receiveLength.toNat < c.rxCap by omega)]
  rfl

/-- R152: one that does not abandons the message. -/
theorem append_full (full : c.rxCap - 1 < w.record.receiveLength.toNat + 1) (d : Byte) :
    append c d w = .ok (false, abandon .msgTooLong w) := by
  simp [append, full]

/-- R153: with the trailer stored RXB[0..receive_length] is written throughout, so DATA_RCVD reads it back. -/
theorem messageComplete_ok (inRange : w.record.receiveLength.toNat < c.rxCap)
    (written : ∀ j < w.record.receiveLength.toNat, (Memory.read w.record.rxb j).isSome = true) :
    ∃ bytes, messageComplete c w = .ok (((w.storedRx w.record.receiveLength.toNat w.record.eventCount).send .dataRcvd
        bytes).setReceiveLength 0#8) ∧
      bytes.length = w.record.receiveLength.toNat + 1 ∧
      ∀ j < bytes.length,
        bytes[j]? = Memory.read (Memory.write w.record.rxb w.record.receiveLength.toNat w.record.eventCount) j := by
  obtain ⟨bytes, read, length, inOrder⟩ := memReadFrom_ok (c := c) (sp := .rx) (i := 0)
    (n := w.record.receiveLength.toNat + 1) (w := w.storedRx w.record.receiveLength.toNat w.record.eventCount)
    (by simpa using inRange) (by simpa using Memory.written_write written w.record.eventCount)
  refine ⟨bytes, ?_, length, by simpa [length] using inOrder⟩
  simp [messageComplete, memWrite_ok (c := c) (sp := .rx) (w := w) inRange, read, bind, Except.bind]

end

/-- Settles O45: the rule is Append, with the clock released before it. -/
theorem slaveAppendsDataBytes : Obligations.SlaveAppendsDataBytes := by
  intro ev s role status ov noStop byte data
  refine ⟨fun room => ?_, fun full => ?_⟩
  · have rule : slaveTransition s.cfg ev (Work.start s) = .ok (((Work.start s).counted.act .ckpRel).appended ev.data) := by
      simp [slaveTransition_of_rcvData, status, ov, slaveRcvData, noStop, byte, data,
        append_room (c := s.cfg) (w := (Work.start s).counted.act .ckpRel) room, bind, Except.bind]
    exact ⟨_, sOnEvent_runs_noError role rule rfl, stepEffect_withWork _ rfl, fun j => Memory.read_write ..⟩
  · have rule : slaveTransition s.cfg ev (Work.start s) =
        .ok (abandon .msgTooLong ((Work.start s).counted.act .ckpRel)) := by
      simp [slaveTransition_of_rcvData, status, ov, slaveRcvData, noStop, byte, data,
        append_full (c := s.cfg) (w := (Work.start s).counted.act .ckpRel) full, bind, Except.bind]
    exact sOnEvent_abandons role rule rfl rfl rfl rfl rfl

/-- Settles O46: the rule is MessageComplete, and the transaction is over. -/
theorem slaveForwardsTheMessage : Obligations.SlaveForwardsTheMessage := by
  intro ev s role status ov stop noByte inRange written
  obtain ⟨bytes, completes, length, inOrder⟩ :=
    messageComplete_ok (c := s.cfg) (w := (Work.start s).counted) inRange written
  have rule : slaveTransition s.cfg ev (Work.start s) =
      .ok (((((Work.start s).counted.storedRx s.record.receiveLength.toNat (countAfter s)).send .dataRcvd
        bytes).setReceiveLength 0#8).setStatus .idle) := by
    rw [slaveTransition_of_rcvData (w := Work.start s) status ov]
    simp [slaveRcvData, stop, noByte, completes, countAfter, bind, Except.bind]
  exact ⟨_, bytes, sOnEvent_runs_noError role rule rfl, stepEffect_withWork _ rfl, fun j => Memory.read_write .., length,
    inOrder⟩

/-- Settles O47: the rule is Append, and then MessageComplete if the byte was stored. -/
theorem slaveForwardsWithTheFinalByte : Obligations.SlaveForwardsWithTheFinalByte := by
  intro ev s role status ov stop byte data
  have rcvData := slaveTransition_of_rcvData (c := s.cfg) (w := Work.start s) status ov
  simp only [slaveRcvData, stop, byte, data, if_true, Bool.not_true, Bool.false_eq_true, if_false, slaveStopData] at rcvData
  refine ⟨fun room small written => ?_, fun full => ?_⟩
  · have next : (s.record.receiveLength + 1#8).toNat = s.record.receiveLength.toNat + 1 :=
      toNat_add_one_of_lt room (by omega)
    obtain ⟨bytes, completes, length, inOrder⟩ := messageComplete_ok (c := s.cfg)
      (w := ((Work.start s).counted.act .ckpRel).appended ev.data) (next ▸ by omega)
      (next ▸ Memory.written_write written ev.data)
    rw [append_room room] at rcvData
    simp only [bind, Except.bind, if_true, completes] at rcvData
    refine ⟨_, bytes, sOnEvent_runs_noError role rcvData rfl, stepEffect_withWork _ rfl, fun j => ?_, ?_, inOrder⟩
    · change Memory.read (Memory.write (Memory.write s.record.rxb s.record.receiveLength.toNat ev.data)
        (s.record.receiveLength + 1#8).toNat (countAfter s)) j = _
      rw [next, Memory.read_write, Memory.read_write]
      grind
    · simpa [next] using length
  · have rule : slaveTransition s.cfg ev (Work.start s) =
        .ok (abandon .msgTooLong ((Work.start s).counted.act .ckpRel)) := by
      rw [rcvData, append_full full]
      rfl
    exact sOnEvent_abandons role rule rfl rfl rfl rfl rfl

/-! ## S_SLAVE_SEND -/

/-- Settles O52: a stop is looked at before the buffer, and the buffer's next byte lies inside TXB. -/
theorem slaveSendsTheReply : Obligations.SlaveSendsTheReply := by
  intro ev s role status ov
  have send := slaveTransition_of_slaveSend (c := s.cfg) (w := Work.start s) status ov
  refine ⟨fun stop => ?_, fun b noStop noByte staged pending fits stands => ?_, fun noStop noByte staged exhausted => ?_⟩
  · have rule : slaveTransition s.cfg ev (Work.start s) =
        .ok ((((Work.start s).counted.actIf ev.bf .ckpRel).setStatus .idle).setAwaitingReply false) := by
      simp [send, slaveSend, stop]
    simpa [Work.actIf_ckpRel_actions, countAfter] using sOnEvent_effect role rule (by simp) (by simp)
  · have read : memRead s.cfg .tx s.record.transmitIndex.toNat (Work.start s).counted = .ok b :=
      memRead_ok (pending.trans_le fits) stands
    have rule : slaveTransition s.cfg ev (Work.start s) =
        .ok ((((Work.start s).counted.actWr b).setTransmitIndex (s.record.transmitIndex + 1#8)).act .ckpRel) := by
      simp [send, slaveSend, noStop, noByte, staged, pending, slaveSendNext, read, bind, Except.bind]
    exact sOnEvent_effect role rule rfl rfl
  · have rule : slaveTransition s.cfg ev (Work.start s) = .ok ((Work.start s).counted.setStatus .idle) := by
      simp [send, slaveSend, noStop, noByte, staged, exhausted]
    exact sOnEvent_effect role rule rfl rfl

/-! ## S.BEGIN_REPLY -/

/-- R185: the payloads a reply can carry. -/
theorem replyOperandOk_iff (c : Config) (payload : List Byte) :
    replyOperandOk c payload = true ↔ 1 ≤ payload.length ∧ payload.length ≤ c.txCap := by
  simp only [replyOperandOk, Bool.and_eq_true, decide_eq_true_eq]

/-- R185: where a reply is expected. -/
theorem expectsReply_iff (r : Record) :
    expectsReply r = true ↔ r.status = Status.sSlaveSend.code ∧ r.awaitingReply = true := by
  simp only [expectsReply, Bool.and_eq_true, decide_eq_true_eq]

/-- Settles O22: the two checks, and StageReply. -/
theorem beginReply : Obligations.BeginReply := by
  intro payload s role
  refine ⟨fun bad => ?_, fun nonempty fits status awaits => ?_⟩
  · have refused : replyOperandOk s.cfg payload = false ∨ expectsReply s.record = false := by
      rw [← Bool.not_eq_true, ← Bool.not_eq_true, replyOperandOk_iff, expectsReply_iff]
      rcases bad with empty | long | status | staged
      · exact .inl (by omega)
      · exact .inl (by omega)
      · exact .inr fun ⟨sends, _⟩ => status sends
      · exact .inr (by simp [staged])
    rcases refused with operand | unexpected
    · simpa [exec, execSBeginReply, role, operand] using refuseCommand_effect s .invalid
    · simpa [exec, execSBeginReply, role, unexpected] using refuseCommand_effect s .invalid
  · have operand := (replyOperandOk_iff s.cfg payload).mpr ⟨nonempty, fits⟩
    have expected := (expectsReply_iff s.record).mpr ⟨status, awaits⟩
    have accepted : exec (.sBeginReply payload) s =
        finishCommand s .accepted (stageReply s.cfg payload (Work.start s)) := by
      simp [exec, execSBeginReply, role, operand, expected]
    cases payload with
    | nil => simp at nonempty
    | cons first rest =>
      rw [stageReply_ok fits] at accepted
      refine ⟨_, accepted, stepEffect_finished .accepted rfl, fun i => ?_⟩
      simpa using Memory.read_writeList s.record.txb 0 (first :: rest) i

end Sys2Proof.Machine
end

section
/-! PROOFS. The clock hold (41_slave.md R184; 10_state.md R38; 60_exceptions.md R231): what a slave event does to it, and the runs that
follow the convention. -/

namespace Sys2Proof.Machine

/-- R86: CKP_REL is bit 6. -/
theorem Actions.word_ckpRel (a : Actions) : a.word.getLsbD 6 = a.ckpRel := a.getLsbD_word 6

/-! ## One slave event -/

section
variable {ev : Event} {s : State} {w : Work}

/-- With a byte the clock is held exactly if it is not released. -/
theorem clockAfter_byte (role : s.cfg.role = .slave) (byte : ev.bf = true) :
    clockAfter (holdAtEvent s ev) w.actions = !w.actions.ckpRel := by
  simp [clockAfter, holdAtEvent_byte role byte]

/-- A stop without a byte and without an overrun leaves nothing held. -/
theorem clockAfter_stop (role : s.cfg.role = .slave) (noByte : ev.bf = false) (stop : ev.p = true) (ov : ev.ov = false) :
    clockAfter (holdAtEvent s ev) w.actions = false := by
  simp [holdAtEvent_noByte role noByte, stop, ov, isTxDone]

/-- Any other event without a byte keeps the hold it finds unless it releases it: the one it takes up itself, for a reply byte, it
releases again. -/
theorem clockAfter_noByte (role : s.cfg.role = .slave) (noByte : ev.bf = false) (noStop : ev.p = false ∨ ev.ov = true)
    (release : Release ev (Work.start s) w) :
    clockAfter (holdAtEvent s ev) w.actions = (s.clockHeld && !w.actions.ckpRel) := by
  have keeps : (!(ev.p && !ev.ov)) = true := by
    rcases noStop with noStop | ov
    · simp [noStop]
    · simp [ov]
  rw [clockAfter, holdAtEvent_noByte role noByte, keeps, Bool.and_true]
  cases due : isTxDone ev && replyByteDue s.record with
  | false => simp
  | true =>
    obtain ⟨done, staged⟩ := Bool.and_eq_true_iff.mp due
    simp [release.due done staged]

/-- R184: a hold that came with an awaited reply is left with one, or by an overrun without a byte (U7). -/
theorem clockAfter_accounted (role : s.cfg.role = .slave) (release : Release ev (Work.start s) w)
    (found : s.clockHeld = true → s.record.awaitingReply = true)
    (held : clockAfter (holdAtEvent s ev) w.actions = true) :
    w.record.awaitingReply = true ∨ s.record.awaitingReply = true ∧ ev.ov = true ∧ ev.bf = false := by
  cases bf : ev.bf with
  | true =>
    rw [clockAfter_byte role bf] at held
    obtain released | ⟨-, -, -, -, -, awaits⟩ := release.byte bf
    · simp [released] at held
    · exact .inl awaits
  | false =>
    have noStop : ev.p = false ∨ ev.ov = true := by
      by_contra! stop
      simp [clockAfter_stop role bf (by simpa using stop.1) (by simpa using stop.2)] at held
    rw [clockAfter_noByte role bf noStop release, Bool.and_eq_true] at held
    have awaited := found held.1
    obtain same | ⟨stop, noOverrun⟩ | ⟨ov, -⟩ := release.awaiting bf
    · exact .inl (same.trans awaited)
    · simp [stop, noOverrun] at noStop
    · exact .inr ⟨awaited, ov, rfl⟩

/-- R184: an event that finds no clock held and no reply awaited leaves the two together. -/
theorem clockAfter_eq_awaitingReply (role : s.cfg.role = .slave) (release : Release ev (Work.start s) w)
    (free : s.clockHeld = false) (noReply : s.record.awaitingReply = false) :
    clockAfter (holdAtEvent s ev) w.actions = w.record.awaitingReply := by
  have noWait (quiet : w.actions.ckpRel = true ∨ ev.bf = false) : w.record.awaitingReply = false :=
    Bool.eq_false_iff.mpr fun awaits => by simpa [noReply] using release.began quiet awaits
  cases bf : ev.bf with
  | true =>
    rw [clockAfter_byte role bf]
    obtain released | ⟨-, -, -, -, -, awaits⟩ := release.byte bf
    · simp [released, noWait (.inl released)]
    · have kept : w.actions.ckpRel = false := Bool.eq_false_iff.mpr fun released => by simp [noWait (.inl released)] at awaits
      simp [kept, awaits]
  | false =>
    rw [noWait (.inr bf)]
    refine Bool.eq_false_iff.mpr fun held => ?_
    obtain awaits | ⟨awaited, -⟩ := clockAfter_accounted role release (by simp [free]) held
    · simp [noWait (.inr bf)] at awaits
    · simp [noReply] at awaited

end

/-! ## The operations that keep the hold, and conforming runs -/

/-- A command or a master event leaves the hold and the awaited reply as they were, or ends both. -/
theorem clock_kept_or_ended {i : Instr} {s t : State} (noSlaveEvent : ∀ ev, i ≠ .sOnEvent ev) (runs : exec i s = .next t) :
    (t.clockHeld = s.clockHeld ∧ t.record.awaitingReply = s.record.awaitingReply) ∨
    (t.clockHeld = false ∧ t.record.awaitingReply = false ∧ ∃ payload, i = .sBeginReply payload) := by
  cases command : i.isCommand with
  | true =>
    obtain ⟨-, -, ⟨clock, awaiting, -⟩ | ⟨clock, awaiting, -, reply⟩⟩ := command_clock command runs
    · exact .inl ⟨clock, awaiting⟩
    · exact .inr ⟨clock, awaiting, reply⟩
  | false =>
    cases i with
    | mOnEvent ev =>
      obtain ⟨-, -, kept⟩ := masterEvent_clock runs
      exact .inl kept
    | sOnEvent ev => exact absurd rfl (noSlaveEvent ev)
    | _ => simp [Instr.isCommand] at command

/-- R38, R184, R231: in a conforming run the clock is held between steps exactly while a reply is awaited. No slave event comes while
the clock is held, so each finds neither. -/
theorem Conforming.clockHeld_eq {b : Bus} {s : State} (h : Conforming b s) : s.clockHeld = s.record.awaitingReply := by
  have kept {i : Instr} {s t : State} (noSlaveEvent : ∀ ev, i ≠ .sOnEvent ev) (runs : exec i s = .next t)
      (same : s.clockHeld = s.record.awaitingReply) : t.clockHeld = t.record.awaitingReply := by
    obtain ⟨clock, awaiting⟩ | ⟨clock, awaiting, -⟩ := clock_kept_or_ended noSlaveEvent runs
    · rw [clock, awaiting, same]
    · rw [clock, awaiting]
  induction h with
  | reset c legal => rfl
  | command b i s t v _ command runs _ ih => exact kept (fun ev e => by simp [e, Instr.isCommand] at command) runs ih
  | event b ev i s t v _ allowed event runs _ ih =>
    rcases event with rfl | rfl
    · exact kept (by simp) runs ih
    · obtain ⟨role, -, w, release, -, clock, -, awaiting, -⟩ := slaveEvent_clock runs
      have free : s.clockHeld = false := by
        simp only [Bus.allows, role, Bool.and_eq_true, Bool.not_eq_true'] at allowed
        exact allowed.1
      rw [clock, awaiting, clockAfter_eq_awaitingReply role release free (ih ▸ free)]
  | deliver b s sampleIn _ ih => exact ih

/-- Settles O54: the release and the hold of one slave event by its flags, the operations that keep the hold, and conforming runs. -/
theorem clockReleaseDiscipline : Obligations.ClockReleaseDiscipline := by
  refine ⟨fun ev s t a runs out => ?_, fun payload s t runs => ?_, fun i s t runs kind => ?_, fun b s h => ?_⟩
  · obtain ⟨role, -, w, release, out', clock, status, awaiting, -⟩ := slaveEvent_clock runs
    obtain rfl : a = w.actions.word := by simpa using out.symm.trans out'
    simp only [Actions.word_ckpRel, clock, status, awaiting]
    exact ⟨fun byte kept => (release.byte byte).resolve_left (by simp [kept]), release.noByte, clockAfter_byte role,
      clockAfter_stop role, fun noByte noStop => clockAfter_noByte role noByte noStop release,
      clockAfter_accounted role release⟩
  · obtain ⟨-, -, ⟨clock, -, notReply | refused⟩ | ⟨clock, -, accepted, -⟩⟩ := command_clock rfl runs
    · exact absurd rfl (notReply payload)
    · exact ⟨fun accepted => absurd accepted refused, fun _ => clock⟩
    · exact ⟨fun _ => clock, fun refused => absurd accepted refused⟩
  · obtain ⟨clock, -⟩ | ⟨-, -, payload, rfl⟩ :=
      clock_kept_or_ended (by rintro ev rfl; simp at kind) runs
    · exact clock
    · simp at kind
  · rw [h.clockHeld_eq]

end Sys2Proof.Machine
end

section
/-! PROOFS. Whole transactions of the slave: runs of events composed from the effect of each (41_slave.md R188; 95_test_vectors.md §1
S8). -/

namespace Sys2Proof.Machine

/-! ## A reply and its acknowledges -/

theorem StepEffect.resultOut_eq {s t : State} {r : Record} {a : Actions} {m : List Message} {res : List ResultCode}
    (h : StepEffect s t r a m res) : t.resultOut = s.resultOut ++ res := by
  obtain ⟨-, -, -, -, -, -, -, -, results⟩ := h
  exact results

/-- A reply in S_SLAVE_SEND with the bytes given still to be sent. -/
structure ReplyUnderWay (s : State) (pending : List Byte) : Prop where
  role    : s.cfg.role = .slave
  status  : s.record.status = Status.sSlaveSend.code
  noReply : s.record.awaitingReply = false
  fits    : s.record.transmitLength.toNat ≤ s.cfg.txCap
  left    : s.record.transmitIndex.toNat + pending.length = s.record.transmitLength.toNat
  stands  : ∀ j < pending.length, Memory.read s.record.txb (s.record.transmitIndex.toNat + j) = pending[j]?

/-- R185, R156: an accepted reply has its first byte sent, and leaves the rest. -/
theorem replyUnderWay_of_beginReply {s : State} {first : Byte} {rest : List Byte} (legal : s.cfg.legal = true)
    (role : s.cfg.role = .slave) (status : s.record.status = Status.sSlaveSend.code)
    (awaits : s.record.awaitingReply = true) (fits : (first :: rest).length ≤ s.cfg.txCap) :
    ∃ u, RunsTo [.sBeginReply (first :: rest)] s u [first] [] ∧ u.resultOut = s.resultOut ++ [.accepted] ∧
      ReplyUnderWay u rest := by
  obtain ⟨-, accepted⟩ := beginReply (first :: rest) s role
  obtain ⟨u, begins, begun, stored⟩ := accepted (by simp) fits status awaits
  obtain ⟨-, -, -, txCap, -⟩ := legal_bounds legal
  have length := toNat_ofNat_of_le (fits.trans txCap)
  have record := begun.record_eq
  have index : u.record.transmitIndex = 1#8 := by rw [record]
  refine ⟨u, RunsTo.single begins begun, begun.resultOut_eq, begun.cfg_eq ▸ role, ?_, ?_, ?_, ?_, fun j lt => ?_⟩
  · rw [record]; exact status
  · rw [record]
  · rw [record, begun.cfg_eq]; exact length.trans_le fits
  · rw [record]
    exact (Nat.add_comm ..).trans length.symm
  · simp [index, stored, lt, Nat.add_comm 1]

/-- R182: an acknowledge sends the next byte. -/
theorem ReplyUnderWay.next {s : State} {b : Byte} {rest : List Byte} (h : ReplyUnderWay s (b :: rest)) :
    ∃ u, RunsTo [.sOnEvent evTxDone] s u [b] [] ∧ u.resultOut = s.resultOut ∧ ReplyUnderWay u rest := by
  have left := h.left
  rw [List.length_cons] at left
  have byte : Memory.read s.record.txb s.record.transmitIndex.toNat = some b := h.stands 0 (by simp)
  obtain ⟨-, sends, -⟩ := slaveSendsTheReply evTxDone s h.role h.status rfl
  obtain ⟨u, runs, effect⟩ := sends b rfl rfl h.noReply (by omega) h.fits byte
  have record := effect.record_eq
  have index : u.record.transmitIndex.toNat = s.record.transmitIndex.toNat + 1 := by
    rw [record]
    exact toNat_index_succ (length := s.record.transmitLength) (by omega)
  refine ⟨u, RunsTo.single runs effect, by simpa using effect.resultOut_eq, effect.cfg_eq ▸ h.role, ?_, ?_, ?_, ?_,
    fun j lt => ?_⟩
  · rw [record]; exact h.status
  · rw [record]; exact h.noReply
  · rw [record, effect.cfg_eq]; exact h.fits
  · rw [index, record]; simpa [Nat.add_assoc, Nat.add_comm 1] using left
  · have next := h.stands (j + 1) (by simpa using lt)
    rw [index, record, Nat.add_assoc, Nat.add_comm 1]
    simpa using next

/-- R182, R183: one acknowledge for each byte, and one more to end the transaction. -/
theorem ReplyUnderWay.completes {s : State} {pending : List Byte} (h : ReplyUnderWay s pending) :
    ∃ t, RunsTo (List.replicate (pending.length + 1) (.sOnEvent evTxDone)) s t pending [] ∧ t.resultOut = s.resultOut ∧
      t.record.status = Status.idle.code := by
  induction pending generalizing s with
  | nil =>
    obtain ⟨-, -, ends⟩ := slaveSendsTheReply evTxDone s h.role h.status rfl
    obtain ⟨t, runs, effect⟩ := ends rfl rfl h.noReply (BitVec.eq_of_toNat_eq h.left)
    exact ⟨t, RunsTo.single runs effect, by simpa using effect.resultOut_eq, by rw [effect.record_eq]⟩
  | cons b rest ih =>
    obtain ⟨u, first, results, underWay⟩ := h.next
    obtain ⟨t, others, results', idle⟩ := ih underWay
    exact ⟨t, first.append others, results'.trans results, idle⟩

/-- Settles O55: the reply begins, and its other bytes are sent one by one. -/
theorem replyRoundTrip : Obligations.ReplyRoundTrip := by
  intro s payload legal role status awaits nonempty fits
  cases payload with
  | nil => exact absurd nonempty (by decide)
  | cons first rest =>
    obtain ⟨u, begins, accepted, underWay⟩ := replyUnderWay_of_beginReply legal role status awaits fits
    obtain ⟨t, sends, results, ended⟩ := underWay.completes
    obtain ⟨runs, ⟨words, out, written⟩, trace⟩ := begins.append sends
    exact ⟨t, words, runs, ended, out, written, by simpa using trace, results.trans accepted⟩

/-! ## An addressed write and its stop -/

/-- A message in S_RCV_DATA: the bytes it has received, each of them one event after the address. -/
structure MessageUnderWay (s : State) (got : List Byte) : Prop where
  legal  : s.cfg.legal = true
  role   : s.cfg.role = .slave
  status : s.record.status = Status.sRcvData.code
  count  : s.record.eventCount = BitVec.ofNat 8 (got.length + 1)
  length : s.record.receiveLength.toNat = got.length
  stands : ∀ j < got.length, Memory.read s.record.rxb j = got[j]?

/-- R161: the write address opens an empty message. -/
theorem messageUnderWay_of_address {s : State} (address : Byte) (legal : s.cfg.legal = true) (role : s.cfg.role = .slave)
    (idle : s.record.status = Status.idle.code) :
    ∃ u, RunsTo [.sOnEvent (evSaddrW address)] s u [] [] ∧ u.cfg = s.cfg ∧ MessageUnderWay u [] := by
  obtain ⟨-, writes, -⟩ := slaveBeginsATransaction (evSaddrW address) s role idle rfl rfl rfl
  obtain ⟨u, runs, effect⟩ := writes rfl rfl rfl
  have record := effect.record_eq
  refine ⟨u, RunsTo.single runs effect, effect.cfg_eq, effect.cfg_eq ▸ legal, effect.cfg_eq ▸ role, ?_, ?_, ?_, by simp⟩ <;>
    rw [record] <;> rfl

/-- R172: a byte that leaves room for the trailer is appended. -/
theorem MessageUnderWay.next {s : State} {got : List Byte} (h : MessageUnderWay s got) (d : Byte)
    (room : got.length + 1 ≤ s.cfg.rxCap - 1) :
    ∃ u, RunsTo [.sOnEvent (evData d)] s u [] [] ∧ u.cfg = s.cfg ∧ MessageUnderWay u (got ++ [d]) := by
  obtain ⟨-, rxCap, -⟩ := legal_bounds h.legal
  obtain ⟨appends, -⟩ := slaveAppendsDataBytes (evData d) s h.role h.status rfl rfl rfl rfl
  obtain ⟨u, runs, effect, stored⟩ := appends (h.length.symm ▸ room)
  have record := effect.record_eq
  have length : (s.record.receiveLength + 1#8).toNat = got.length + 1 :=
    h.length ▸ toNat_add_one_of_lt (n := s.cfg.rxCap - 1) (h.length.symm ▸ room) (by omega)
  refine ⟨u, RunsTo.single runs effect, effect.cfg_eq, effect.cfg_eq ▸ h.legal, effect.cfg_eq ▸ h.role, ?_, ?_, ?_, ?_⟩
  · rw [record]; exact h.status
  · rw [record]
    rw [countAfter, h.count, ← BitVec.ofNat_add, List.length_append, List.length_singleton]
  · rw [record]; simpa using length
  · simpa using Memory.read_received h.stands (h.length ▸ stored)

/-- The bytes of the message arrive one after the other. -/
theorem MessageUnderWay.all {s : State} {got bytes : List Byte} (h : MessageUnderWay s got)
    (room : got.length + bytes.length ≤ s.cfg.rxCap - 1) :
    ∃ u, RunsTo (bytes.map fun d => Instr.sOnEvent (evData d)) s u [] [] ∧ u.cfg = s.cfg ∧
      MessageUnderWay u (got ++ bytes) := by
  induction bytes generalizing s got with
  | nil => exact ⟨s, RunsTo.nil s, rfl, by simpa using h⟩
  | cons d rest ih =>
    rw [List.length_cons] at room
    obtain ⟨u, first, cfg, underWay⟩ := h.next d (by omega)
    obtain ⟨v, others, cfg', complete⟩ := ih underWay (by rw [cfg, List.length_append, List.length_singleton]; omega)
    exact ⟨v, first.append others, cfg'.trans cfg, by simpa using complete⟩

/-- Bytes read back in order from a buffer that holds those received and one more are just these. -/
theorem received_of_inOrder {m m' : Memory} {got bytes : List Byte} {d : Byte}
    (stands : ∀ j < got.length, Memory.read m j = got[j]?)
    (stored : ∀ j, Memory.read m' j = if j = got.length then some d else Memory.read m j)
    (count : bytes.length = got.length + 1) (inOrder : ∀ j < bytes.length, bytes[j]? = Memory.read m' j) :
    bytes = got ++ [d] := by
  refine List.ext_getElem? fun j => ?_
  by_cases lt : j < bytes.length
  · exact (inOrder j lt).trans (Memory.read_received stands stored j (count ▸ lt))
  · rw [List.getElem?_eq_none (by omega), List.getElem?_eq_none (by simp; omega)]

/-- R173: the stop forwards the message with the count of its events. -/
theorem MessageUnderWay.forwards {s : State} {got : List Byte} (h : MessageUnderWay s got)
    (room : got.length ≤ s.cfg.rxCap - 1) :
    ∃ t, RunsTo [.sOnEvent evStop] s t [] [msg .dataRcvd (got ++ [BitVec.ofNat 8 (got.length + 2)])] ∧
      t.record.status = Status.idle.code ∧ t.record.receiveLength = 0#8 := by
  obtain ⟨rxCap, -⟩ := legal_bounds h.legal
  have length := h.length
  obtain ⟨t, bytes, runs, effect, stored, count, inOrder⟩ := slaveForwardsTheMessage evStop s h.role h.status rfl rfl rfl
    (by omega) (fun j lt => by rw [h.stands j (by omega)]; simp; omega)
  have record := effect.record_eq
  have trailer : countAfter s = BitVec.ofNat 8 (got.length + 2) := by rw [countAfter, h.count, ← BitVec.ofNat_add]
  rw [length, trailer] at stored
  have forwarded := received_of_inOrder h.stands stored (length ▸ count) inOrder
  exact ⟨t, forwarded ▸ RunsTo.single runs effect, by rw [record], by rw [record]⟩

/-- Settles O56: the address, the bytes one by one, and the stop. -/
theorem writeThenStopIsForwarded : Obligations.WriteThenStopIsForwarded := by
  intro s address bytes legal role idle fits
  obtain ⟨u, addressed, cfg, opened⟩ := messageUnderWay_of_address address legal role idle
  obtain ⟨v, received, cfg', complete⟩ := opened.all (bytes := bytes) (by simpa [cfg] using fits)
  obtain ⟨t, stops, ended, empty⟩ := complete.forwards (by simpa [cfg', cfg] using fits)
  obtain ⟨runs, -, trace⟩ := (addressed.append received).append stops
  exact ⟨t, runs, ended, empty, trace⟩

/-! ## Errors and their diagnostics -/

/-- A slave in IDLE with the tally given. -/
structure IdleWithTally (c : Config) (s : State) (tally : Nat) : Prop where
  cfg    : s.cfg = c
  status : s.record.status = Status.idle.code
  tally  : s.record.errorCount.toNat = tally

/-- An event that carries a start with a data byte (R163). -/
abbrev startWithData : Instr := .sOnEvent (eventOf [.BF, .S, .DA] 0#8)

/-- The diagnostic of a tally that has reached the threshold with such an event. -/
abbrev thresholdReport (c : Config) : Message := msg .diag [BitVec.ofNat 8 c.errThreshold, 0x02#8, 0x01#8]

/-- R163, R154: one more error counts up, or is reported and the tally cleared. -/
theorem IdleWithTally.error {c : Config} {s : State} {k : Nat} (h : IdleWithTally c s k) (legal : c.legal = true)
    (role : c.role = .slave) (below : k < c.errThreshold) :
    ∃ u, RunsTo [startWithData] s u [] (List.replicate (if k + 1 = c.errThreshold then 1 else 0) (thresholdReport c)) ∧
      IdleWithTally c u (if k + 1 = c.errThreshold then 0 else k + 1) := by
  obtain ⟨cfg, status, tally⟩ := h
  obtain ⟨-, -, -, -, -, small, -⟩ := legal_bounds legal
  obtain ⟨errs, -⟩ := slaveRejectsMisplacedBytes (eventOf [.BF, .S, .DA] 0#8) s (cfg ▸ role) rfl rfl
  obtain ⟨u, runs, effect⟩ := errs status rfl rfl rfl
  have record := effect.record_eq
  have after : (tallyAfter s).toNat = k + 1 := tally ▸ toNat_add_one_of_lt (tally ▸ below) small
  have single := RunsTo.single runs effect
  simp only [diagnosticOf, cfg, after] at single
  simp only [abandonedRecord, cfg, after] at record
  by_cases reached : k + 1 = c.errThreshold
  · have report : tallyAfter s = BitVec.ofNat 8 c.errThreshold :=
      BitVec.eq_of_toNat_eq (by rw [after, toNat_ofNat_of_le small, reached])
    simp only [reached, le_refl, if_true, report] at single record ⊢
    exact ⟨u, single, effect.cfg_eq.trans cfg, by rw [record], by rw [record]; rfl⟩
  · simp only [show ¬ c.errThreshold ≤ k + 1 by omega, reached, if_false] at single record ⊢
    exact ⟨u, single, effect.cfg_eq.trans cfg, by rw [record], by rw [record]; exact after⟩

/-- One more, counted in full thresholds and what is left over. -/
theorem add_one_div_mod {threshold : Nat} (positive : 0 < threshold) (n : Nat) :
    (n + 1) / threshold = n / threshold + (if n % threshold + 1 = threshold then 1 else 0) ∧
    (n + 1) % threshold = if n % threshold + 1 = threshold then 0 else n % threshold + 1 := by
  have whole := Nat.div_add_mod n threshold
  have below := Nat.mod_lt n positive
  rw [Nat.div_mod_unique positive, Nat.mul_add]
  split <;> omega

/-- Settles O57, by induction on the number of errors. -/
theorem oneDiagnosticPerThreshold : Obligations.OneDiagnosticPerThreshold := by
  intro s n legal role idle empty
  obtain ⟨-, -, -, -, positive, -⟩ := legal_bounds legal
  suffices errors : ∃ t, RunsTo (List.replicate n startWithData) s t []
      (List.replicate (n / s.cfg.errThreshold) (thresholdReport s.cfg)) ∧
      IdleWithTally s.cfg t (n % s.cfg.errThreshold) by
    obtain ⟨t, ⟨runs, -, trace⟩, -, status, tally⟩ := errors
    exact ⟨t, runs, status, tally, trace⟩
  induction n with
  | zero => exact ⟨s, by simpa using RunsTo.nil s, rfl, idle, by simp [empty]⟩
  | succ n ih =>
    obtain ⟨t, earlier, counted⟩ := ih
    obtain ⟨u, last, counted'⟩ := counted.error legal role (Nat.mod_lt _ positive)
    obtain ⟨quotient, remainder⟩ := add_one_div_mod positive n
    refine ⟨u, ?_, remainder ▸ counted'⟩
    rw [List.replicate_succ', quotient, List.replicate_add]
    exact earlier.append last

end Sys2Proof.Machine
end

section
/-! PROOFS. The Command Dispatcher at a read restart: what each tag stages, drives and sends (42_dispatcher.md R201 to R207; 41_slave.md
R176). -/

namespace Sys2Proof.Machine

/-! ## The rule an event runs -/

section
variable {c : Config} {ev : Event} {w v : Work} {tag : Byte}

/-- R176: a read address in S_RCV_DATA enters S_SLAVE_SEND and dispatches the message. -/
theorem slaveTransition_of_readRestart (status : w.record.status = Status.sRcvData.code) (ov : ev.ov = false)
    (noStop : ev.p = false) (byte : ev.bf = true) (address : ev.dA = false) (read : ev.rW = true) :
    slaveTransition c ev w = dispatch c (enterSend w.counted) := by
  rw [slaveTransition_of_rcvData status ov]
  simp [slaveRcvData, noStop, byte, address, read]

/-- R201: an empty message has no tag. -/
theorem dispatch_empty (empty : w.record.receiveLength = 0#8) : dispatch c w = .ok (w.setReceiveLength 0#8) := by
  simp [dispatch, commandTag, empty, dispatchTag, bind, Except.bind]

/-- R201, R207: a message with a first byte is answered by that byte, and then consumed. -/
theorem dispatch_tagged (legal : c.legal = true) (message : w.record.receiveLength ≠ 0#8)
    (first : Memory.read w.record.rxb 0 = some tag) (answers : dispatchTag c (some tag) w = .ok v) :
    dispatch c w = .ok (v.setReceiveLength 0#8) := by
  obtain ⟨rxCap, -⟩ := legal_bounds legal
  have inRange : 0 < c.rxCap := by omega
  have read : memRead c .rx 0 w = .ok tag := memRead_ok inRange first
  simp [dispatch, commandTag, message, read, answers, bind, Except.bind]

end

/-- What the Dispatcher works on after a read restart (R176): the event counted, a reply awaited, and the message not yet consumed. -/
abbrev restarted (s : State) : Work := enterSend (Work.start s).counted

/-! ## The replies -/

/-- The working state in which a reply of n bytes has been staged (R156), written without taking the reply apart. -/
abbrev Work.replied (w : Work) (q : List Byte) (n : Nat) : Work :=
  { w.storedTx q with
    record  := { (w.storedTx q).record with
      transmitLength := BitVec.ofNat 8 n, transmitIndex := 1#8, awaitingReply := false }
    actions := { w.actions with wr := q[0]?, ckpRel := true } }

section
variable {c : Config} {w : Work} {q : List Byte} {n : Nat}

/-- R156: a reply of a length TXB holds is staged. -/
theorem stageReply_replied (length : q.length = n) (nonempty : 1 ≤ n) (fits : n ≤ c.txCap) :
    stageReply c q w = .ok (w.replied q n) := by
  subst length
  cases q with
  | nil => exact absurd nonempty (by decide)
  | cons first rest => exact stageReply_ok fits

/-- R202, R204: ACK_REPLY always fits. -/
theorem stageReply_ackReply (legal : c.legal = true) : stageReply c c.ackReply w = .ok (w.replied c.ackReply 3) := by
  obtain ⟨-, -, txCap, -, -, -, -, -, -, length⟩ := legal_bounds legal
  exact stageReply_replied length (by decide) (by omega)

/-- R203, R205: so does the reply to a gather check. -/
theorem dispatchCheck_replied (legal : c.legal = true) :
    dispatchCheck c w = .ok ({ w with samples := w.samples.tail }.replied (checkReply w.samples.head?) 5) := by
  obtain ⟨-, -, txCap, -⟩ := legal_bounds legal
  have polls : w.tryReceive = (w.samples.head?, { w with samples := w.samples.tail }) := by
    obtain ⟨record, samples, actions, sent, recordedError⟩ := w
    cases samples <;> rfl
  rw [dispatchCheck, polls]
  exact stageReply_replied (checkReply_length _) (by decide) txCap

/-- R204: RXB is untouched by the reply, so NOTIFY_MOVE reads the received bytes back. -/
theorem dispatchMove_replied (legal : c.legal = true) (inRange : w.record.receiveLength.toNat ≤ c.rxCap)
    (written : ∀ j < w.record.receiveLength.toNat, (Memory.read w.record.rxb j).isSome = true) :
    ∃ bytes, dispatchMove c w = .ok ((w.replied c.ackReply 3).send .notifyMove bytes) ∧
      bytes.length = w.record.receiveLength.toNat ∧ ∀ j < bytes.length, bytes[j]? = Memory.read w.record.rxb j := by
  obtain ⟨bytes, read, length, inOrder⟩ := memReadFrom_ok (c := c) (sp := .rx) (i := 0)
    (n := w.record.receiveLength.toNat) (w := w.replied c.ackReply 3) (by simpa using inRange) (by simpa using written)
  refine ⟨bytes, ?_, length, by simpa [length] using inOrder⟩
  simp [dispatchMove, stageReply_ackReply legal, read, bind, Except.bind]

/-- The reply stands at TXB[0..n-1] and nowhere else. -/
theorem Memory.read_writeList_zero (length : q.length = n) (m : Memory) (j : Nat) :
    Memory.read (Memory.writeList m 0 q) j = if j < n then q[j]? else Memory.read m j := by
  simp [Memory.read_writeList, length]

/-- R203: a well-typed sample is the reply. -/
theorem checkReply_sample {m : Message} (tag : m.tag = Tag.sample.code) (length : m.payload.length = 5) :
    checkReply (some m) = m.payload := by
  simp [checkReply, wellTypedSample, tag, length]

/-- R203: any other message is answered with five zero bytes. -/
theorem checkReply_illTyped {m : Message} (illTyped : m.tag ≠ Tag.sample.code ∨ m.payload.length ≠ 5) :
    checkReply (some m) = zeroReply := by
  rcases illTyped with tag | length
  · simp [checkReply, wellTypedSample, tag]
  · simp [checkReply, wellTypedSample, length]

end

/-! ## The obligations -/

/-- Settles O48: ACK_REPLY is staged, and the notification follows it. -/
theorem dispatcherAnswersGather : Obligations.DispatcherAnswersGather := by
  intro ev s legal role status ov noStop byte address read message tag
  obtain ⟨-, -, -, -, -, -, -, -, -, length⟩ := legal_bounds legal
  have answers : dispatchTag s.cfg (some tagGather) (restarted s) =
      .ok (((restarted s).replied s.cfg.ackReply 3).send .notifyGather gatherNotice) := by
    simp [dispatchTag, dispatchGather, stageReply_ackReply legal, bind, Except.bind]
  have rule := (slaveTransition_of_readRestart (w := Work.start s) status ov noStop byte address read).trans
    (dispatch_tagged (w := restarted s) legal message tag answers)
  exact ⟨_, sOnEvent_runs_noError role rule rfl, stepEffect_withWork _ rfl, Memory.read_writeList_zero length _⟩

/-- Settles O49: the queue is polled once, and the reply is chosen by what its head was. -/
theorem dispatcherAnswersCheck : Obligations.DispatcherAnswersCheck := by
  intro ev s legal role status ov noStop byte address read message tag
  have answers : dispatchTag s.cfg (some tagCheck) (restarted s) =
      .ok ({ restarted s with samples := s.sampleIn.tail }.replied (checkReply s.sampleIn.head?) 5) :=
    dispatchCheck_replied legal
  have rule := (slaveTransition_of_readRestart (w := Work.start s) status ov noStop byte address read).trans
    (dispatch_tagged (w := restarted s) legal message tag answers)
  refine ⟨_, checkReply s.sampleIn.head?, sOnEvent_runs_noError role rule rfl, fun m head => ?_, fun m head => ?_,
    fun empty => ?_, rfl, ⟨rfl, rfl, rfl, rfl, rfl, rfl, rfl, rfl, (List.append_nil _).symm⟩,
    Memory.read_writeList_zero (checkReply_length _) _⟩
  · exact head ▸ checkReply_sample
  · exact head ▸ checkReply_illTyped
  · exact empty ▸ rfl

/-- Settles O50: ACK_REPLY is staged, and the received bytes are read back for the notification. -/
theorem dispatcherAnswersMove : Obligations.DispatcherAnswersMove := by
  intro ev s legal role status ov noStop byte address read message inRange written tag
  obtain ⟨-, -, -, -, -, -, -, notGather, notCheck, length⟩ := legal_bounds legal
  obtain ⟨bytes, forwards, count, inOrder⟩ := dispatchMove_replied (w := restarted s) legal inRange written
  have answers : dispatchTag s.cfg (some s.cfg.tagMove) (restarted s) =
      .ok (((restarted s).replied s.cfg.ackReply 3).send .notifyMove bytes) := by
    simp [dispatchTag, notGather, notCheck, forwards]
  have rule := (slaveTransition_of_readRestart (w := Work.start s) status ov noStop byte address read).trans
    (dispatch_tagged (w := restarted s) legal message tag answers)
  exact ⟨_, bytes, sOnEvent_runs_noError role rule rfl, stepEffect_withWork _ rfl, Memory.read_writeList_zero length _, count,
    inOrder⟩

/-- Settles O51: an empty message has no tag, and an unknown one runs no branch. -/
theorem dispatcherIsSilentOnOtherTags : Obligations.DispatcherIsSilentOnOtherTags := by
  intro ev s legal role status ov noStop byte address read unanswered
  have silent : dispatch s.cfg (restarted s) = .ok ((restarted s).setReceiveLength 0#8) := by
    by_cases empty : s.record.receiveLength = 0#8
    · exact dispatch_empty empty
    · obtain ⟨tag, first, notGather, notCheck, notMove⟩ := unanswered.resolve_left empty
      exact dispatch_tagged legal empty first (by simp [dispatchTag, tagGather, tagCheck, notGather, notCheck, notMove])
  exact sOnEvent_effect role ((slaveTransition_of_readRestart status ov noStop byte address read).trans silent) rfl rfl

end Sys2Proof.Machine
end

section
/-! PROOFS. Reachable states and the model faults (10_state.md R34, 60_exceptions.md R239). -/

namespace Sys2Proof.Machine

/-- R34, R239: every reachable state meets the machine's invariant: reset does, every step keeps it, and a delivery changes only the
input ports, of which it does not speak. -/
theorem Reachable.inv {s : State} (reachable : Reachable s) : s.Inv := by
  induction reachable with
  | reset c legal => exact (resetMeetsTheInvariant.1 c legal).1
  | step s t _ steps inv => exact everyStepKeepsTheInvariant.1 s t inv steps
  | deliver s schedule commandIn eventIn sampleIn _ inv => exact inv

/-- Settles O13: a reachable state meets the invariant, so a step answers a next state, which that step reaches. -/
theorem noFaultIsReachable : Obligations.NoFaultIsReachable := by
  intro s reachable
  obtain ⟨t, steps⟩ := noStepStopsUnderTheInvariant s reachable.inv
  exact ⟨t, steps, .step s t reachable steps⟩

end Sys2Proof.Machine
end

section
/-! PROOFS. The values reset leaves (10_state.md R41; 70_reset_and_hazards.md R251, R253). -/

namespace Sys2Proof.Machine

theorem reset_slaveAddress_master {c : Config} (role : c.role = .master) :
    (State.resetOf c).record.slaveAddress = 0x00#8 := by
  simp [State.resetOf, Record.reset, role]

/-- R251: in the slave role the address is the device's own, as the invariant keeps it (R23). -/
theorem reset_slaveAddress_slave {c : Config} (role : c.role = .slave) :
    (State.resetOf c).record.slaveAddress = c.ownAddr :=
  (slaveInv_reset role).constants.1

/-- R62, R251: no byte of either space is written yet. -/
theorem reset_memory_absent (c : Config) (sp : Space) (i : Nat) :
    Memory.read ((State.resetOf c).record.space sp) i = none := by
  cases sp <;> rfl

/-- Settles O9: the address follows the role, no buffer byte is written, and every other value is reset's own field. -/
theorem stateAfterReset : Obligations.StateAfterReset := by
  intro c
  have absent (i : Nat) :
      Memory.read (State.resetOf c).record.rxb i = none ∧ Memory.read (State.resetOf c).record.txb i = none :=
    ⟨reset_memory_absent c .rx i, reset_memory_absent c .tx i⟩
  exact ⟨rfl, reset_slaveAddress_master, reset_slaveAddress_slave, absent,
    rfl, rfl, rfl, rfl, rfl, rfl, rfl, rfl, rfl, rfl, rfl⟩

end Sys2Proof.Machine
end
